-- ==== Sys2Proof/Word.lean ====
section
/-! DEFINITION. The words of BOC: a byte of the buffer (10_state R24), a command word on CMD
(30_encoding R51), and a 64-bit word on VALUE or RESULT (00_scope R9). -/

namespace Sys2Proof

/-- One byte of the buffer, an integer in 0 .. 255 (10_state R24). -/
abbrev Byte := BitVec 8

/-- A command word on the CMD port (10_state R16, 30_encoding R51). -/
abbrev Command := BitVec 8

/-- A binary32 word: four bytes of BUF that a Float instruction reads or writes (42_float R97). -/
abbrev Word32 := BitVec 32

/-- A binary64 word: the format of the VALUE and RESULT ports (00_scope R9). -/
abbrev Word64 := BitVec 64

end Sys2Proof
end

