-- ==== Sys2Proof/Syntax.lean ====
section
/-! DEFINITION. The syntax of BOC: the fields of a command word (30_encoding R52) and the 28
instructions of spec/opcode_table.json (00_scope R3, 30_encoding R60). -/

namespace Sys2Proof

/-- DIR, CMD[7]: a read or a write (30_encoding R54). -/
inductive Dir where
  | read
  | write
  deriving DecidableEq, Repr

/-- KIND, CMD[6:5]: the numeric interpretation (30_encoding R55). -/
inductive Kind where
  | uint
  | int
  | float
  | reserved
  deriving DecidableEq, Repr

/-- WSEL, CMD[4:3]: the field width, 2^WSEL bytes (30_encoding R56). -/
inductive Wsel where
  | w1
  | w2
  | w4
  | w8
  deriving DecidableEq, Repr

/-- The six fields of a command word (30_encoding R52), most significant first. -/
structure Fields where
  dir  : Dir
  kind : Kind
  wsel : Wsel
  be   : Bool
  skip : Bool
  rsv  : Bool
  deriving DecidableEq, Repr

/-- The instructions, one constructor for each row of spec/opcode_table.json, in its order. `skip` is
the SKIP bit (30_encoding R53). `x` is the BE bit that the 1-byte forms ignore (30_encoding R57): it
is kept so that no bit of a command word is lost (log 15). The offset and the value are on the ports,
not in the command (30_encoding R59). -/
inductive Instr where
  | readUInt8 (x skip : Bool)
  | readUInt16LE (skip : Bool)
  | readUInt16BE (skip : Bool)
  | readUInt32LE (skip : Bool)
  | readUInt32BE (skip : Bool)
  | readInt8 (x skip : Bool)
  | readInt16LE (skip : Bool)
  | readInt16BE (skip : Bool)
  | readInt32LE (skip : Bool)
  | readInt32BE (skip : Bool)
  | readFloatLE (skip : Bool)
  | readFloatBE (skip : Bool)
  | readDoubleLE (skip : Bool)
  | readDoubleBE (skip : Bool)
  | writeUInt8 (x skip : Bool)
  | writeUInt16LE (skip : Bool)
  | writeUInt16BE (skip : Bool)
  | writeUInt32LE (skip : Bool)
  | writeUInt32BE (skip : Bool)
  | writeInt8 (x skip : Bool)
  | writeInt16LE (skip : Bool)
  | writeInt16BE (skip : Bool)
  | writeInt32LE (skip : Bool)
  | writeInt32BE (skip : Bool)
  | writeFloatLE (skip : Bool)
  | writeFloatBE (skip : Bool)
  | writeDoubleLE (skip : Bool)
  | writeDoubleBE (skip : Bool)
  deriving DecidableEq, Repr

end Sys2Proof
end

