-- ==== Sys2Proof/WellFormed.lean ====
section
/-! DEFINITION. Which fields make a legal command (30_encoding R55, R56, R58, R61), and the fields of
each instruction (the rows of 30_encoding R60). -/

namespace Sys2Proof

/-- RSV must be 0 (30_encoding R58). -/
def Fields.rsvClear (f : Fields) : Bool := !f.rsv

/-- KIND = 11 is reserved (30_encoding R55). -/
def Fields.kindLegal (f : Fields) : Bool := f.kind != .reserved

/-- An integer has width 1, 2 or 4 (30_encoding R56). -/
def Fields.intWidthLegal (f : Fields) : Bool :=
  match f.kind with
  | .uint | .int => f.wsel != .w8
  | .float | .reserved => true

/-- A float has width 4 or 8 (30_encoding R56). -/
def Fields.floatWidthLegal (f : Fields) : Bool :=
  match f.kind with
  | .float => f.wsel == .w4 || f.wsel == .w8
  | .uint | .int | .reserved => true

/-- The fields of a legal command: none of the four reasons of 30_encoding R61 applies. -/
def Fields.wellFormed (f : Fields) : Bool :=
  f.rsvClear && f.kindLegal && f.intWidthLegal && f.floatWidthLegal

/-- The fields of each instruction, its row of 30_encoding R60. -/
def Instr.fields : Instr → Fields
  | .readUInt8 x k     => ⟨.read, .uint, .w1, x, k, false⟩
  | .readUInt16LE k    => ⟨.read, .uint, .w2, false, k, false⟩
  | .readUInt16BE k    => ⟨.read, .uint, .w2, true, k, false⟩
  | .readUInt32LE k    => ⟨.read, .uint, .w4, false, k, false⟩
  | .readUInt32BE k    => ⟨.read, .uint, .w4, true, k, false⟩
  | .readInt8 x k      => ⟨.read, .int, .w1, x, k, false⟩
  | .readInt16LE k     => ⟨.read, .int, .w2, false, k, false⟩
  | .readInt16BE k     => ⟨.read, .int, .w2, true, k, false⟩
  | .readInt32LE k     => ⟨.read, .int, .w4, false, k, false⟩
  | .readInt32BE k     => ⟨.read, .int, .w4, true, k, false⟩
  | .readFloatLE k     => ⟨.read, .float, .w4, false, k, false⟩
  | .readFloatBE k     => ⟨.read, .float, .w4, true, k, false⟩
  | .readDoubleLE k    => ⟨.read, .float, .w8, false, k, false⟩
  | .readDoubleBE k    => ⟨.read, .float, .w8, true, k, false⟩
  | .writeUInt8 x k    => ⟨.write, .uint, .w1, x, k, false⟩
  | .writeUInt16LE k   => ⟨.write, .uint, .w2, false, k, false⟩
  | .writeUInt16BE k   => ⟨.write, .uint, .w2, true, k, false⟩
  | .writeUInt32LE k   => ⟨.write, .uint, .w4, false, k, false⟩
  | .writeUInt32BE k   => ⟨.write, .uint, .w4, true, k, false⟩
  | .writeInt8 x k     => ⟨.write, .int, .w1, x, k, false⟩
  | .writeInt16LE k    => ⟨.write, .int, .w2, false, k, false⟩
  | .writeInt16BE k    => ⟨.write, .int, .w2, true, k, false⟩
  | .writeInt32LE k    => ⟨.write, .int, .w4, false, k, false⟩
  | .writeInt32BE k    => ⟨.write, .int, .w4, true, k, false⟩
  | .writeFloatLE k    => ⟨.write, .float, .w4, false, k, false⟩
  | .writeFloatBE k    => ⟨.write, .float, .w4, true, k, false⟩
  | .writeDoubleLE k   => ⟨.write, .float, .w8, false, k, false⟩
  | .writeDoubleBE k   => ⟨.write, .float, .w8, true, k, false⟩

/-- An instruction is well formed when its fields are those of a legal command. -/
def Instr.wellFormed (i : Instr) : Bool := i.fields.wellFormed

end Sys2Proof
end

