-- ==== Sys2Proof/Decode.lean ====
section
/-! DEFINITION. Decoding a command word (30_encoding R52 to R61, R66), and the encoder beside it. -/

namespace Sys2Proof

/-- Why a command word is reserved (30_encoding R61). -/
inductive Reserved where
  /-- RSV = 1. -/
  | rsvSet
  /-- KIND = 11. -/
  | kindReserved
  /-- KIND = UINT or INT with WSEL = 11. -/
  | integerOfEightBytes
  /-- KIND = FLOAT with WSEL = 00 or 01. -/
  | floatOfOneOrTwoBytes
  deriving DecidableEq, Repr

/-- What a command word decodes to: an instruction, or ILLEGAL for a named reason. -/
inductive Decoded where
  | instr (i : Instr)
  | illegal (why : Reserved)
  deriving DecidableEq, Repr

/-- CMD[6:5] (30_encoding R55). -/
def Kind.ofBits : Bool → Bool → Kind
  | false, false => .uint
  | false, true  => .int
  | true,  false => .float
  | true,  true  => .reserved

/-- CMD[4:3] (30_encoding R56). -/
def Wsel.ofBits : Bool → Bool → Wsel
  | false, false => .w1
  | false, true  => .w2
  | true,  false => .w4
  | true,  true  => .w8

/-- The fields of a command word (30_encoding R52): `DIR KIND[1] KIND[0] WSEL[1] WSEL[0] BE SKIP RSV`. -/
def Fields.ofWord (w : Command) : Fields where
  dir  := if w.getLsbD 7 then .write else .read
  kind := Kind.ofBits (w.getLsbD 6) (w.getLsbD 5)
  wsel := Wsel.ofBits (w.getLsbD 4) (w.getLsbD 3)
  be   := w.getLsbD 2
  skip := w.getLsbD 1
  rsv  := w.getLsbD 0

/-- The instruction of a direction, kind, width and byte order, or why there is none (30_encoding R60,
R61). -/
def Fields.decode (f : Fields) : Decoded :=
  if f.rsv then .illegal .rsvSet
  else
    match f.dir, f.kind, f.wsel, f.be with
    | _,      .reserved, _,   _     => .illegal .kindReserved
    | .read,  .uint,  .w1, x     => .instr (.readUInt8 x f.skip)
    | .read,  .uint,  .w2, false => .instr (.readUInt16LE f.skip)
    | .read,  .uint,  .w2, true  => .instr (.readUInt16BE f.skip)
    | .read,  .uint,  .w4, false => .instr (.readUInt32LE f.skip)
    | .read,  .uint,  .w4, true  => .instr (.readUInt32BE f.skip)
    | .read,  .int,   .w1, x     => .instr (.readInt8 x f.skip)
    | .read,  .int,   .w2, false => .instr (.readInt16LE f.skip)
    | .read,  .int,   .w2, true  => .instr (.readInt16BE f.skip)
    | .read,  .int,   .w4, false => .instr (.readInt32LE f.skip)
    | .read,  .int,   .w4, true  => .instr (.readInt32BE f.skip)
    | .read,  .float, .w4, false => .instr (.readFloatLE f.skip)
    | .read,  .float, .w4, true  => .instr (.readFloatBE f.skip)
    | .read,  .float, .w8, false => .instr (.readDoubleLE f.skip)
    | .read,  .float, .w8, true  => .instr (.readDoubleBE f.skip)
    | .write, .uint,  .w1, x     => .instr (.writeUInt8 x f.skip)
    | .write, .uint,  .w2, false => .instr (.writeUInt16LE f.skip)
    | .write, .uint,  .w2, true  => .instr (.writeUInt16BE f.skip)
    | .write, .uint,  .w4, false => .instr (.writeUInt32LE f.skip)
    | .write, .uint,  .w4, true  => .instr (.writeUInt32BE f.skip)
    | .write, .int,   .w1, x     => .instr (.writeInt8 x f.skip)
    | .write, .int,   .w2, false => .instr (.writeInt16LE f.skip)
    | .write, .int,   .w2, true  => .instr (.writeInt16BE f.skip)
    | .write, .int,   .w4, false => .instr (.writeInt32LE f.skip)
    | .write, .int,   .w4, true  => .instr (.writeInt32BE f.skip)
    | .write, .float, .w4, false => .instr (.writeFloatLE f.skip)
    | .write, .float, .w4, true  => .instr (.writeFloatBE f.skip)
    | .write, .float, .w8, false => .instr (.writeDoubleLE f.skip)
    | .write, .float, .w8, true  => .instr (.writeDoubleBE f.skip)
    | _,      .uint,  .w8, _     => .illegal .integerOfEightBytes
    | _,      .int,   .w8, _     => .illegal .integerOfEightBytes
    | _,      .float, .w1, _     => .illegal .floatOfOneOrTwoBytes
    | _,      .float, .w2, _     => .illegal .floatOfOneOrTwoBytes

/-- Decode(CMD) of 30_encoding R63: total on all 256 words (30_encoding R66). -/
def decode (w : Command) : Decoded := (Fields.ofWord w).decode

/-- The instruction of a decoded command, if it is legal. -/
def Decoded.instr? : Decoded → Option Instr
  | .instr i => some i
  | .illegal _ => none

/-- The two bits of KIND as a number (30_encoding R52). -/
def Kind.bits : Kind → Nat
  | .uint => 0
  | .int => 1
  | .float => 2
  | .reserved => 3

/-- The two bits of WSEL as a number (30_encoding R52). -/
def Wsel.bits : Wsel → Nat
  | .w1 => 0
  | .w2 => 1
  | .w4 => 2
  | .w8 => 3

/-- The bit of DIR (30_encoding R54). -/
def Dir.bit : Dir → Nat
  | .read => 0
  | .write => 1

/-- The word of six fields: each at its place in 30_encoding R52. -/
def Fields.word (f : Fields) : Command :=
  BitVec.ofNat 8
    (2 ^ 7 * f.dir.bit + 2 ^ 5 * f.kind.bits + 2 ^ 3 * f.wsel.bits
      + 2 ^ 2 * f.be.toNat + 2 * f.skip.toNat + f.rsv.toNat)

/-- The command word of an instruction (30_encoding R60). -/
def encode (i : Instr) : Command := i.fields.word

/-- One row of the opcode map as a match/mask pair (30_encoding R60, spec/opcode_table.json). -/
structure OpcodeRow where
  mnemonic : String
  pattern  : Command
  mask     : Command
  deriving DecidableEq, Repr

/-- Whether a command word is one of the row's. -/
def OpcodeRow.covers (r : OpcodeRow) (w : Command) : Bool := w &&& r.mask == r.pattern

/-- The opcode map of 30_encoding R60, reads, as match/mask pairs. -/
def readRows : List OpcodeRow :=
  [ ⟨"readUInt8",    0x00, 0xF9⟩, ⟨"readUInt16LE", 0x08, 0xFD⟩, ⟨"readUInt16BE", 0x0C, 0xFD⟩,
    ⟨"readUInt32LE", 0x10, 0xFD⟩, ⟨"readUInt32BE", 0x14, 0xFD⟩, ⟨"readInt8",     0x20, 0xF9⟩,
    ⟨"readInt16LE",  0x28, 0xFD⟩, ⟨"readInt16BE",  0x2C, 0xFD⟩, ⟨"readInt32LE",  0x30, 0xFD⟩,
    ⟨"readInt32BE",  0x34, 0xFD⟩, ⟨"readFloatLE",  0x50, 0xFD⟩, ⟨"readFloatBE",  0x54, 0xFD⟩,
    ⟨"readDoubleLE", 0x58, 0xFD⟩, ⟨"readDoubleBE", 0x5C, 0xFD⟩ ]

/-- The opcode map of 30_encoding R60, writes, as match/mask pairs. -/
def writeRows : List OpcodeRow :=
  [ ⟨"writeUInt8",    0x80, 0xF9⟩, ⟨"writeUInt16LE", 0x88, 0xFD⟩, ⟨"writeUInt16BE", 0x8C, 0xFD⟩,
    ⟨"writeUInt32LE", 0x90, 0xFD⟩, ⟨"writeUInt32BE", 0x94, 0xFD⟩, ⟨"writeInt8",     0xA0, 0xF9⟩,
    ⟨"writeInt16LE",  0xA8, 0xFD⟩, ⟨"writeInt16BE",  0xAC, 0xFD⟩, ⟨"writeInt32LE",  0xB0, 0xFD⟩,
    ⟨"writeInt32BE",  0xB4, 0xFD⟩, ⟨"writeFloatLE",  0xD0, 0xFD⟩, ⟨"writeFloatBE",  0xD4, 0xFD⟩,
    ⟨"writeDoubleLE", 0xD8, 0xFD⟩, ⟨"writeDoubleBE", 0xDC, 0xFD⟩ ]

/-- The whole opcode map of 30_encoding R60. -/
def opcodeRows : List OpcodeRow := readRows ++ writeRows

/-- The §6 name of an instruction (00_scope R13, 30_encoding R62). -/
def Instr.mnemonic : Instr → String
  | .readUInt8 _ _     => "readUInt8"
  | .readUInt16LE _    => "readUInt16LE"
  | .readUInt16BE _    => "readUInt16BE"
  | .readUInt32LE _    => "readUInt32LE"
  | .readUInt32BE _    => "readUInt32BE"
  | .readInt8 _ _      => "readInt8"
  | .readInt16LE _     => "readInt16LE"
  | .readInt16BE _     => "readInt16BE"
  | .readInt32LE _     => "readInt32LE"
  | .readInt32BE _     => "readInt32BE"
  | .readFloatLE _     => "readFloatLE"
  | .readFloatBE _     => "readFloatBE"
  | .readDoubleLE _    => "readDoubleLE"
  | .readDoubleBE _    => "readDoubleBE"
  | .writeUInt8 _ _    => "writeUInt8"
  | .writeUInt16LE _   => "writeUInt16LE"
  | .writeUInt16BE _   => "writeUInt16BE"
  | .writeUInt32LE _   => "writeUInt32LE"
  | .writeUInt32BE _   => "writeUInt32BE"
  | .writeInt8 _ _     => "writeInt8"
  | .writeInt16LE _    => "writeInt16LE"
  | .writeInt16BE _    => "writeInt16BE"
  | .writeInt32LE _    => "writeInt32LE"
  | .writeInt32BE _    => "writeInt32BE"
  | .writeFloatLE _    => "writeFloatLE"
  | .writeFloatBE _    => "writeFloatBE"
  | .writeDoubleLE _   => "writeDoubleLE"
  | .writeDoubleBE _   => "writeDoubleBE"

/-- The decoder on a word of the opcode table. Every command is one word of 8 bits (30_encoding R51,
R65), whatever number of bits a row is given: a number that 8 bits cannot hold is no command. -/
def decodeTableWord (_nbits w : Nat) : Option Instr :=
  if w < 2 ^ 8 then (decode (BitVec.ofNat 8 w)).instr? else none

end Sys2Proof
end

