-- ==== Sys2Proof/Config.lean ====
section
/-! DEFINITION. What an implementation of BOC fixes (AW, ROUND32) and the free values the spec leaves
open (CAUSE_DRAW, NAN_DRAW: 00_scope R8; the wires of RESULT while it holds no value; BUF after a
transaction abandoned by a reset). Each is an opaque constant: nothing in Lean can compute it or prove a
value of it, so a claim holds whatever it is. -/

namespace Sys2Proof

/-- AW, the width in bits of the OFFSET port (00_scope R8, 10_state R17). The spec's default is 32;
the model holds for every AW. DESIGN CHOICE, log 1. -/
opaque Config.AW : Nat

/-- CAUSE_DRAW (00_scope R8, 60_exceptions R138): the draw that picks which failing check a rejected
transaction reports, for the draw's number. Free value, log 7. -/
opaque Config.causeDraw : Nat → Nat

/-- NAN_DRAW (00_scope R8, 42_float R102): the bits that a read of a NaN pattern draws, for the draw's
number; `Machine.toNaN` makes a NaN word of them. Free value, log 8. -/
opaque Config.nanDraw : Nat → Word64

/-- What the RESULT wires carry while RESULT holds no value (10_state R23), for the draw's number.
Free value, log 4. -/
opaque Config.staleResult : Nat → Word64

/-- The byte that a transaction abandoned by a reset leaves at an address of BUF (70_reset R152,
60_exceptions R137), for the draw's number and the address. Free value, log 22. -/
opaque Config.abandonedByte : Nat → Nat → Byte

/-- The open part of the parameter ROUND32 (00_scope R8, 42_float R108): for a binary64 value that
binary32 cannot represent (given in units of 2^-1074), whether ROUND32 takes its neighbour away from
zero (true) or towards zero (false). A function of the value alone, as R108 (d) asks. Log 9. -/
opaque Config.roundAway : Int → Bool

end Sys2Proof
end

