-- ==== Sys2Proof/Machine/State.lean ====
section
/-! DEFINITION. The architectural state of BOC (10_state R15): the input ports, the output ports, the
attached buffer; beside them the model's own three fields, the host's actions not yet taken, the count
of draws and the record of an UNSPECIFIED outcome. The reasons a step stops, and the state after reset. -/

namespace Sys2Proof.Machine

/-- The names of STATUS's codes (10_state R21). -/
inductive Status where
  | none
  | ok
  | invariantViolation
  | illegalCommand
  deriving DecidableEq, Repr

/-- The names of CAUSE's codes (10_state R22, 60_exceptions R135); code 7 is reserved and has no name. -/
inductive Cause where
  | none
  | missingOffset
  | missingValue
  | missingByteOrder
  | outOfBounds
  | valueRange
  | notIntegral
  deriving DecidableEq, Repr

/-- The buffer's contents: (address, byte) pairs. The canonical form is `Memory.wf` in Ops.lean; a byte
of the buffer that is not listed is 0x00 (log 6). -/
abbrev Memory := List Host.Cell

/-- The input ports (10_state R16 to R18), driven by the host. -/
structure Inputs where
  /-- CMD, 8 bits (10_state R16). -/
  cmd         : Command
  /-- OFFSET, AW bits: the unsigned integer it holds, below 2^AW (10_state R17; log 1). -/
  offset      : Nat
  /-- OFFSET_VALID, 1 bit: the offset argument is present (10_state R17). -/
  offsetValid : Bool
  /-- VALUE, 64 bits, a binary64 word (10_state R18). -/
  value       : Word64
  /-- VALUE_VALID, 1 bit: the value argument is present and is a number (10_state R18). -/
  valueValid  : Bool
  deriving DecidableEq, Repr

/-- The output ports, as the host reads them (10_state R21 to R23, R27). -/
inductive OutPort where
  | status
  | cause
  | result
  | resultValid
  deriving DecidableEq, Repr

/-- Who makes an access to the buffer beside a running transaction (20_memory R48, 70_reset R156). -/
inductive Agent where
  /-- The host that issued the transaction. -/
  | host
  /-- A second host or a second BOC on the same buffer. -/
  | other
  deriving DecidableEq, Repr

/-- An access to the buffer by an agent other than the transaction's BOC (20_memory R48). -/
inductive Access where
  /-- A read of `len` bytes from `lo` on. -/
  | read (lo len : Nat)
  /-- A write of these bytes from `lo` on. -/
  | write (lo : Nat) (bytes : List Byte)
  deriving DecidableEq, Repr

/-- What the outside world does to BOC and its buffer, one event for each step (log 11). -/
inductive HostEvent where
  /-- The host drives the input ports and starts a transaction (70_reset R154, 30_encoding R63). -/
  | issue (p : Inputs)
  /-- The host attaches a buffer with these bytes (10_state R24, 70_reset R154). -/
  | attach (bytes : List Byte)
  /-- The host writes a byte of BUF between transactions (10_state R27, 20_memory R47). -/
  | hostWrite (address : Nat) (byte : Byte)
  /-- The host reads an output port (10_state R27, 70_reset R158). -/
  | readPort (port : OutPort)
  /-- BOC is reset between transactions (70_reset R151). -/
  | reset
  /-- A transaction during which another access to the buffer is made (20_memory R48, 70_reset R156). -/
  | issueBeside (p : Inputs) (who : Agent) (access : Access)
  /-- A transaction during which a reset arrives (70_reset R152). -/
  | resetDuring (p : Inputs)
  /-- A transaction during which the host changes an input port or BUF_LEN (70_reset R157). -/
  | inputsChangedDuring (p : Inputs)
  deriving DecidableEq, Repr

/-- Why a transaction's outcome, or what it leaves in BUF, is UNSPECIFIED (60_exceptions R137). -/
inductive Unspecified where
  /-- A skip-mode transaction with a failing check (43_validation R131). -/
  | skippedCheckFails
  /-- A data race on the buffer (20_memory R48, 70_reset R156). -/
  | dataRace
  /-- A reset arrived during the transaction (70_reset R152): recorded in State, not a fault of the step. -/
  | resetDuring
  /-- The host changed an input during the transaction (70_reset R157). -/
  | inputsChanged
  deriving DecidableEq, Repr

/-- Why the machine stops. -/
inductive Fault where
  /-- The outcome UNSPECIFIED (60_exceptions R137). Raised by an instruction in skip mode with a failing
  check, by a data race, by an input change during a transaction. Safe: the hardware goes on with outputs
  and bytes that nothing is promised about; the model stops (log 12). -/
  | unspecified (why : Unspecified)
  /-- A read of RESULT while RESULT_VALID = 0 (10_state R23, 70_reset R158). Raised by the host's read of
  the port, never by an instruction. Safe: the port holds no value to read. -/
  | resultHoldsNoValue
  /-- The host or another agent writes an address the buffer does not have (20_memory R34). Raised by
  those events, never by an instruction. Safe: there is no such byte (log 17). -/
  | outsideBuffer
  deriving DecidableEq, Repr

/-- Why the model has no meaning for something. -/
inductive Refusal where
  /-- An instruction that has no meaning yet, by its mnemonic. Raised by `exec` alone. Safe: nothing is
  claimed of it. No arm raises it in this model. -/
  | notModelled (mnemonic : String)
  deriving DecidableEq, Repr

/-- The state of BOC and its surroundings (10_state R15). -/
structure State where
  /-- The input ports CMD, OFFSET, OFFSET_VALID, VALUE, VALUE_VALID (10_state R16 to R18). -/
  inputs      : Inputs
  /-- STATUS, 2 bits (10_state R21). -/
  status      : BitVec 2
  /-- CAUSE, 3 bits (10_state R22). -/
  cause       : BitVec 3
  /-- RESULT, 64 bits (10_state R23): a value only while RESULT_VALID = 1. -/
  result      : Word64
  /-- RESULT_VALID, 1 bit (10_state R23). -/
  resultValid : Bool
  /-- BUF, the bytes of the attached buffer (10_state R24). -/
  buf         : Memory
  /-- BUF_LEN, the attached buffer's length in bytes (10_state R24). -/
  bufLen      : Nat
  /-- The model's own: the host's actions not yet taken, oldest first (log 11). -/
  events      : List HostEvent
  /-- The model's own: how many draws have been made (log 10). -/
  draws       : Nat
  /-- The model's own: the UNSPECIFIED outcome of a transaction after which the machine went on, recorded
  and never cleared (60_exceptions R137; log 22). -/
  recorded    : Option Unspecified
  deriving DecidableEq, Repr

/-- The machine right after reset (10_state R30, 70_reset R151): STATUS = NONE, CAUSE = NONE,
RESULT_VALID = 0. DESIGN CHOICE for what the spec gives no value: the input ports (log 2), the word
behind RESULT (log 3), no buffer attached (log 5), no event (log 11), no draw made (log 10), nothing recorded (log 22). -/
def State.reset : State where
  inputs      := { cmd := 0x00, offset := 0, offsetValid := false, value := 0, valueValid := false }
  status      := 0b00
  cause       := 0
  result      := 0
  resultValid := false
  buf         := []
  bufLen      := 0
  events      := []
  draws       := 0
  recorded    := none

end Sys2Proof.Machine
end

