-- ==== Sys2Proof/Machine/Ops.lean ====
section
/-! DEFINITION. The named operations over the buffer and the ports: reading and writing bytes
(20_memory R37, R38), the byte-order converter (20_memory R39, R40), the three ways a transaction ends
(30_encoding R63, 60_exceptions R134, R136), and the host's reads of the output ports (70_reset R158). -/

namespace Sys2Proof.Machine

/-! ### The buffer -/

/-- The canonical form of a buffer's contents: addresses strictly rising, no entry equal to what an
unlisted address reads as (log 6). -/
abbrev Memory.wf (m : Memory) : Prop :=
  m.Pairwise (fun p q => p.1 < q.1) ∧ ∀ p ∈ m, p.2 ≠ 0

/-- The byte at an address; an unlisted byte is 0x00 (log 6). -/
def Memory.read : Memory → Nat → Byte
  | [], _ => 0
  | (b, v) :: m, a => if a = b then v else Memory.read m a

/-- Write one byte, keeping the canonical form: writing 0x00 removes the entry. -/
def Memory.write : Memory → Nat → Byte → Memory
  | [], a, v => if v = 0 then [] else [(a, v)]
  | (b, u) :: m, a, v =>
    if a < b then (if v = 0 then (b, u) :: m else (a, v) :: (b, u) :: m)
    else if a = b then (if v = 0 then m else (a, v) :: m)
    else (b, u) :: Memory.write m a v

/-- MemRead(o, w): the `w` bytes from `o` on, in increasing address order (20_memory R37). Used only when
the span lies within the buffer: the checks come first (43_validation R121). -/
def Memory.readBytes (m : Memory) (o : Nat) : Nat → List Byte
  | 0 => []
  | w + 1 => m.read o :: m.readBytes (o + 1) w

/-- MemWrite(o, w, bytes): byte k goes to address o + k, and no other byte changes (20_memory R38). -/
def Memory.writeBytes (m : Memory) (o : Nat) : List Byte → Memory
  | [] => m
  | v :: vs => (m.write o v).writeBytes (o + 1) vs

/-- A buffer that holds these bytes from address 0 on (10_state R24). -/
def Memory.ofBytes (bytes : List Byte) : Memory := Memory.writeBytes [] 0 bytes

/-! ### The byte-order converter -/

/-- The unsigned integer of a list of bytes, the first least significant (20_memory R39, be = 0). -/
def assembleLE : List Byte → Nat
  | [] => 0
  | b :: bs => b.toNat + 256 * assembleLE bs

/-- Assemble(bytes, be) (20_memory R39): with `be` the first byte is the most significant. -/
def assemble (bytes : List Byte) (be : Bool) : Nat :=
  if be then assembleLE bytes.reverse else assembleLE bytes

/-- The `w` bytes of an unsigned integer, the least significant first (20_memory R40, be = 0). -/
def disassembleLE (u : Nat) : Nat → List Byte
  | 0 => []
  | w + 1 => BitVec.ofNat 8 u :: disassembleLE (u / 256) w

/-- Disassemble(u, w, be) (20_memory R40): with `be` the most significant byte comes first. -/
def disassemble (u w : Nat) (be : Bool) : List Byte :=
  if be then (disassembleLE u w).reverse else disassembleLE u w

/-! ### The end of a transaction -/

/-- The code of a status on the STATUS port (10_state R21). -/
def Status.code : Status → BitVec 2
  | .none => 0b00
  | .ok => 0b01
  | .invariantViolation => 0b10
  | .illegalCommand => 0b11

/-- The code of a cause on the CAUSE port (60_exceptions R135). -/
def Cause.code : Cause → BitVec 3
  | .none => 0
  | .missingOffset => 1
  | .missingValue => 2
  | .missingByteOrder => 3
  | .outOfBounds => 4
  | .valueRange => 5
  | .notIntegral => 6

/-- Write the output ports so that RESULT holds no value (10_state R23): its wires carry a free value
(log 4). A transaction uses one draw (log 10). -/
def State.endWithoutResult (s : State) (status : Status) (cause : Cause) : State :=
  { s with
    status := status.code
    cause := cause.code
    resultValid := false
    result := Config.staleResult s.draws
    draws := s.draws + 1 }

/-- A read completes: STATUS = OK, CAUSE = 0, RESULT holds the word, RESULT_VALID = 1; BUF is unchanged
(30_encoding R63). -/
def State.completeRead (s : State) (word : Word64) : State :=
  { s with
    status := Status.ok.code
    cause := Cause.none.code
    resultValid := true
    result := word
    draws := s.draws + 1 }

/-- A write completes: MemWrite at the offset, STATUS = OK, CAUSE = 0, RESULT_VALID = 0 (30_encoding R63). -/
def State.completeWrite (s : State) (bytes : List Byte) : State :=
  { s with buf := s.buf.writeBytes s.inputs.offset bytes }.endWithoutResult .ok .none

/-- Taking an exception, `raise InvariantViolation(cause)` (60_exceptions R134): STATUS, CAUSE and
RESULT_VALID are written and BUF is unchanged. There is no transfer of control, nothing is saved and
there is no return (60_exceptions R139, R141). -/
def State.raiseInvariantViolation (s : State) (cause : Cause) : State :=
  s.endWithoutResult .invariantViolation cause

/-- `raise IllegalCommand` (60_exceptions R136): STATUS = ILLEGAL_COMMAND, CAUSE = 0, RESULT_VALID = 0,
BUF unchanged. -/
def State.raiseIllegalCommand (s : State) : State := s.endWithoutResult .illegalCommand .none

/-! ### Reset, and what the host does between transactions -/

/-- Reset between transactions (70_reset R151, 10_state R30, R32): STATUS = NONE, CAUSE = 0,
RESULT_VALID = 0, RESULT holds no value; BUF, BUF_LEN and the input ports are not changed. -/
def State.resetOutputs (s : State) : State := s.endWithoutResult .none .none

/-- A buffer of `len` bytes about which nothing is known: each byte a free value of the draw (log 22). -/
def Memory.unknown (draw len : Nat) : Memory :=
  Memory.ofBytes ((List.range len).map (Config.abandonedByte draw))

/-- Reset while a transaction is in progress abandons it (70_reset R152): every byte of BUF is a free value,
the output ports take their reset values, and the UNSPECIFIED outcome is recorded (60_exceptions R137; log
22). The input ports and BUF_LEN, which BOC never writes, are not changed (10_state R24, R27). -/
def State.abandon (s : State) : State :=
  { s with
    buf := Memory.unknown s.draws s.bufLen
    recorded := some .resetDuring }.resetOutputs

/-- The host drives the input ports (70_reset R154). -/
def State.drive (s : State) (p : Inputs) : State := { s with inputs := p }

/-- The host attaches a buffer: its bytes and its length (10_state R24, 70_reset R154). -/
def State.attach (s : State) (bytes : List Byte) : State :=
  { s with buf := Memory.ofBytes bytes, bufLen := bytes.length }

/-- The host, or another agent, writes bytes of the buffer; an address the buffer does not have is a
fault (20_memory R34; log 17). -/
def State.outsideWrite (s : State) (lo : Nat) (bytes : List Byte) :
    Host.Outcome State Fault Refusal :=
  if lo + bytes.length ≤ s.bufLen then .next { s with buf := s.buf.writeBytes lo bytes }
  else .fault .outsideBuffer

/-- The host's read of RESULT: the word while RESULT_VALID = 1, else no value (10_state R23, 70_reset
R158). -/
def State.readResult (s : State) : Option Word64 :=
  if s.resultValid then some s.result else none

/-- The host's read of CAUSE: it holds 0 unless STATUS = INVARIANT_VIOLATION (10_state R22; log 18). -/
def State.readCause (s : State) : BitVec 3 := s.cause

/-- The host reads an output port: nothing changes; RESULT faults while it holds no value (70_reset
R158). -/
def State.hostReads (s : State) : OutPort → Host.Outcome State Fault Refusal
  | .result =>
    match s.readResult with
    | some _ => .next s
    | none => .fault .resultHoldsNoValue
  | .status | .cause | .resultValid => .next s

end Sys2Proof.Machine
end

