-- ==== Sys2Proof/Machine/Float.lean ====
section
/-! DEFINITION. The IEEE-754 bit packer / unpacker (42_float R97 to R108), and comparisons of
floating-point values (00_scope R10, R11). Values are exact: a finite value is held as the integer
number of units of 2^-1074, the smallest binary64 subnormal, of which every binary32 and binary64 value
is a whole multiple (log 19). -/

namespace Sys2Proof.Machine

/-- A value of the extended reals or NaN (00_scope R10). A finite value is counted in units of 2^-1074.
The sign of a zero is kept beside the value (42_float R98). -/
inductive FP where
  | nan
  | inf (neg : Bool)
  | fin (units : Int)
  deriving DecidableEq, Repr

/-- A unit is 2^-1074: the value 1 is 2^1074 units (log 19). -/
def unitExp : Nat := 1074

/-- An integer as a value. -/
def FP.ofInt (r : Int) : FP := .fin (r * 2 ^ unitExp)

/-- `a <= b`; false when either is NaN (00_scope R11). -/
def FP.le : FP → FP → Bool
  | .nan, _ | _, .nan => false
  | .inf true, _ | _, .inf false => true
  | .inf false, _ | _, .inf true => false
  | .fin a, .fin b => a ≤ b

/-- `a == b`; false when either is NaN (00_scope R11). -/
def FP.eq : FP → FP → Bool
  | .nan, _ | _, .nan => false
  | .inf a, .inf b => a == b
  | .fin a, .fin b => a == b
  | .inf _, .fin _ | .fin _, .inf _ => false

/-- `floor` (00_scope R10): the greatest integer not above; of ±∞ itself, of NaN NaN. -/
def FP.floor : FP → FP
  | .nan => .nan
  | .inf neg => .inf neg
  | .fin units => .ofInt (units / 2 ^ unitExp)

/-- The integer a value is. It is used only on a value that passed INTEGRAL and a range check, where it
is exact (40_unsigned R68; log 21). -/
def FP.toInteger : FP → Int
  | .fin units => units / 2 ^ unitExp
  | .nan | .inf _ => 0

/-- A format: the mantissa bits `mLen` and the total bytes `n` (42_float R97). -/
structure Format where
  mLen : Nat
  n    : Nat
  deriving DecidableEq, Repr

/-- Single: 23 mantissa bits, 4 bytes (42_float R97). -/
def single : Format := ⟨23, 4⟩

/-- Double: 52 mantissa bits, 8 bytes (42_float R97). -/
def double : Format := ⟨52, 8⟩

/-- eLen = 8n - mLen - 1 (42_float R97). -/
def Format.eLen (fmt : Format) : Nat := 8 * fmt.n - fmt.mLen - 1

/-- bias = 2^(eLen-1) - 1 (42_float R97). -/
def Format.bias (fmt : Format) : Nat := 2 ^ (fmt.eLen - 1) - 1

/-- emax = 2^eLen - 1 (42_float R101). -/
def Format.emax (fmt : Format) : Nat := 2 ^ fmt.eLen - 1

/-- The units of the format's smallest subnormal, 2^(1 - bias - mLen), as an exponent of 2. -/
def Format.ulpExp (fmt : Format) : Nat := unitExp + 1 - fmt.bias - fmt.mLen

/-- (-1)^s * m. -/
def withSign (s : Bool) (m : Nat) : Int := if s then -(m : Int) else m

/-- FPval(s, e, f, mLen, n) (42_float R101), in units of 2^-1074: a zero or subnormal is
f * 2^(1 - bias - mLen), a normal (2^mLen + f) * 2^(e - bias - mLen). -/
def fpVal (fmt : Format) (s : Bool) (e f : Nat) : FP :=
  if e = fmt.emax then (if f = 0 then .inf s else .nan)
  else if e = 0 then .fin (withSign s (f * 2 ^ fmt.ulpExp))
  else .fin (withSign s ((2 ^ fmt.mLen + f) * 2 ^ (e - 1 + fmt.ulpExp)))

/-- The sign bit W[8n-1] of an assembled word (42_float R100). -/
def Format.signOf (fmt : Format) (w : Nat) : Bool := w.testBit (8 * fmt.n - 1)

/-- The exponent field W[8n-2 : mLen] (42_float R100). -/
def Format.expOf (fmt : Format) (w : Nat) : Nat := w / 2 ^ fmt.mLen % 2 ^ fmt.eLen

/-- The fraction field W[mLen-1 : 0] (42_float R100). -/
def Format.fracOf (fmt : Format) (w : Nat) : Nat := w % 2 ^ fmt.mLen

/-- The value of an assembled word: its three fields taken apart (42_float R100). -/
def Format.valueOf (fmt : Format) (w : Nat) : FP :=
  fpVal fmt (fmt.signOf w) (fmt.expOf w) (fmt.fracOf w)

/-- f64val(w) (42_float R98). -/
def f64val (w : Word64) : FP := double.valueOf w.toNat

/-- sign(w) = w[63] (42_float R98). -/
def f64sign (w : Word64) : Bool := w.getLsbD 63

/-- The exponent and fraction bits of the greatest magnitude of the format that is not above `m` units
of the format's smallest subnormal; exact when the format holds `m` (42_float R99, R107). -/
def magnitudeBits (mLen m : Nat) : Nat :=
  if m < 2 ^ mLen then m
  else (m.log2 + 1 - mLen) * 2 ^ mLen + (m / 2 ^ (m.log2 - mLen) - 2 ^ mLen)

/-- The magnitude of exponent and fraction bits, in units of the format's smallest subnormal
(42_float R101 without sign and infinities). -/
def bitsMagnitude (mLen bits : Nat) : Nat :=
  if bits / 2 ^ mLen = 0 then bits % 2 ^ mLen
  else (2 ^ mLen + bits % 2 ^ mLen) * 2 ^ (bits / 2 ^ mLen - 1)

/-- The sign bit of the word of a value: that of the value, or the sign given for a zero (42_float R99,
R107). -/
def signBitOf (units : Int) (sgn : Bool) : Bool := if units = 0 then sgn else decide (units < 0)

/-- The word of a finite value in the format (42_float R99, R107). -/
def Format.wordOf (fmt : Format) (units : Int) (sgn : Bool) : Nat :=
  (signBitOf units sgn).toNat * 2 ^ (8 * fmt.n - 1)
    + magnitudeBits fmt.mLen (units.natAbs / 2 ^ fmt.ulpExp)

/-- f64word of a value whose zero has the sign `sgn` (42_float R99); NaN has no single word. -/
def f64word (x : FP) (sgn : Bool) : Option Word64 :=
  match x with
  | .nan => none
  | .inf neg => some (BitVec.ofNat 64 (neg.toNat * 2 ^ 63 + double.emax * 2 ^ 52))
  | .fin units => some (BitVec.ofNat 64 (double.wordOf units sgn))

/-- f64word of an integer; 0 gives +0 (42_float R99). -/
def intWord (r : Int) : Word64 := BitVec.ofNat 64 (double.wordOf (r * 2 ^ unitExp) false)

/-- f32word(y, sgn) of a binary32 value (42_float R107). -/
def f32word (units : Int) (sgn : Bool) : Word32 := BitVec.ofNat 32 (single.wordOf units sgn)

/-- Whether a word is a binary64 NaN: exponent all ones, fraction not zero (42_float R102). -/
def isNaN64 (w : Word64) : Bool :=
  double.expOf w.toNat == double.emax && double.fracOf w.toNat != 0

/-- The NaN word made of drawn bits: their sign, the exponent all ones, and their fraction, or 1 if that
is zero. Every NaN word is one of these (42_float R102; log 8). -/
def toNaN (bits : Word64) : Word64 :=
  let frac := double.fracOf bits.toNat
  BitVec.ofNat 64
    ((f64sign bits).toNat * 2 ^ 63 + (double.emax * 2 ^ 52 + (if frac = 0 then 1 else frac)))

/-- NAN_DRAW (42_float R102). -/
def nanDraw (k : Nat) : Word64 := toNaN (Config.nanDraw k)

/-- Unpack(bytes, mLen, n, be) (42_float R100). -/
def unpack (fmt : Format) (bytes : List Byte) (be : Bool) : FP := fmt.valueOf (assemble bytes be)

/-- The sign bit of the unpacked bytes, kept beside the value (42_float R98, R104). -/
def unpackSign (fmt : Format) (bytes : List Byte) (be : Bool) : Bool :=
  fmt.signOf (assemble bytes be)

/-- ROUND32 with a given choice between two neighbours (42_float R108), in units of 2^-1074: exact on a
binary32 value, else the neighbour towards zero, or away from zero when `away` says so. -/
def round32With (away : Int → Bool) (units : Int) : Int :=
  let lo := magnitudeBits single.mLen (units.natAbs / 2 ^ single.ulpExp)
  let down := bitsMagnitude single.mLen lo * 2 ^ single.ulpExp
  let up := bitsMagnitude single.mLen (lo + 1) * 2 ^ single.ulpExp
  withSign (decide (units < 0)) (if down = units.natAbs then down else if away units then up else down)

/-- The parameter ROUND32 (00_scope R8, 42_float R108): every function R108 permits is one of these
(log 9). -/
def round32 (units : Int) : Int := round32With Config.roundAway units

/-- The spec's default for ROUND32, round-to-nearest, ties-to-even (42_float R108), as a choice between
the neighbours: the model's instructions use `Config.roundAway`, of which this is one possible value. -/
def nearestEven (units : Int) : Bool :=
  let lo := magnitudeBits single.mLen (units.natAbs / 2 ^ single.ulpExp)
  let down := bitsMagnitude single.mLen lo * 2 ^ single.ulpExp
  let up := bitsMagnitude single.mLen (lo + 1) * 2 ^ single.ulpExp
  decide (down + up < 2 * units.natAbs) || (decide (down + up = 2 * units.natAbs) && lo % 2 == 1)

/-- The 32-bit word packed for a VALUE word, with the rounding as an argument (42_float R105). -/
def pack32With (round : Int → Int) (value : Word64) : Word32 :=
  match f64val value with
  | .fin units => f32word (round units) (f64sign value)
  | .nan | .inf _ => f32word 0 (f64sign value)

/-- Pack(VALUE, mLen, n, be) (42_float R105): a double is the VALUE word itself (42_float R106), a single
f32word(ROUND32(f64val(VALUE)), VALUE[63]). Used only after the checks: VALUE is finite (log 21). -/
def pack (fmt : Format) (value : Word64) (be : Bool) : List Byte :=
  if fmt = double then disassemble value.toNat fmt.n be
  else disassemble (pack32With round32 value).toNat fmt.n be

end Sys2Proof.Machine
end

