-- ==== Sys2Proof/Machine/Operands.lean ====
section
/-! DEFINITION. Operand assembly (30_encoding R59): the two operands of a transaction, taken from the
input ports. There are no immediates, no operand fields and no registers (10_state R19). -/

namespace Sys2Proof.Machine

/-- `o = zext_AW(OFFSET)` (30_encoding R59). -/
abbrev State.offset (s : State) : Nat := s.inputs.offset

/-- `v = f64val(VALUE)` (30_encoding R59). -/
abbrev State.value (s : State) : FP := f64val s.inputs.value

/-- The integer of VALUE, for an integer write whose checks passed (40_unsigned R68, 41_signed R85). -/
def State.integerValue (s : State) : Int := s.value.toInteger

/-- MemRead at the offset (20_memory R37). -/
def State.operandBytes (s : State) (w : Nat) : List Byte := s.buf.readBytes s.offset w

end Sys2Proof.Machine
end

