-- ==== Sys2Proof/Machine/Flags.lean ====
section
/-! DEFINITION. BOC's only flags are STATUS, CAUSE and RESULT_VALID (10_state R25): the checks that
decide them (43_validation R122 to R128), the failing set (43_validation R129), the draw of the reported
cause (60_exceptions R138), and what enforce and skip mode do with a failing set (43_validation R130,
R131). -/

namespace Sys2Proof.Machine

/-- FLT_MAX_BOUND = (2 - 2^-23) * 2^127 in units of 2^-1074 (00_scope R8, 43_validation R127). -/
def fltMaxBound : Int := (2 ^ 24 - 1) * 2 ^ (104 + unitExp)

/-- DBL_MAX_BOUND = (2 - 2^-52) * 2^1023 in units of 2^-1074 (00_scope R8, 43_validation R127). -/
def dblMaxBound : Int := (2 ^ 53 - 1) * 2 ^ (971 + unitExp)

/-- The magnitude bound B of a format (43_validation R127). -/
def maxBound (fmt : Format) : Int := if fmt = double then dblMaxBound else fltMaxBound

/-- The largest unsigned value of a width, 2^(8w) - 1 (00_scope R13). -/
def maxUnsigned (w : Nat) : Int := 2 ^ (8 * w) - 1

/-- The least signed value of a width, -2^(8w-1) (43_validation R125). -/
def minSigned (w : Nat) : Int := -2 ^ (8 * w - 1)

/-- The greatest signed value of a width, 2^(8w-1) - 1 (43_validation R125). -/
def maxSigned (w : Nat) : Int := 2 ^ (8 * w - 1) - 1

/-- The checks (43_validation R122 to R128). -/
inductive Check where
  | offsetPresent
  | inBounds (w : Nat)
  | valuePresent
  | urange (w : Nat)
  | srange (w : Nat)
  | integral
  | frange (fmt : Format)
  | byteOrderPresent
  deriving DecidableEq, Repr

/-- `lo <= v <= hi`; false when v is NaN (00_scope R11). -/
def FP.within (v lo hi : FP) : Bool := lo.le v && v.le hi

/-- When a check fails (43_validation R122 to R128). The bounds check is on natural numbers and does not
wrap (43_validation R123); BYTE_ORDER_PRESENT never fails (43_validation R128). -/
def Check.fails (c : Check) (s : State) : Bool :=
  match c with
  | .offsetPresent => !s.inputs.offsetValid
  | .inBounds w => s.inputs.offsetValid && decide (s.bufLen < s.offset + w)
  | .valuePresent => !s.inputs.valueValid
  | .urange w => s.inputs.valueValid && !s.value.within (.ofInt 0) (.ofInt (maxUnsigned w))
  | .srange w => s.inputs.valueValid && !s.value.within (.ofInt (minSigned w)) (.ofInt (maxSigned w))
  | .integral => s.inputs.valueValid && !s.value.eq s.value.floor
  | .frange fmt => s.inputs.valueValid && !s.value.within (.fin (-maxBound fmt)) (.fin (maxBound fmt))
  | .byteOrderPresent => false

/-- The cause of a check (43_validation R122 to R128). -/
def Check.cause : Check → Cause
  | .offsetPresent => .missingOffset
  | .inBounds _ => .outOfBounds
  | .valuePresent => .missingValue
  | .urange _ | .srange _ | .frange _ => .valueRange
  | .integral => .notIntegral
  | .byteOrderPresent => .missingByteOrder

/-- FailingSet (43_validation R129): the causes of the checks that fail. -/
def failingSet (checks : List Check) (s : State) : List Cause :=
  (checks.filter (fun c => c.fails s)).map Check.cause

/-- One member of a failing set, chosen by a draw (60_exceptions R138): the first when there is only
one; a draw of k takes the k-th, or the last when there are not so many. -/
def chooseCause (first : Cause) (rest : List Cause) (draw : Nat) : Cause :=
  match rest with
  | [] => first
  | next :: rest =>
    match draw with
    | 0 => first
    | draw + 1 => chooseCause next rest draw

/-- Enforce and skip mode (43_validation R130, R131, 30_encoding R63): with an empty failing set the
instruction is performed; otherwise enforce mode raises InvariantViolation with a drawn cause, and skip
mode is UNSPECIFIED. -/
def checked (checks : List Check) (skip : Bool) (perform : State → State) (s : State) :
    Host.Outcome State Fault Refusal :=
  match failingSet checks s with
  | [] => .next (perform s)
  | first :: rest =>
    if skip then .fault (.unspecified .skippedCheckFails)
    else .next (s.raiseInvariantViolation (chooseCause first rest (Config.causeDraw s.draws)))

/-- BYTE_ORDER_PRESENT, which every instruction but the 1-byte ones makes (43_validation R128, R129). -/
def byteOrderChecks (w : Nat) : List Check := if w = 1 then [] else [.byteOrderPresent]

/-- The checks of a read of `w` bytes (43_validation R129). -/
def readChecks (w : Nat) : List Check := [.offsetPresent, .inBounds w] ++ byteOrderChecks w

/-- The checks of an unsigned write of `w` bytes (43_validation R129). -/
def unsignedWriteChecks (w : Nat) : List Check :=
  [.valuePresent, .urange w, .integral, .offsetPresent, .inBounds w] ++ byteOrderChecks w

/-- The checks of a signed write of `w` bytes (43_validation R129). -/
def signedWriteChecks (w : Nat) : List Check :=
  [.valuePresent, .srange w, .integral, .offsetPresent, .inBounds w] ++ byteOrderChecks w

/-- The checks of a float write (43_validation R129). -/
def floatWriteChecks (fmt : Format) : List Check :=
  [.valuePresent, .byteOrderPresent, .frange fmt, .offsetPresent, .inBounds fmt.n]

end Sys2Proof.Machine
end

