-- ==== Sys2Proof/Machine/FloatCodec.lean ====
section
/-! DEFINITION. The floating-point codec (42_float): the templates R109 and R110, and a meaning for
each of its eight instructions. -/

namespace Sys2Proof.Machine

/-- The word a float read puts on RESULT (42_float R109): NAN_DRAW for a NaN (42_float R102), else
f64word of the value, exactly and with the sign of a zero (42_float R103, R104). -/
def floatResult (fmt : Format) (bytes : List Byte) (be : Bool) (draw : Nat) : Word64 :=
  match f64word (unpack fmt bytes be) (unpackSign fmt bytes be) with
  | some word => word
  | none => nanDraw draw

/-- FREAD(n, be) (42_float R109). -/
def fread (fmt : Format) (be skip : Bool) (s : State) : Host.Outcome State Fault Refusal :=
  checked (readChecks fmt.n) skip
    (fun s => s.completeRead (floatResult fmt (s.operandBytes fmt.n) be s.draws)) s

/-- FWRITE(n, be) (42_float R110): no integrality check. -/
def fwrite (fmt : Format) (be skip : Bool) (s : State) : Host.Outcome State Fault Refusal :=
  checked (floatWriteChecks fmt) skip
    (fun s => s.completeWrite (pack fmt s.inputs.value be)) s

/-- readFloatLE (42_float R111): `FREAD(4, 0)`. -/
def execReadFloatLE (skip : Bool) (s : State) : Host.Outcome State Fault Refusal :=
  fread single false skip s

/-- readFloatBE (42_float R112): `FREAD(4, 1)`. -/
def execReadFloatBE (skip : Bool) (s : State) : Host.Outcome State Fault Refusal :=
  fread single true skip s

/-- readDoubleLE (42_float R113): `FREAD(8, 0)`. -/
def execReadDoubleLE (skip : Bool) (s : State) : Host.Outcome State Fault Refusal :=
  fread double false skip s

/-- readDoubleBE (42_float R114): `FREAD(8, 1)`. -/
def execReadDoubleBE (skip : Bool) (s : State) : Host.Outcome State Fault Refusal :=
  fread double true skip s

/-- writeFloatLE (42_float R115): `FWRITE(4, 0)`. -/
def execWriteFloatLE (skip : Bool) (s : State) : Host.Outcome State Fault Refusal :=
  fwrite single false skip s

/-- writeFloatBE (42_float R116): `FWRITE(4, 1)`. -/
def execWriteFloatBE (skip : Bool) (s : State) : Host.Outcome State Fault Refusal :=
  fwrite single true skip s

/-- writeDoubleLE (42_float R117): `FWRITE(8, 0)`. -/
def execWriteDoubleLE (skip : Bool) (s : State) : Host.Outcome State Fault Refusal :=
  fwrite double false skip s

/-- writeDoubleBE (42_float R118): `FWRITE(8, 1)`. -/
def execWriteDoubleBE (skip : Bool) (s : State) : Host.Outcome State Fault Refusal :=
  fwrite double true skip s

end Sys2Proof.Machine
end

