-- ==== Sys2Proof/Machine/Signed.lean ====
section
/-! DEFINITION. The signed integer codec (41_signed): the two's-complement unit, R81 and R82, the
templates R84 and R85, and a meaning for each of its ten instructions. -/

namespace Sys2Proof.Machine

/-- u2s(u, w), sign-extend (41_signed R81): arithmetic at the field width (41_signed R83). -/
def u2s (u w : Nat) : Int := if u < 2 ^ (8 * w - 1) then u else (maxUnsigned w - u + 1) * -1

/-- s2u(s, w), narrow (41_signed R82): arithmetic at the field width (41_signed R83). -/
def s2u (r : Int) (w : Nat) : Nat := if 0 ≤ r then r.toNat else (maxUnsigned w + r + 1).toNat

/-- SREAD(w, be) (41_signed R84). -/
def sread (w : Nat) (be skip : Bool) (s : State) : Host.Outcome State Fault Refusal :=
  checked (readChecks w) skip
    (fun s => s.completeRead (intWord (u2s (assemble (s.operandBytes w) be) w))) s

/-- SWRITE(w, be) (41_signed R85): the checks are made once, against the signed domain. -/
def swrite (w : Nat) (be skip : Bool) (s : State) : Host.Outcome State Fault Refusal :=
  checked (signedWriteChecks w) skip
    (fun s => s.completeWrite (disassemble (s2u s.integerValue w) w be)) s

/-- readInt8 (41_signed R86): `SREAD(1, -)`; BE is ignored. -/
def execReadInt8 (_x skip : Bool) (s : State) : Host.Outcome State Fault Refusal :=
  sread 1 false skip s

/-- readInt16LE (41_signed R87): `SREAD(2, 0)`. -/
def execReadInt16LE (skip : Bool) (s : State) : Host.Outcome State Fault Refusal :=
  sread 2 false skip s

/-- readInt16BE (41_signed R88): `SREAD(2, 1)`. -/
def execReadInt16BE (skip : Bool) (s : State) : Host.Outcome State Fault Refusal :=
  sread 2 true skip s

/-- readInt32LE (41_signed R89): `SREAD(4, 0)`. -/
def execReadInt32LE (skip : Bool) (s : State) : Host.Outcome State Fault Refusal :=
  sread 4 false skip s

/-- readInt32BE (41_signed R90): `SREAD(4, 1)`. -/
def execReadInt32BE (skip : Bool) (s : State) : Host.Outcome State Fault Refusal :=
  sread 4 true skip s

/-- writeInt8 (41_signed R91): `SWRITE(1, -)`; BE is ignored. -/
def execWriteInt8 (_x skip : Bool) (s : State) : Host.Outcome State Fault Refusal :=
  swrite 1 false skip s

/-- writeInt16LE (41_signed R92): `SWRITE(2, 0)`. -/
def execWriteInt16LE (skip : Bool) (s : State) : Host.Outcome State Fault Refusal :=
  swrite 2 false skip s

/-- writeInt16BE (41_signed R93): `SWRITE(2, 1)`. -/
def execWriteInt16BE (skip : Bool) (s : State) : Host.Outcome State Fault Refusal :=
  swrite 2 true skip s

/-- writeInt32LE (41_signed R94): `SWRITE(4, 0)`. -/
def execWriteInt32LE (skip : Bool) (s : State) : Host.Outcome State Fault Refusal :=
  swrite 4 false skip s

/-- writeInt32BE (41_signed R95): `SWRITE(4, 1)`. -/
def execWriteInt32BE (skip : Bool) (s : State) : Host.Outcome State Fault Refusal :=
  swrite 4 true skip s

end Sys2Proof.Machine
end

