-- ==== Sys2Proof/Machine/Unsigned.lean ====
section
/-! DEFINITION. The unsigned integer codec (40_unsigned): two templates, R67 and R68, and a meaning
for each of its ten instructions. -/

namespace Sys2Proof.Machine

/-- UREAD(w, be) (40_unsigned R67): the sum is formed on natural numbers, so it is never negative and
never wraps (40_unsigned R79). -/
def uread (w : Nat) (be skip : Bool) (s : State) : Host.Outcome State Fault Refusal :=
  checked (readChecks w) skip
    (fun s => s.completeRead (intWord (assemble (s.operandBytes w) be))) s

/-- UWRITE(w, be) (40_unsigned R68). -/
def uwrite (w : Nat) (be skip : Bool) (s : State) : Host.Outcome State Fault Refusal :=
  checked (unsignedWriteChecks w) skip
    (fun s => s.completeWrite (disassemble s.integerValue.toNat w be)) s

/-- readUInt8 (40_unsigned R69): `UREAD(1, -)`; BE is ignored. -/
def execReadUInt8 (_x skip : Bool) (s : State) : Host.Outcome State Fault Refusal :=
  uread 1 false skip s

/-- readUInt16LE (40_unsigned R70): `UREAD(2, 0)`. -/
def execReadUInt16LE (skip : Bool) (s : State) : Host.Outcome State Fault Refusal :=
  uread 2 false skip s

/-- readUInt16BE (40_unsigned R71): `UREAD(2, 1)`. -/
def execReadUInt16BE (skip : Bool) (s : State) : Host.Outcome State Fault Refusal :=
  uread 2 true skip s

/-- readUInt32LE (40_unsigned R72): `UREAD(4, 0)`. -/
def execReadUInt32LE (skip : Bool) (s : State) : Host.Outcome State Fault Refusal :=
  uread 4 false skip s

/-- readUInt32BE (40_unsigned R73): `UREAD(4, 1)`. -/
def execReadUInt32BE (skip : Bool) (s : State) : Host.Outcome State Fault Refusal :=
  uread 4 true skip s

/-- writeUInt8 (40_unsigned R74): `UWRITE(1, -)`; BE is ignored. -/
def execWriteUInt8 (_x skip : Bool) (s : State) : Host.Outcome State Fault Refusal :=
  uwrite 1 false skip s

/-- writeUInt16LE (40_unsigned R75): `UWRITE(2, 0)`. -/
def execWriteUInt16LE (skip : Bool) (s : State) : Host.Outcome State Fault Refusal :=
  uwrite 2 false skip s

/-- writeUInt16BE (40_unsigned R76): `UWRITE(2, 1)`. -/
def execWriteUInt16BE (skip : Bool) (s : State) : Host.Outcome State Fault Refusal :=
  uwrite 2 true skip s

/-- writeUInt32LE (40_unsigned R77): `UWRITE(4, 0)`. -/
def execWriteUInt32LE (skip : Bool) (s : State) : Host.Outcome State Fault Refusal :=
  uwrite 4 false skip s

/-- writeUInt32BE (40_unsigned R78): `UWRITE(4, 1)`. -/
def execWriteUInt32BE (skip : Bool) (s : State) : Host.Outcome State Fault Refusal :=
  uwrite 4 true skip s

end Sys2Proof.Machine
end

