-- ==== Sys2Proof/Machine/Dispatch.lean ====
section
/-! DEFINITION. One arm for each instruction: Perform(op) with the checks around it (30_encoding R63). -/

namespace Sys2Proof.Machine

def exec (i : Instr) (s : State) : Host.Outcome State Fault Refusal :=
  match i with
  | .readUInt8 x skip => Sys2Proof.Machine.execReadUInt8 x skip s
  | .readUInt16LE skip => Sys2Proof.Machine.execReadUInt16LE skip s
  | .readUInt16BE skip => Sys2Proof.Machine.execReadUInt16BE skip s
  | .readUInt32LE skip => Sys2Proof.Machine.execReadUInt32LE skip s
  | .readUInt32BE skip => Sys2Proof.Machine.execReadUInt32BE skip s
  | .readInt8 x skip => Sys2Proof.Machine.execReadInt8 x skip s
  | .readInt16LE skip => Sys2Proof.Machine.execReadInt16LE skip s
  | .readInt16BE skip => Sys2Proof.Machine.execReadInt16BE skip s
  | .readInt32LE skip => Sys2Proof.Machine.execReadInt32LE skip s
  | .readInt32BE skip => Sys2Proof.Machine.execReadInt32BE skip s
  | .readFloatLE skip => Sys2Proof.Machine.execReadFloatLE skip s
  | .readFloatBE skip => Sys2Proof.Machine.execReadFloatBE skip s
  | .readDoubleLE skip => Sys2Proof.Machine.execReadDoubleLE skip s
  | .readDoubleBE skip => Sys2Proof.Machine.execReadDoubleBE skip s
  | .writeUInt8 x skip => Sys2Proof.Machine.execWriteUInt8 x skip s
  | .writeUInt16LE skip => Sys2Proof.Machine.execWriteUInt16LE skip s
  | .writeUInt16BE skip => Sys2Proof.Machine.execWriteUInt16BE skip s
  | .writeUInt32LE skip => Sys2Proof.Machine.execWriteUInt32LE skip s
  | .writeUInt32BE skip => Sys2Proof.Machine.execWriteUInt32BE skip s
  | .writeInt8 x skip => Sys2Proof.Machine.execWriteInt8 x skip s
  | .writeInt16LE skip => Sys2Proof.Machine.execWriteInt16LE skip s
  | .writeInt16BE skip => Sys2Proof.Machine.execWriteInt16BE skip s
  | .writeInt32LE skip => Sys2Proof.Machine.execWriteInt32LE skip s
  | .writeInt32BE skip => Sys2Proof.Machine.execWriteInt32BE skip s
  | .writeFloatLE skip => Sys2Proof.Machine.execWriteFloatLE skip s
  | .writeFloatBE skip => Sys2Proof.Machine.execWriteFloatBE skip s
  | .writeDoubleLE skip => Sys2Proof.Machine.execWriteDoubleLE skip s
  | .writeDoubleBE skip => Sys2Proof.Machine.execWriteDoubleBE skip s

end Sys2Proof.Machine
end

