-- ==== Sys2Proof/Machine/Transaction.lean ====
section
/-! DEFINITION. One transaction (30_encoding R63), a transaction beside which the buffer is accessed by
someone else (20_memory R48, 70_reset R156), and what each event of the host does. -/

namespace Sys2Proof.Machine

/-- One transaction (30_encoding R63): decode CMD; a reserved word ends with ILLEGAL_COMMAND, whatever
SKIP is, before any check (30_encoding R61, 60_exceptions R136); else the instruction runs. -/
def transaction (s : State) : Host.Outcome State Fault Refusal :=
  match decode s.inputs.cmd with
  | .instr i => exec i s
  | .illegal _ => .next s.raiseIllegalCommand

/-- The bytes of a field, 2^WSEL (30_encoding R56). -/
def fieldWidth : Wsel → Nat
  | .w1 => 1
  | .w2 => 2
  | .w4 => 4
  | .w8 => 8

/-- The span of a transaction (20_memory R36), as its first address and its width: that of a legal
command whose offset is present (log 13). -/
def span (s : State) : Option (Nat × Nat) :=
  match decode s.inputs.cmd with
  | .instr i => if s.inputs.offsetValid then some (s.offset, fieldWidth i.fields.wsel) else none
  | .illegal _ => none

/-- Whether `m` addresses from `lo` on and `n` addresses from `a` on have one in common. -/
def overlaps (lo m a n : Nat) : Bool := max lo a < min (lo + m) (a + n)

/-- Whether a transaction's command is a write (30_encoding R54). -/
def isWrite (s : State) : Bool :=
  match decode s.inputs.cmd with
  | .instr i => i.fields.dir == .write
  | .illegal _ => false

/-- Whether a transaction writes its span: its command is a write and it completes (30_encoding R63). -/
def writesSpan (s : State) : Bool :=
  match transaction s with
  | .next t => isWrite s && t.status == Status.ok.code
  | .fault _ | .refused _ => false

/-- Whether an access meets a transaction's span in at least one byte. -/
def meetsSpan (s : State) (lo len : Nat) : Bool :=
  match span s with
  | some (o, w) => overlaps lo len o w
  | none => false

/-- Whether an access beside a transaction races with it (20_memory R48, 70_reset R156): the host writes
any byte of BUF; another agent writes a byte of the span; or a byte that the transaction writes is read
(log 13). -/
def races (s : State) (who : Agent) (access : Access) : Bool :=
  match access with
  | .write lo bytes => (who == .host && !bytes.isEmpty) || meetsSpan s lo bytes.length
  | .read lo len => writesSpan s && meetsSpan s lo len

/-- A transaction beside which the buffer is accessed (20_memory R48): a race is UNSPECIFIED; otherwise
the two are performed in some order, which cannot matter, here the transaction first (log 14). -/
def transactionBeside (s : State) (who : Agent) (access : Access) :
    Host.Outcome State Fault Refusal :=
  if races s who access then .fault (.unspecified .dataRace)
  else
    match transaction s with
    | .next t =>
      match access with
      | .read _ _ => .next t
      | .write lo bytes => t.outsideWrite lo bytes
    | .fault r => .fault r
    | .refused r => .refused r

/-- What one event of the host does (log 11). -/
def handleEvent (e : HostEvent) (s : State) : Host.Outcome State Fault Refusal :=
  match e with
  | .issue p => transaction (s.drive p)
  | .attach bytes => .next (s.attach bytes)
  | .hostWrite a v => s.outsideWrite a [v]
  | .readPort port => s.hostReads port
  | .reset => .next s.resetOutputs
  | .issueBeside p who access => transactionBeside (s.drive p) who access
  | .resetDuring p => .next (s.drive p).abandon
  | .inputsChangedDuring _ => .fault (.unspecified .inputsChanged)

/-- Take the host's next event; with none, BOC waits (70_reset R153). -/
def takeEvent (s : State) : Host.Outcome State Fault Refusal :=
  match s.events with
  | [] => .next s
  | e :: rest => handleEvent e { s with events := rest }

/-- The host issues one more command, before its other events, with the operand ports as they are. -/
def State.issueCommand (s : State) (cmd : Command) : State :=
  { s with events := .issue { s.inputs with cmd := cmd } :: s.events }

end Sys2Proof.Machine
end

