-- ==== Sys2Proof/Machine/Step.lean ====
section
/-! DEFINITION. One step: the host's next event, in most runs a transaction, which is one step
(70_reset R161, R162). -/

namespace Sys2Proof.Machine

/-- One step of the machine. -/
def step (s : State) : Host.Outcome State Fault Refusal := Sys2Proof.Machine.takeEvent s

/-- The state in which the next step runs a given command word: BOC fetches nothing (10_state R20), so
the host issues the word next, with the operand ports as they are (log 11). -/
def State.withFetchWord (s : State) (_nbits w : Nat) : State :=
  s.issueCommand (BitVec.ofNat 8 w)

end Sys2Proof.Machine
end

