-- ==== Sys2Proof/Machine/Assembler.lean ====
section
/-! DEFINITION. The assembler (30_encoding R62, R64): the parts of a line of assembly, and what input ports
they stand for. -/

namespace Sys2Proof.Machine

/-- A `<value>`: missing (`_`), or a decimal, hex or floating-point literal ±digits * 10^exp10
(30_encoding R62). A hex literal is its digits' number with exponent 0. `inf` and `nan` are the spellings of
95_test_vectors (log 16). -/
inductive Literal where
  | missing
  | number (neg : Bool) (digits : Nat) (exp10 : Int)
  | infinity (neg : Bool)
  | nan
  deriving DecidableEq, Repr

/-- The number type of a generic form (30_encoding R64). -/
inductive NumberType where
  | uint (w : Nat)
  | int (w : Nat)
  | single
  | double
  deriving DecidableEq, Repr

/-- The operation of a line: a §6 mnemonic (30_encoding R62), or a generic form of §4 with its width or
precision and its byte order (30_encoding R64). -/
inductive AsmOp where
  | mnemonic (name : String)
  | generic (dir : Dir) (type : NumberType) (be : Bool)
  deriving DecidableEq, Repr

/-- One line (30_encoding R62): a read has no value; `none` is the missing offset `_`. -/
structure AsmLine where
  op       : AsmOp
  value    : Literal
  offset   : Option Nat
  noAssert : Bool
  deriving DecidableEq, Repr

/-- The magnitude bits of the binary64 value nearest to num / den (30_encoding R62); ties go to the even
one (log 16), and what rounds to 2^1024 or more is infinity (90_conflicts C1). -/
def nearestDoubleBits (num den : Nat) : Nat :=
  let lo := magnitudeBits double.mLen (num * 2 ^ unitExp / den)
  let middle := bitsMagnitude double.mLen lo + bitsMagnitude double.mLen (lo + 1)
  let twice := 2 * num * 2 ^ unitExp
  let up := decide (middle * den < twice) || (decide (middle * den = twice) && lo % 2 == 1)
  min (if up then lo + 1 else lo) (double.emax * 2 ^ double.mLen)

/-- The VALUE word of a literal; none when the value is missing (30_encoding R62). -/
def Literal.word : Literal → Option Word64
  | .missing => none
  | .infinity neg => some (BitVec.ofNat 64 (neg.toNat * 2 ^ 63 + double.emax * 2 ^ 52))
  | .nan => some 0x7FF8000000000000
  | .number neg digits exp10 =>
    let num := digits * 10 ^ exp10.toNat
    let den := 10 ^ (-exp10).toNat
    some (BitVec.ofNat 64 (neg.toNat * 2 ^ 63 + nearestDoubleBits num den))

/-- WSEL of an integer's width in bytes; other widths do not assemble (30_encoding R64). -/
def integerWsel : Nat → Option Wsel
  | 1 => some .w1
  | 2 => some .w2
  | 4 => some .w4
  | _ => none

/-- The command of an operation; BE is 0 for a 1-byte form (30_encoding R62), and an unknown mnemonic,
width or precision does not assemble. -/
def AsmOp.command (op : AsmOp) (noAssert : Bool) : Option Command :=
  match op with
  | .mnemonic name =>
    (opcodeRows.find? (fun r => r.mnemonic == name)).map
      (fun r => { Fields.ofWord r.pattern with skip := noAssert }.word)
  | .generic dir (.uint w) be =>
    (integerWsel w).map
      (fun k => { dir := dir, kind := .uint, wsel := k, be := be && w != 1, skip := noAssert, rsv := false : Fields }.word)
  | .generic dir (.int w) be =>
    (integerWsel w).map
      (fun k => { dir := dir, kind := .int, wsel := k, be := be && w != 1, skip := noAssert, rsv := false : Fields }.word)
  | .generic dir .single be =>
    some { dir := dir, kind := .float, wsel := .w4, be := be, skip := noAssert, rsv := false : Fields }.word
  | .generic dir .double be =>
    some { dir := dir, kind := .float, wsel := .w8, be := be, skip := noAssert, rsv := false : Fields }.word

/-- The input ports a line stands for (30_encoding R62); a missing operand clears its valid bit. DESIGN
CHOICE (log 23): a missing offset drives 0 on OFFSET, a missing value 0 on VALUE, and a read, which has no
value, 0 on VALUE and 0 on VALUE_VALID. The spec calls these contents meaningless or ignored (10_state R17,
R18) and does not say what the assembler drives. -/
def assembleLine (line : AsmLine) : Option Inputs :=
  (line.op.command line.noAssert).map fun cmd =>
    { cmd := cmd
      offset := line.offset.getD 0
      offsetValid := line.offset.isSome
      value := line.value.word.getD 0
      valueValid := line.value.word.isSome }

/-! ### The characters of a line (log 16) -/

/-- The value of a digit in a base. -/
def digitOf (base : Nat) (c : Char) : Option Nat :=
  let n := c.toNat
  let d :=
    if 48 ≤ n && n ≤ 57 then n - 48
    else if 97 ≤ n && n ≤ 102 then n - 87
    else if 65 ≤ n && n ≤ 70 then n - 55
    else base
  if d < base then some d else none

/-- The number of a string of digits after those already read. -/
def digitsFrom (base acc : Nat) : List Char → Option Nat
  | [] => some acc
  | c :: cs => (digitOf base c).bind fun d => digitsFrom base (base * acc + d) cs

/-- The number of at least one digit. -/
def numberOf (base : Nat) (cs : List Char) : Option Nat :=
  if cs.isEmpty then none else digitsFrom base 0 cs

/-- A non-negative decimal or hex integer (30_encoding R62). DESIGN CHOICE (log 16): hex digits follow 0x or 0X,
and no sign is accepted. -/
def naturalOf : List Char → Option Nat
  | '0' :: 'x' :: cs | '0' :: 'X' :: cs => numberOf 16 cs
  | cs => numberOf 10 cs

/-- A sign, and what follows it; DESIGN CHOICE (log 16): one leading - or +, or none. -/
def signOf : List Char → Bool × List Char
  | '-' :: cs => (true, cs)
  | '+' :: cs => (false, cs)
  | cs => (false, cs)

/-- The exponent of a floating-point literal: nothing, or `e` or `E` and a decimal number with an optional sign
(DESIGN CHOICE, log 16). -/
def exponentOf : List Char → Option Int
  | [] => some 0
  | _ :: cs =>
    let (neg, ds) := signOf cs
    (numberOf 10 ds).map fun n => if neg then -(n : Int) else n

/-- An unsigned decimal or floating-point literal, given the sign before it: digits, a fraction, an exponent.
DESIGN CHOICE (log 16): the digits on one side of the point may be missing. -/
def decimalOf (neg : Bool) (cs : List Char) : Option Literal :=
  let mantissa := cs.takeWhile fun c => c != 'e' && c != 'E'
  let whole := mantissa.takeWhile (· != '.')
  let fraction := (mantissa.dropWhile (· != '.')).drop 1
  (numberOf 10 (whole ++ fraction)).bind fun digits =>
    (exponentOf (cs.drop mantissa.length)).map fun e => .number neg digits (e - fraction.length)

/-- A `<value>` (30_encoding R62). DESIGN CHOICE (log 16), where R62 is silent: a decimal, floating-point or hex
literal and `inf` may carry one leading - or +, before the prefix of a hex literal, which is 0x or 0X; `nan`
carries none. -/
def literalOf (cs : List Char) : Option Literal :=
  if cs = ['_'] then some .missing
  else if cs = "nan".toList then some .nan
  else
    match signOf cs with
    | (neg, '0' :: 'x' :: ds) | (neg, '0' :: 'X' :: ds) => (numberOf 16 ds).map fun n => .number neg n 0
    | (neg, ds) => if ds = "inf".toList then some (.infinity neg) else decimalOf neg ds

/-- An `<offset>` (30_encoding R62): the inner none is the missing offset. -/
def offsetOf (cs : List Char) : Option (Option Nat) :=
  if cs = ['_'] then some none else (naturalOf cs).map some

/-- The third operand: nothing, or `noAssert` (30_encoding R62). -/
def noAssertOf : List (List Char) → Option Bool
  | [] => some false
  | [cs] => if cs = "noAssert".toList then some true else none
  | _ :: _ :: _ => none

/-- The operands of a line: a write's value comes before its offset (30_encoding R62). -/
def operandsOf (op : AsmOp) : Dir → List (List Char) → Option AsmLine
  | .read, offset :: more =>
    (offsetOf offset).bind fun o => (noAssertOf more).map fun k => ⟨op, .missing, o, k⟩
  | .write, value :: offset :: more =>
    (literalOf value).bind fun v =>
      (offsetOf offset).bind fun o => (noAssertOf more).map fun k => ⟨op, v, o, k⟩
  | .read, [] | .write, [] | .write, [_] => none

/-- The `<w>` or `<single/double>` of a generic form, and its direction (30_encoding R64). -/
def genericOf (name operand : List Char) : Option (Dir × NumberType) :=
  let float : Option NumberType :=
    if operand = "single".toList then some .single
    else if operand = "double".toList then some .double
    else none
  if name = "readUInt".toList then (naturalOf operand).map fun w => (.read, .uint w)
  else if name = "writeUInt".toList then (naturalOf operand).map fun w => (.write, .uint w)
  else if name = "readInt".toList then (naturalOf operand).map fun w => (.read, .int w)
  else if name = "writeInt".toList then (naturalOf operand).map fun w => (.write, .int w)
  else if name = "readFP".toList then float.map fun f => (.read, f)
  else if name = "writeFP".toList then float.map fun f => (.write, f)
  else none

/-- The `<be>` of a generic form: LE or BE (30_encoding R64). -/
def byteOrderOf (cs : List Char) : Option Bool :=
  if cs = "BE".toList then some true else if cs = "LE".toList then some false else none

/-- The operands between commas. -/
def splitAtCommas : List Char → List (List Char)
  | [] => [[]]
  | ',' :: cs => [] :: splitAtCommas cs
  | c :: cs =>
    match splitAtCommas cs with
    | [] => [[c]]
    | field :: fields => (c :: field) :: fields

/-- Without the blanks at both ends. -/
def trimmed (cs : List Char) : List Char :=
  ((cs.dropWhile (· == ' ')).reverse.dropWhile (· == ' ')).reverse

/-- The direction of a §6 mnemonic. -/
def mnemonicDir (name : List Char) : Option Dir :=
  (opcodeRows.find? (fun r => r.mnemonic.toList = name)).map fun r => (Fields.ofWord r.pattern).dir

/-- A line of assembly (30_encoding R62), or of a generic form (30_encoding R64); none when it is neither. -/
def parseLine (text : List Char) : Option AsmLine :=
  let line := trimmed text
  let name := line.takeWhile (· != ' ')
  let operands := (splitAtCommas (line.drop name.length)).map trimmed
  match mnemonicDir name, operands with
  | some dir, operands => operandsOf (.mnemonic (String.ofList name)) dir operands
  | none, size :: order :: more =>
    (genericOf name size).bind fun (dir, type) =>
      (byteOrderOf order).bind fun be => operandsOf (.generic dir type be) dir more
  | none, [] | none, [_] => none

/-- The input ports of a line's text; none when the line does not assemble. -/
def assembleText (text : String) : Option Inputs := (parseLine text.toList).bind assembleLine

end Sys2Proof.Machine
end

