-- ==== Sys2Proof/Safety.lean ====
section
/-! DEFINITION. What a well-formed state is, when an instruction's preconditions hold (70_reset R159),
and what a run of BOC is and shows (70_reset R163). -/

namespace Sys2Proof

open Machine

/-- What the host may do (00_scope R8, 10_state R17, 70_reset R154): the offsets it drives fit the OFFSET
port, and the buffers it attaches have at most 2^AW bytes. -/
def hostEventLegal : HostEvent → Prop
  | .issue p | .issueBeside p _ _ | .resetDuring p | .inputsChangedDuring p => p.offset < 2 ^ Config.AW
  | .attach bytes => bytes.length ≤ 2 ^ Config.AW
  | .hostWrite _ _ | .readPort _ | .reset => True

/-- The output ports hold codes the spec gives them: CAUSE is 0 unless STATUS = INVARIANT_VIOLATION,
where it is 1, 2, 4, 5 or 6 (10_state R22, 43_validation R128); RESULT_VALID only with STATUS = OK
(10_state R23). -/
def outputsLegal (s : State) : Prop :=
  (s.status = 0b10 → s.cause = 1 ∨ s.cause = 2 ∨ s.cause = 4 ∨ s.cause = 5 ∨ s.cause = 6)
    ∧ (s.status ≠ 0b10 → s.cause = 0)
    ∧ (s.resultValid = true → s.status = 0b01)

/-- The buffer is canonical data: rising addresses, no zero byte listed, every listed address within
BUF_LEN (10_state R24, 20_memory R34). -/
def bufferWf (s : State) : Prop := s.buf.wf ∧ ∀ p ∈ s.buf, p.1 < s.bufLen

/-- The well-formed states: the buffer and the outputs as above, OFFSET and BUF_LEN within AW (10_state
R17, 00_scope R8), and only legal events to come. -/
structure WellFormed (s : State) : Prop where
  buffer  : bufferWf s
  outputs : outputsLegal s
  offset  : s.inputs.offset < 2 ^ Config.AW
  bufLen  : s.bufLen ≤ 2 ^ Config.AW
  events  : ∀ e ∈ s.events, hostEventLegal e

/-- The span of `w` bytes at the offset lies within the buffer and the offset is present: what a host must
ensure of every transaction in skip mode (70_reset R159, 43_validation R122, R123). -/
def spanInBuffer (w : Nat) (s : State) : Prop :=
  s.inputs.offsetValid = true ∧ s.inputs.offset + w ≤ s.bufLen

/-- VALUE is present and is the integer `r` (43_validation R124, R126). -/
def valueIsInteger (s : State) (r : Int) : Prop :=
  s.inputs.valueValid = true ∧ f64val s.inputs.value = FP.ofInt r

/-- What the host sees of the output ports after a transaction (70_reset R163). -/
structure Observation where
  status      : BitVec 2
  cause       : BitVec 3
  resultValid : Bool
  result      : Option Word64
  deriving DecidableEq, Repr

/-- The observation of a state's output ports; RESULT only while it holds a value. -/
def observe (s : State) : Observation := ⟨s.status, s.cause, s.resultValid, s.readResult⟩

/-- A state as the end of a run: a run with a recorded UNSPECIFIED outcome has no defined end (60_exceptions
R137, 70_reset R163). -/
def endOfRun (s : State) : Host.Outcome State Fault Refusal :=
  match s.recorded with
  | none => .next s
  | some why => .fault (.unspecified why)

/-- A run (70_reset R163): what is seen after each of `k` steps, and where it ends. A run that reaches a
fault, or has an UNSPECIFIED outcome recorded, shows nothing after it. -/
def runObserved : Nat → State → List Observation × Host.Outcome State Fault Refusal
  | 0, s => ([], endOfRun s)
  | k + 1, s =>
    if s.recorded.isSome then ([], endOfRun s)
    else
      match step s with
      | .next t => let (seen, last) := runObserved k t; (observe t :: seen, last)
      | .fault r => ([], .fault r)
      | .refused r => ([], .refused r)

/-- A state from which no number of steps reaches a fault, a refusal or a recorded UNSPECIFIED outcome: no
transaction of the run is UNSPECIFIED (60_exceptions R137). -/
def Safe (s : State) : Prop := ∀ k, ∃ t, Sys2Proof.core.run k s = .next t ∧ t.recorded = none

end Sys2Proof
end

