-- ==== Sys2Proof/Certificates/Slice0/Obligations.lean ====
section
/-! DEFINITION. The statements for the provers: the rules of spec/ as propositions about the model. The
definitions under Sys2Proof.Claims say once what a completed read, a completed write and a rejected
transaction leave (the frame included); each instruction's statement then gives its own formula. -/

namespace Sys2Proof.Claims

open Sys2Proof.Machine

/-- BUF[o + k] as a number: the k-th byte from the offset on. -/
def bufAt (s : State) (k : Nat) : Nat := (s.buf.read (s.inputs.offset + k)).toNat

/-- What no instruction changes: the input ports, BUF_LEN (10_state R27, R24), and of the model's own fields
the host's events to come (log 11) and the recorded UNSPECIFIED outcome (log 22). -/
def Kept (s t : State) : Prop :=
  t.inputs = s.inputs ∧ t.bufLen = s.bufLen ∧ t.events = s.events ∧ t.recorded = s.recorded

/-- No byte of the buffer changes. -/
def BufferKept (s t : State) : Prop := ∀ a, t.buf.read a = s.buf.read a

/-- A completed read: STATUS = OK, CAUSE = 0, RESULT_VALID = 1, RESULT as given, and nothing else changes. -/
def ReadDone (s t : State) (result : Word64 → Prop) : Prop :=
  t.status = 0b01 ∧ t.cause = 0 ∧ t.resultValid = true ∧ result t.result ∧ BufferKept s t ∧ Kept s t

/-- A completed write of `w` bytes: STATUS = OK, CAUSE = 0, RESULT_VALID = 0, the byte at o + k as given for
each k < w, and no other byte and nothing else changes. -/
def WriteDone (s t : State) (w : Nat) (byte : Nat → Nat) : Prop :=
  t.status = 0b01 ∧ t.cause = 0 ∧ t.resultValid = false
    ∧ (∀ k, k < w → bufAt t k = byte k)
    ∧ (∀ a, a < s.inputs.offset ∨ s.inputs.offset + w ≤ a → t.buf.read a = s.buf.read a)
    ∧ Kept s t

/-- InvariantViolation with this cause: STATUS = INVARIANT_VIOLATION, RESULT_VALID = 0, no byte of BUF and
nothing else changes (60_exceptions R134). -/
def Rejected (s t : State) (cause : BitVec 3) : Prop :=
  t.status = 0b10 ∧ t.cause = cause ∧ t.resultValid = false ∧ BufferKept s t ∧ Kept s t

/-- An instruction that completes a read of `w` bytes on every state whose offset is present and whose span
lies in the buffer. -/
def Reads (i : Instr) (w : Nat) (result : State → Word64 → Prop) : Prop :=
  ∀ s, spanInBuffer w s → ∃ t, exec i s = .next t ∧ ReadDone s t (result s)

/-- On every state with a failing check: enforce mode rejects with the cause of a check that fails, skip mode
is UNSPECIFIED (43_validation R130, R131). `fails s c` says that the check with cause code c fails. -/
def Stops (i : Instr) (skip : Bool) (fails : State → BitVec 3 → Prop) : Prop :=
  ∀ s, (∃ c, fails s c) →
    if skip then exec i s = .fault (.unspecified .skippedCheckFails)
    else ∃ t c, exec i s = .next t ∧ fails s c ∧ Rejected s t c

/-- The checks of a read: MISSING_OFFSET (1) when OFFSET_VALID = 0, OUT_OF_BOUNDS (4) when the offset is
present and o + w > BUF_LEN. -/
def readFails (w : Nat) (s : State) (c : BitVec 3) : Prop :=
  (c = 1 ∧ s.inputs.offsetValid = false)
    ∨ (c = 4 ∧ s.inputs.offsetValid = true ∧ s.bufLen < s.inputs.offset + w)

/-- The checks of an integer write: those of a read, MISSING_VALUE (2) when VALUE_VALID = 0, VALUE_RANGE (5)
when the value is present and not lo <= v <= hi, NOT_INTEGRAL (6) when it is present and v ≠ floor(v). -/
def integerWriteFails (w : Nat) (lo hi : Int) (s : State) (c : BitVec 3) : Prop :=
  readFails w s c
    ∨ (c = 2 ∧ s.inputs.valueValid = false)
    ∨ (c = 5 ∧ s.inputs.valueValid = true
        ∧ ¬ ((FP.ofInt lo).le (f64val s.inputs.value) = true
              ∧ (f64val s.inputs.value).le (FP.ofInt hi) = true))
    ∨ (c = 6 ∧ s.inputs.valueValid = true
        ∧ (f64val s.inputs.value).eq (f64val s.inputs.value).floor = false)

/-- The checks of a float write of `w` bytes: those of a read, MISSING_VALUE (2), and VALUE_RANGE (5) when the
value is present and out of range. -/
def floatWriteFails (w : Nat) (outOfRange : FP → Prop) (s : State) (c : BitVec 3) : Prop :=
  readFails w s c
    ∨ (c = 2 ∧ s.inputs.valueValid = false)
    ∨ (c = 5 ∧ s.inputs.valueValid = true ∧ outOfRange (f64val s.inputs.value))

/-- An instruction that writes an integer of lo .. hi into `w` bytes: on every state whose span lies in the
buffer and whose value is such an integer r, it completes, and the byte at o + k is `byte r k`. -/
def WritesInteger (i : Instr) (w : Nat) (lo hi : Int) (byte : Int → Nat → Nat) : Prop :=
  ∀ s r, s.buf.wf → spanInBuffer w s → valueIsInteger s r → lo ≤ r → r ≤ hi →
    ∃ t, exec i s = .next t ∧ WriteDone s t w (byte r)

/-- An instruction that writes a finite value between -bound and bound (in units of 2^-1074) into `w` bytes. -/
def WritesFloat (i : Instr) (w : Nat) (bound : Int) (byte : Word64 → Int → Nat → Nat) : Prop :=
  ∀ s u, s.buf.wf → spanInBuffer w s → s.inputs.valueValid = true → f64val s.inputs.value = .fin u →
    -bound ≤ u → u ≤ bound → ∃ t, exec i s = .next t ∧ WriteDone s t w (byte s.inputs.value u)

/-- The two command words of a multi-byte instruction: SKIP = 0 and SKIP = 1. -/
def HasWords (make : Bool → Instr) (enforce skip : Command) : Prop :=
  decode enforce = .instr (make false) ∧ decode skip = .instr (make true)

/-- The four command words of a 1-byte instruction: BE is ignored. -/
def HasByteWords (make : Bool → Bool → Instr) (c0 c4 c2 c6 : Command) : Prop :=
  decode c0 = .instr (make false false) ∧ decode c4 = .instr (make true false)
    ∧ decode c2 = .instr (make false true) ∧ decode c6 = .instr (make true true)

/-- The signed integer of an N-bit pattern u (41_signed R81): u below 2^(N-1), else u - 2^N. -/
def signedOf (bits u : Nat) : Int := if u < 2 ^ (bits - 1) then (u : Int) else (u : Int) - 2 ^ bits

/-- The N-bit pattern of an integer r (41_signed R82): r, or r + 2^N when r is negative. -/
def patternOf (bits : Nat) (r : Int) : Int := if 0 ≤ r then r else r + 2 ^ bits

/-- Byte k of an integer, least significant first: floor(u / 256^k) mod 256. -/
def byteLE (u : Int) (k : Nat) : Nat := (u / 256 ^ k % 256).toNat

/-- RESULT of a single read from the word W (42_float R101 to R104): a NaN for a NaN pattern, else the value of
W, with the sign bit of W. -/
def SingleResult (w : Nat) (r : Word64) : Prop :=
  if single.valueOf w = .nan then isNaN64 r = true
  else f64val r = single.valueOf w ∧ f64sign r = w.testBit 31

/-- RESULT of a double read from the word W: W itself, unless W is a NaN pattern (42_float R113, R114). -/
def DoubleResult (w : Nat) (r : Word64) : Prop :=
  if double.valueOf w = .nan then isNaN64 r = true else r.toNat = w

/-- A number of units of 2^-1074 is a binary32 value. -/
def IsSingle (u : Int) : Prop := ∃ w : Word32, single.valueOf w.toNat = .fin u

/-- The table of 43_validation R129: the checks each instruction makes, as a set. -/
def checksOf : Instr → List Check
  | .readUInt8 _ _ | .readInt8 _ _ => [.offsetPresent, .inBounds 1]
  | .readUInt16LE _ | .readUInt16BE _ | .readInt16LE _ | .readInt16BE _ =>
    [.offsetPresent, .inBounds 2, .byteOrderPresent]
  | .readUInt32LE _ | .readUInt32BE _ | .readInt32LE _ | .readInt32BE _
  | .readFloatLE _ | .readFloatBE _ => [.offsetPresent, .inBounds 4, .byteOrderPresent]
  | .readDoubleLE _ | .readDoubleBE _ => [.offsetPresent, .inBounds 8, .byteOrderPresent]
  | .writeUInt8 _ _ => [.valuePresent, .urange 1, .integral, .offsetPresent, .inBounds 1]
  | .writeUInt16LE _ | .writeUInt16BE _ =>
    [.valuePresent, .urange 2, .integral, .offsetPresent, .inBounds 2, .byteOrderPresent]
  | .writeUInt32LE _ | .writeUInt32BE _ =>
    [.valuePresent, .urange 4, .integral, .offsetPresent, .inBounds 4, .byteOrderPresent]
  | .writeInt8 _ _ => [.valuePresent, .srange 1, .integral, .offsetPresent, .inBounds 1]
  | .writeInt16LE _ | .writeInt16BE _ =>
    [.valuePresent, .srange 2, .integral, .offsetPresent, .inBounds 2, .byteOrderPresent]
  | .writeInt32LE _ | .writeInt32BE _ =>
    [.valuePresent, .srange 4, .integral, .offsetPresent, .inBounds 4, .byteOrderPresent]
  | .writeFloatLE _ | .writeFloatBE _ =>
    [.valuePresent, .byteOrderPresent, .frange single, .offsetPresent, .inBounds 4]
  | .writeDoubleLE _ | .writeDoubleBE _ =>
    [.valuePresent, .byteOrderPresent, .frange double, .offsetPresent, .inBounds 8]

/-- A check of the instruction fails, with this cause code. -/
def InFailingSet (i : Instr) (s : State) (code : BitVec 3) : Prop :=
  ∃ k ∈ checksOf i, k.fails s = true ∧ k.cause.code = code

/-- The conditions of 30_encoding R61: RSV = 1; KIND = 11; an integer with WSEL = 11; a float with WSEL = 00 or
01. -/
def ReservedWord (w : Command) : Prop :=
  w.getLsbD 0 = true
    ∨ (w.getLsbD 6 = true ∧ w.getLsbD 5 = true)
    ∨ (w.getLsbD 6 = false ∧ w.getLsbD 4 = true ∧ w.getLsbD 3 = true)
    ∨ (w.getLsbD 6 = true ∧ w.getLsbD 5 = false ∧ w.getLsbD 4 = false)

/-- An unsigned write and the unsigned read of the same width and byte order. -/
inductive UnsignedPair : Nat → (Bool → Instr) → (Bool → Instr) → Prop
  | u8 (x y : Bool) : UnsignedPair 1 (.writeUInt8 x) (.readUInt8 y)
  | u16le : UnsignedPair 2 .writeUInt16LE .readUInt16LE
  | u16be : UnsignedPair 2 .writeUInt16BE .readUInt16BE
  | u32le : UnsignedPair 4 .writeUInt32LE .readUInt32LE
  | u32be : UnsignedPair 4 .writeUInt32BE .readUInt32BE

/-- A signed write and read of the same width and byte order, and the unsigned ones of the same bytes. -/
inductive SignedPair : Nat → (Bool → Instr) → (Bool → Instr) → (Bool → Instr) → (Bool → Instr) → Prop
  | i8 (x y z u : Bool) : SignedPair 1 (.writeInt8 x) (.readInt8 y) (.writeUInt8 z) (.readUInt8 u)
  | i16le : SignedPair 2 .writeInt16LE .readInt16LE .writeUInt16LE .readUInt16LE
  | i16be : SignedPair 2 .writeInt16BE .readInt16BE .writeUInt16BE .readUInt16BE
  | i32le : SignedPair 4 .writeInt32LE .readInt32LE .writeUInt32LE .readUInt32LE
  | i32be : SignedPair 4 .writeInt32BE .readInt32BE .writeUInt32BE .readUInt32BE

/-- A single write and the single read of the same byte order. -/
inductive SinglePair : (Bool → Instr) → (Bool → Instr) → Prop
  | le : SinglePair .writeFloatLE .readFloatLE
  | be : SinglePair .writeFloatBE .readFloatBE

/-- A double write and the double read of the same byte order. -/
inductive DoublePair : (Bool → Instr) → (Bool → Instr) → Prop
  | le : DoublePair .writeDoubleLE .readDoubleLE
  | be : DoublePair .writeDoubleBE .readDoubleBE

/-- A value in the extended reals; NaN has none (00_scope R10). -/
noncomputable def extendedReal : FP → Option EReal
  | .nan => none
  | .inf true => some ⊥
  | .inf false => some ⊤
  | .fin u => some (((u : ℝ) / 2 ^ 1074 : ℝ) : EReal)

/-- `len` addresses from `lo` on meet the span (20_memory R36) of the transaction that `s` starts: its command is
legal, its offset is present, and an address of the span is among them. -/
def MeetsSpan (s : State) (lo len : Nat) : Prop :=
  ∃ i a, decode s.inputs.cmd = .instr i ∧ s.inputs.offsetValid = true ∧ lo ≤ a ∧ a < lo + len
    ∧ s.inputs.offset ≤ a ∧ a < s.inputs.offset + fieldWidth i.fields.wsel

/-- The transaction that `s` starts is a write that completes (30_encoding R63). -/
def WriteCompletes (s : State) : Prop :=
  ∃ i t, decode s.inputs.cmd = .instr i ∧ i.fields.dir = .write ∧ exec i s = .next t ∧ t.status = 0b01

/-- An access beside the transaction that `s` starts is a data race (20_memory R48, 70_reset R156): the host
writes any byte of BUF; anyone writes a byte of the span; anyone reads a byte that a completing write writes. -/
def Races (s : State) (who : Agent) : Access → Prop
  | .write lo bytes => (who = .host ∧ bytes ≠ []) ∨ MeetsSpan s lo bytes.length
  | .read lo len => WriteCompletes s ∧ MeetsSpan s lo len

/-- A command word of enforce mode, SKIP = 0, or a reserved one. -/
def EnforcedWord (w : Command) : Prop := w.getLsbD 1 = false ∨ ReservedWord w

/-- An access that writes no address at or beyond `len`. -/
def WritesWithin (len : Nat) : Access → Prop
  | .read _ _ => True
  | .write lo bytes => lo + bytes.length ≤ len

/-- An event of a run in enforce mode on a buffer of `len` bytes: a transaction whose command has SKIP = 0 or is
reserved, alone or beside an access within the buffer that does not race with it; a buffer attached; a byte of
the buffer written; a port other than RESULT read; a reset between transactions. -/
def EnforcedEvent (len : Nat) : HostEvent → Prop
  | .issue p => EnforcedWord p.cmd
  | .issueBeside p who access =>
    EnforcedWord p.cmd ∧ WritesWithin len access
      ∧ ∀ s : State, s.inputs = p → s.bufLen = len → ¬ Races s who access
  | .hostWrite a _ => a < len
  | .readPort port => port ≠ .result
  | .attach _ | .reset => True
  | .resetDuring _ | .inputsChangedDuring _ => False

/-- BUF_LEN after an event: that of the buffer it attaches, else as before (10_state R24). -/
def lengthAfter (len : Nat) : HostEvent → Nat
  | .attach bytes => bytes.length
  | .issue _ | .issueBeside _ _ _ | .hostWrite _ _ | .readPort _ | .reset | .resetDuring _
  | .inputsChangedDuring _ => len

/-- The coming events of a run in enforce mode that starts on a buffer of `len` bytes. -/
def EnforcedEvents : Nat → List HostEvent → Prop
  | _, [] => True
  | len, e :: rest => EnforcedEvent len e ∧ EnforcedEvents (lengthAfter len e) rest

end Sys2Proof.Claims

open Sys2Proof Sys2Proof.Machine Sys2Proof.Claims

/-- R69: readUInt8 has its command words. Whenever the offset is present and o + 1 <= BUF_LEN, exec answers a next state with STATUS = OK, CAUSE = 0, RESULT_VALID = 1 and RESULT as the rule's formula over BUF[o..] says; BUF, BUF_LEN and the input ports are unchanged. Otherwise SKIP = 0 gives INVARIANT_VIOLATION with the failing cause (MISSING_OFFSET or OUT_OF_BOUNDS) and nothing else changed, SKIP = 1 the fault UNSPECIFIED. -/
def Obligations.ReadUInt8ReturnsTheByte : Prop :=
  HasByteWords .readUInt8 0x00 0x04 0x02 0x06 ∧ ∀ x skip,
    Reads (.readUInt8 x skip) 1 (fun s r => r = intWord (bufAt s 0 : Nat))
      ∧ Stops (.readUInt8 x skip) skip (readFails 1)

/-- R70: readUInt16LE has its command words. Whenever the offset is present and o + 2 <= BUF_LEN, exec answers a next state with STATUS = OK, CAUSE = 0, RESULT_VALID = 1 and RESULT as the rule's formula over BUF[o..] says; BUF, BUF_LEN and the input ports are unchanged. Otherwise SKIP = 0 gives INVARIANT_VIOLATION with the failing cause (MISSING_OFFSET or OUT_OF_BOUNDS) and nothing else changed, SKIP = 1 the fault UNSPECIFIED. -/
def Obligations.ReadUInt16LEReturnsUnsignedValue : Prop :=
  HasWords .readUInt16LE 0x08 0x0A ∧ ∀ skip,
    Reads (.readUInt16LE skip) 2 (fun s r => r = intWord (bufAt s 0 + 2 ^ 8 * bufAt s 1 : Nat))
      ∧ Stops (.readUInt16LE skip) skip (readFails 2)

/-- R71: readUInt16BE has its command words. Whenever the offset is present and o + 2 <= BUF_LEN, exec answers a next state with STATUS = OK, CAUSE = 0, RESULT_VALID = 1 and RESULT as the rule's formula over BUF[o..] says; BUF, BUF_LEN and the input ports are unchanged. Otherwise SKIP = 0 gives INVARIANT_VIOLATION with the failing cause (MISSING_OFFSET or OUT_OF_BOUNDS) and nothing else changed, SKIP = 1 the fault UNSPECIFIED. -/
def Obligations.ReadUInt16BEReturnsUnsignedValue : Prop :=
  HasWords .readUInt16BE 0x0C 0x0E ∧ ∀ skip,
    Reads (.readUInt16BE skip) 2 (fun s r => r = intWord (2 ^ 8 * bufAt s 0 + bufAt s 1 : Nat))
      ∧ Stops (.readUInt16BE skip) skip (readFails 2)

/-- R72: readUInt32LE has its command words. Whenever the offset is present and o + 4 <= BUF_LEN, exec answers a next state with STATUS = OK, CAUSE = 0, RESULT_VALID = 1 and RESULT as the rule's formula over BUF[o..] says; BUF, BUF_LEN and the input ports are unchanged. Otherwise SKIP = 0 gives INVARIANT_VIOLATION with the failing cause (MISSING_OFFSET or OUT_OF_BOUNDS) and nothing else changed, SKIP = 1 the fault UNSPECIFIED. -/
def Obligations.ReadUInt32LEReturnsUnsignedValue : Prop :=
  HasWords .readUInt32LE 0x10 0x12 ∧ ∀ skip,
    Reads (.readUInt32LE skip) 4 (fun s r => r = intWord (bufAt s 0 + 2 ^ 8 * bufAt s 1
                + 2 ^ 16 * bufAt s 2 + 2 ^ 24 * bufAt s 3 : Nat))
      ∧ Stops (.readUInt32LE skip) skip (readFails 4)

/-- R73: readUInt32BE has its command words. Whenever the offset is present and o + 4 <= BUF_LEN, exec answers a next state with STATUS = OK, CAUSE = 0, RESULT_VALID = 1 and RESULT as the rule's formula over BUF[o..] says; BUF, BUF_LEN and the input ports are unchanged. Otherwise SKIP = 0 gives INVARIANT_VIOLATION with the failing cause (MISSING_OFFSET or OUT_OF_BOUNDS) and nothing else changed, SKIP = 1 the fault UNSPECIFIED. -/
def Obligations.ReadUInt32BEReturnsUnsignedValue : Prop :=
  HasWords .readUInt32BE 0x14 0x16 ∧ ∀ skip,
    Reads (.readUInt32BE skip) 4 (fun s r => r = intWord (2 ^ 24 * bufAt s 0 + 2 ^ 16 * bufAt s 1
                + 2 ^ 8 * bufAt s 2 + bufAt s 3 : Nat))
      ∧ Stops (.readUInt32BE skip) skip (readFails 4)

/-- R74: writeUInt8 has its command words. Whenever the offset is present, o + 1 <= BUF_LEN and the value is an integer of 0 to 255 (a -0 is the integer 0), exec answers a next state with STATUS = OK, CAUSE = 0, RESULT_VALID = 0 and the bytes at o .. o+0 as the rule says; every other byte, BUF_LEN and the input ports are unchanged. If a check fails, SKIP = 0 gives INVARIANT_VIOLATION with a failing cause (MISSING_VALUE, VALUE_RANGE, NOT_INTEGRAL, MISSING_OFFSET or OUT_OF_BOUNDS) and BUF unchanged, SKIP = 1 the fault UNSPECIFIED. -/
def Obligations.WriteUInt8StoresUnsignedByte : Prop :=
  HasByteWords .writeUInt8 0x80 0x84 0x82 0x86 ∧ ∀ x skip,
    WritesInteger (.writeUInt8 x skip) 1 0 255 (fun r k => byteLE r k)
      ∧ Stops (.writeUInt8 x skip) skip (integerWriteFails 1 0 255)

/-- R75: writeUInt16LE has its command words. Whenever the offset is present, o + 2 <= BUF_LEN and the value is an integer of 0 to 65535 (a -0 is the integer 0), exec answers a next state with STATUS = OK, CAUSE = 0, RESULT_VALID = 0 and the bytes at o .. o+1 as the rule says; every other byte, BUF_LEN and the input ports are unchanged. If a check fails, SKIP = 0 gives INVARIANT_VIOLATION with a failing cause (MISSING_VALUE, VALUE_RANGE, NOT_INTEGRAL, MISSING_OFFSET or OUT_OF_BOUNDS) and BUF unchanged, SKIP = 1 the fault UNSPECIFIED. -/
def Obligations.WriteUInt16LEStoresUnsignedBytes : Prop :=
  HasWords .writeUInt16LE 0x88 0x8A ∧ ∀ skip,
    WritesInteger (.writeUInt16LE skip) 2 0 65535 (fun r k => byteLE r k)
      ∧ Stops (.writeUInt16LE skip) skip (integerWriteFails 2 0 65535)

/-- R76: writeUInt16BE has its command words. Whenever the offset is present, o + 2 <= BUF_LEN and the value is an integer of 0 to 65535 (a -0 is the integer 0), exec answers a next state with STATUS = OK, CAUSE = 0, RESULT_VALID = 0 and the bytes at o .. o+1 as the rule says; every other byte, BUF_LEN and the input ports are unchanged. If a check fails, SKIP = 0 gives INVARIANT_VIOLATION with a failing cause (MISSING_VALUE, VALUE_RANGE, NOT_INTEGRAL, MISSING_OFFSET or OUT_OF_BOUNDS) and BUF unchanged, SKIP = 1 the fault UNSPECIFIED. -/
def Obligations.WriteUInt16BEStoresUnsignedBytes : Prop :=
  HasWords .writeUInt16BE 0x8C 0x8E ∧ ∀ skip,
    WritesInteger (.writeUInt16BE skip) 2 0 65535 (fun r k => byteLE r (1 - k))
      ∧ Stops (.writeUInt16BE skip) skip (integerWriteFails 2 0 65535)

/-- R77: writeUInt32LE has its command words. Whenever the offset is present, o + 4 <= BUF_LEN and the value is an integer of 0 to 4294967295 (a -0 is the integer 0), exec answers a next state with STATUS = OK, CAUSE = 0, RESULT_VALID = 0 and the bytes at o .. o+3 as the rule says; every other byte, BUF_LEN and the input ports are unchanged. If a check fails, SKIP = 0 gives INVARIANT_VIOLATION with a failing cause (MISSING_VALUE, VALUE_RANGE, NOT_INTEGRAL, MISSING_OFFSET or OUT_OF_BOUNDS) and BUF unchanged, SKIP = 1 the fault UNSPECIFIED. -/
def Obligations.WriteUInt32LEStoresUnsignedBytes : Prop :=
  HasWords .writeUInt32LE 0x90 0x92 ∧ ∀ skip,
    WritesInteger (.writeUInt32LE skip) 4 0 4294967295 (fun r k => byteLE r k)
      ∧ Stops (.writeUInt32LE skip) skip (integerWriteFails 4 0 4294967295)

/-- R78: writeUInt32BE has its command words. Whenever the offset is present, o + 4 <= BUF_LEN and the value is an integer of 0 to 4294967295 (a -0 is the integer 0), exec answers a next state with STATUS = OK, CAUSE = 0, RESULT_VALID = 0 and the bytes at o .. o+3 as the rule says; every other byte, BUF_LEN and the input ports are unchanged. If a check fails, SKIP = 0 gives INVARIANT_VIOLATION with a failing cause (MISSING_VALUE, VALUE_RANGE, NOT_INTEGRAL, MISSING_OFFSET or OUT_OF_BOUNDS) and BUF unchanged, SKIP = 1 the fault UNSPECIFIED. -/
def Obligations.WriteUInt32BEStoresUnsignedBytes : Prop :=
  HasWords .writeUInt32BE 0x94 0x96 ∧ ∀ skip,
    WritesInteger (.writeUInt32BE skip) 4 0 4294967295 (fun r k => byteLE r (3 - k))
      ∧ Stops (.writeUInt32BE skip) skip (integerWriteFails 4 0 4294967295)

/-- R86: readInt8 has its command words. Whenever the offset is present and o + 1 <= BUF_LEN, exec answers a next state with STATUS = OK, CAUSE = 0, RESULT_VALID = 1 and RESULT as the rule's formula over BUF[o..] says; BUF, BUF_LEN and the input ports are unchanged. Otherwise SKIP = 0 gives INVARIANT_VIOLATION with the failing cause (MISSING_OFFSET or OUT_OF_BOUNDS) and nothing else changed, SKIP = 1 the fault UNSPECIFIED. -/
def Obligations.ReadInt8ReturnsSignedValue : Prop :=
  HasByteWords .readInt8 0x20 0x24 0x22 0x26 ∧ ∀ x skip,
    Reads (.readInt8 x skip) 1 (fun s r => r = intWord (signedOf 8 (bufAt s 0)))
      ∧ Stops (.readInt8 x skip) skip (readFails 1)

/-- R87: readInt16LE has its command words. Whenever the offset is present and o + 2 <= BUF_LEN, exec answers a next state with STATUS = OK, CAUSE = 0, RESULT_VALID = 1 and RESULT as the rule's formula over BUF[o..] says; BUF, BUF_LEN and the input ports are unchanged. Otherwise SKIP = 0 gives INVARIANT_VIOLATION with the failing cause (MISSING_OFFSET or OUT_OF_BOUNDS) and nothing else changed, SKIP = 1 the fault UNSPECIFIED. -/
def Obligations.ReadInt16LEReturnsSignedValue : Prop :=
  HasWords .readInt16LE 0x28 0x2A ∧ ∀ skip,
    Reads (.readInt16LE skip) 2 (fun s r => r = intWord (signedOf 16 (bufAt s 0 + 2 ^ 8 * bufAt s 1)))
      ∧ Stops (.readInt16LE skip) skip (readFails 2)

/-- R88: readInt16BE has its command words. Whenever the offset is present and o + 2 <= BUF_LEN, exec answers a next state with STATUS = OK, CAUSE = 0, RESULT_VALID = 1 and RESULT as the rule's formula over BUF[o..] says; BUF, BUF_LEN and the input ports are unchanged. Otherwise SKIP = 0 gives INVARIANT_VIOLATION with the failing cause (MISSING_OFFSET or OUT_OF_BOUNDS) and nothing else changed, SKIP = 1 the fault UNSPECIFIED. -/
def Obligations.ReadInt16BEReturnsSignedValue : Prop :=
  HasWords .readInt16BE 0x2C 0x2E ∧ ∀ skip,
    Reads (.readInt16BE skip) 2 (fun s r => r = intWord (signedOf 16 (2 ^ 8 * bufAt s 0 + bufAt s 1)))
      ∧ Stops (.readInt16BE skip) skip (readFails 2)

/-- R89: readInt32LE has its command words. Whenever the offset is present and o + 4 <= BUF_LEN, exec answers a next state with STATUS = OK, CAUSE = 0, RESULT_VALID = 1 and RESULT as the rule's formula over BUF[o..] says; BUF, BUF_LEN and the input ports are unchanged. Otherwise SKIP = 0 gives INVARIANT_VIOLATION with the failing cause (MISSING_OFFSET or OUT_OF_BOUNDS) and nothing else changed, SKIP = 1 the fault UNSPECIFIED. -/
def Obligations.ReadInt32LEReturnsSignedValue : Prop :=
  HasWords .readInt32LE 0x30 0x32 ∧ ∀ skip,
    Reads (.readInt32LE skip) 4 (fun s r => r = intWord (signedOf 32 (bufAt s 0 + 2 ^ 8 * bufAt s 1
                + 2 ^ 16 * bufAt s 2 + 2 ^ 24 * bufAt s 3)))
      ∧ Stops (.readInt32LE skip) skip (readFails 4)

/-- R90: readInt32BE has its command words. Whenever the offset is present and o + 4 <= BUF_LEN, exec answers a next state with STATUS = OK, CAUSE = 0, RESULT_VALID = 1 and RESULT as the rule's formula over BUF[o..] says; BUF, BUF_LEN and the input ports are unchanged. Otherwise SKIP = 0 gives INVARIANT_VIOLATION with the failing cause (MISSING_OFFSET or OUT_OF_BOUNDS) and nothing else changed, SKIP = 1 the fault UNSPECIFIED. -/
def Obligations.ReadInt32BEReturnsSignedValue : Prop :=
  HasWords .readInt32BE 0x34 0x36 ∧ ∀ skip,
    Reads (.readInt32BE skip) 4 (fun s r => r = intWord (signedOf 32 (2 ^ 24 * bufAt s 0 + 2 ^ 16 * bufAt s 1
                + 2 ^ 8 * bufAt s 2 + bufAt s 3)))
      ∧ Stops (.readInt32BE skip) skip (readFails 4)

/-- R91: writeInt8 has its command words. Whenever the offset is present, o + 1 <= BUF_LEN and the value is an integer of -128 to 127 (a -0 is the integer 0), exec answers a next state with STATUS = OK, CAUSE = 0, RESULT_VALID = 0 and the bytes at o .. o+0 as the rule says; every other byte, BUF_LEN and the input ports are unchanged. If a check fails, SKIP = 0 gives INVARIANT_VIOLATION with a failing cause (MISSING_VALUE, VALUE_RANGE, NOT_INTEGRAL, MISSING_OFFSET or OUT_OF_BOUNDS) and BUF unchanged, SKIP = 1 the fault UNSPECIFIED. -/
def Obligations.WriteInt8StoresSignedByte : Prop :=
  HasByteWords .writeInt8 0xA0 0xA4 0xA2 0xA6 ∧ ∀ x skip,
    WritesInteger (.writeInt8 x skip) 1 (-128) 127 (fun r k => byteLE (patternOf 8 r) k)
      ∧ Stops (.writeInt8 x skip) skip (integerWriteFails 1 (-128) 127)

/-- R92: writeInt16LE has its command words. Whenever the offset is present, o + 2 <= BUF_LEN and the value is an integer of -32768 to 32767 (a -0 is the integer 0), exec answers a next state with STATUS = OK, CAUSE = 0, RESULT_VALID = 0 and the bytes at o .. o+1 as the rule says; every other byte, BUF_LEN and the input ports are unchanged. If a check fails, SKIP = 0 gives INVARIANT_VIOLATION with a failing cause (MISSING_VALUE, VALUE_RANGE, NOT_INTEGRAL, MISSING_OFFSET or OUT_OF_BOUNDS) and BUF unchanged, SKIP = 1 the fault UNSPECIFIED. -/
def Obligations.WriteInt16LEStoresSignedBytes : Prop :=
  HasWords .writeInt16LE 0xA8 0xAA ∧ ∀ skip,
    WritesInteger (.writeInt16LE skip) 2 (-32768) 32767 (fun r k => byteLE (patternOf 16 r) k)
      ∧ Stops (.writeInt16LE skip) skip (integerWriteFails 2 (-32768) 32767)

/-- R93: writeInt16BE has its command words. Whenever the offset is present, o + 2 <= BUF_LEN and the value is an integer of -32768 to 32767 (a -0 is the integer 0), exec answers a next state with STATUS = OK, CAUSE = 0, RESULT_VALID = 0 and the bytes at o .. o+1 as the rule says; every other byte, BUF_LEN and the input ports are unchanged. If a check fails, SKIP = 0 gives INVARIANT_VIOLATION with a failing cause (MISSING_VALUE, VALUE_RANGE, NOT_INTEGRAL, MISSING_OFFSET or OUT_OF_BOUNDS) and BUF unchanged, SKIP = 1 the fault UNSPECIFIED. -/
def Obligations.WriteInt16BEStoresSignedBytes : Prop :=
  HasWords .writeInt16BE 0xAC 0xAE ∧ ∀ skip,
    WritesInteger (.writeInt16BE skip) 2 (-32768) 32767 (fun r k => byteLE (patternOf 16 r) (1 - k))
      ∧ Stops (.writeInt16BE skip) skip (integerWriteFails 2 (-32768) 32767)

/-- R94: writeInt32LE has its command words. Whenever the offset is present, o + 4 <= BUF_LEN and the value is an integer of -2147483648 to 2147483647 (a -0 is the integer 0), exec answers a next state with STATUS = OK, CAUSE = 0, RESULT_VALID = 0 and the bytes at o .. o+3 as the rule says; every other byte, BUF_LEN and the input ports are unchanged. If a check fails, SKIP = 0 gives INVARIANT_VIOLATION with a failing cause (MISSING_VALUE, VALUE_RANGE, NOT_INTEGRAL, MISSING_OFFSET or OUT_OF_BOUNDS) and BUF unchanged, SKIP = 1 the fault UNSPECIFIED. -/
def Obligations.WriteInt32LEStoresSignedBytes : Prop :=
  HasWords .writeInt32LE 0xB0 0xB2 ∧ ∀ skip,
    WritesInteger (.writeInt32LE skip) 4 (-2147483648) 2147483647 (fun r k => byteLE (patternOf 32 r) k)
      ∧ Stops (.writeInt32LE skip) skip (integerWriteFails 4 (-2147483648) 2147483647)

/-- R95: writeInt32BE has its command words. Whenever the offset is present, o + 4 <= BUF_LEN and the value is an integer of -2147483648 to 2147483647 (a -0 is the integer 0), exec answers a next state with STATUS = OK, CAUSE = 0, RESULT_VALID = 0 and the bytes at o .. o+3 as the rule says; every other byte, BUF_LEN and the input ports are unchanged. If a check fails, SKIP = 0 gives INVARIANT_VIOLATION with a failing cause (MISSING_VALUE, VALUE_RANGE, NOT_INTEGRAL, MISSING_OFFSET or OUT_OF_BOUNDS) and BUF unchanged, SKIP = 1 the fault UNSPECIFIED. -/
def Obligations.WriteInt32BEStoresSignedBytes : Prop :=
  HasWords .writeInt32BE 0xB4 0xB6 ∧ ∀ skip,
    WritesInteger (.writeInt32BE skip) 4 (-2147483648) 2147483647 (fun r k => byteLE (patternOf 32 r) (3 - k))
      ∧ Stops (.writeInt32BE skip) skip (integerWriteFails 4 (-2147483648) 2147483647)

/-- R111: readFloatLE has its command words. Whenever the offset is present and o + 4 <= BUF_LEN, exec answers a next state with STATUS = OK, CAUSE = 0, RESULT_VALID = 1 and RESULT as the rule's formula over BUF[o..] says; BUF, BUF_LEN and the input ports are unchanged. Otherwise SKIP = 0 gives INVARIANT_VIOLATION with the failing cause (MISSING_OFFSET or OUT_OF_BOUNDS) and nothing else changed, SKIP = 1 the fault UNSPECIFIED. -/
def Obligations.ReadFloatLEReturnsSingleValue : Prop :=
  HasWords .readFloatLE 0x50 0x52 ∧ ∀ skip,
    Reads (.readFloatLE skip) 4 (fun s r => SingleResult (bufAt s 0 + 2 ^ 8 * bufAt s 1
                + 2 ^ 16 * bufAt s 2 + 2 ^ 24 * bufAt s 3) r)
      ∧ Stops (.readFloatLE skip) skip (readFails 4)

/-- R112: readFloatBE has its command words. Whenever the offset is present and o + 4 <= BUF_LEN, exec answers a next state with STATUS = OK, CAUSE = 0, RESULT_VALID = 1 and RESULT as the rule's formula over BUF[o..] says; BUF, BUF_LEN and the input ports are unchanged. Otherwise SKIP = 0 gives INVARIANT_VIOLATION with the failing cause (MISSING_OFFSET or OUT_OF_BOUNDS) and nothing else changed, SKIP = 1 the fault UNSPECIFIED. -/
def Obligations.ReadFloatBEReturnsSingleValue : Prop :=
  HasWords .readFloatBE 0x54 0x56 ∧ ∀ skip,
    Reads (.readFloatBE skip) 4 (fun s r => SingleResult (2 ^ 24 * bufAt s 0 + 2 ^ 16 * bufAt s 1
                + 2 ^ 8 * bufAt s 2 + bufAt s 3) r)
      ∧ Stops (.readFloatBE skip) skip (readFails 4)

/-- R113: readDoubleLE has its command words. Whenever the offset is present and o + 8 <= BUF_LEN, exec answers a next state with STATUS = OK, CAUSE = 0, RESULT_VALID = 1 and RESULT as the rule's formula over BUF[o..] says; BUF, BUF_LEN and the input ports are unchanged. Otherwise SKIP = 0 gives INVARIANT_VIOLATION with the failing cause (MISSING_OFFSET or OUT_OF_BOUNDS) and nothing else changed, SKIP = 1 the fault UNSPECIFIED. -/
def Obligations.ReadDoubleLEReturnsDoubleValue : Prop :=
  HasWords .readDoubleLE 0x58 0x5A ∧ ∀ skip,
    Reads (.readDoubleLE skip) 8 (fun s r => DoubleResult (bufAt s 0 + 2 ^ 8 * bufAt s 1 + 2 ^ 16 * bufAt s 2 + 2 ^ 24 * bufAt s 3
                + 2 ^ 32 * bufAt s 4 + 2 ^ 40 * bufAt s 5 + 2 ^ 48 * bufAt s 6 + 2 ^ 56 * bufAt s 7) r)
      ∧ Stops (.readDoubleLE skip) skip (readFails 8)

/-- R114: readDoubleBE has its command words. Whenever the offset is present and o + 8 <= BUF_LEN, exec answers a next state with STATUS = OK, CAUSE = 0, RESULT_VALID = 1 and RESULT as the rule's formula over BUF[o..] says; BUF, BUF_LEN and the input ports are unchanged. Otherwise SKIP = 0 gives INVARIANT_VIOLATION with the failing cause (MISSING_OFFSET or OUT_OF_BOUNDS) and nothing else changed, SKIP = 1 the fault UNSPECIFIED. -/
def Obligations.ReadDoubleBEReturnsDoubleValue : Prop :=
  HasWords .readDoubleBE 0x5C 0x5E ∧ ∀ skip,
    Reads (.readDoubleBE skip) 8 (fun s r => DoubleResult (2 ^ 56 * bufAt s 0 + 2 ^ 48 * bufAt s 1 + 2 ^ 40 * bufAt s 2 + 2 ^ 32 * bufAt s 3
                + 2 ^ 24 * bufAt s 4 + 2 ^ 16 * bufAt s 5 + 2 ^ 8 * bufAt s 6 + bufAt s 7) r)
      ∧ Stops (.readDoubleBE skip) skip (readFails 8)

/-- R115: writeFloatLE has its command words. Whenever the offset is present, o + 4 <= BUF_LEN and the value is finite with magnitude at most 3.4028234663852886e38, exec answers a next state with STATUS = OK, CAUSE = 0, RESULT_VALID = 0 and the bytes at o .. o+3 as the rule says; every other byte, BUF_LEN and the input ports are unchanged. If a check fails, SKIP = 0 gives INVARIANT_VIOLATION with a failing cause (MISSING_VALUE, VALUE_RANGE, MISSING_OFFSET or OUT_OF_BOUNDS) and BUF unchanged, SKIP = 1 the fault UNSPECIFIED. Under the default ROUND32, 0.1 packs to 0x3DCCCCCD, which reads back as 0.10000000149011612, and 2^-150 to +0; under any permitted ROUND32 2^-150 packs to +0 or 2^-149. -/
def Obligations.WriteFloatLEStoresRoundedSingle : Prop :=
  pack32With (round32With nearestEven) 0x3FB999999999999A = 0x3DCCCCCD
    ∧ single.valueOf (0x3DCCCCCD : Word32).toNat = f64val 0x3FB99999A0000000
    ∧ (Literal.number false 10000000149011612 (-17)).word = some 0x3FB99999A0000000
    ∧ pack32With (round32With nearestEven) 0x3690000000000000 = 0
    ∧ (∀ away, pack32With (round32With away) 0x3690000000000000 = 0
        ∨ pack32With (round32With away) 0x3690000000000000 = 1)
    ∧ HasWords .writeFloatLE 0xD0 0xD2 ∧ ∀ skip,
    WritesFloat (.writeFloatLE skip) 4 ((2 ^ 24 - 1) * 2 ^ (104 + 1074))
        (fun v u k => ((f32word (round32 u) (f64sign v)).extractLsb' (8 * k) 8).toNat)
      ∧ Stops (.writeFloatLE skip) skip (floatWriteFails 4
          (fun v => ¬ ((FP.fin (-((2 ^ 24 - 1) * 2 ^ (104 + 1074)))).le v = true ∧ v.le (.fin ((2 ^ 24 - 1) * 2 ^ (104 + 1074))) = true)))

/-- R116: writeFloatBE has its command words. Whenever the offset is present, o + 4 <= BUF_LEN and the value is finite with magnitude at most 3.4028234663852886e38, exec answers a next state with STATUS = OK, CAUSE = 0, RESULT_VALID = 0 and the bytes at o .. o+3 as the rule says; every other byte, BUF_LEN and the input ports are unchanged. If a check fails, SKIP = 0 gives INVARIANT_VIOLATION with a failing cause (MISSING_VALUE, VALUE_RANGE, MISSING_OFFSET or OUT_OF_BOUNDS) and BUF unchanged, SKIP = 1 the fault UNSPECIFIED. Under the default ROUND32, 16777217 packs to 0x4B800000. -/
def Obligations.WriteFloatBEStoresRoundedSingle : Prop :=
  pack32With (round32With nearestEven) 0x4170000010000000 = 0x4B800000
    ∧ HasWords .writeFloatBE 0xD4 0xD6 ∧ ∀ skip,
    WritesFloat (.writeFloatBE skip) 4 ((2 ^ 24 - 1) * 2 ^ (104 + 1074))
        (fun v u k => ((f32word (round32 u) (f64sign v)).extractLsb' (24 - 8 * k) 8).toNat)
      ∧ Stops (.writeFloatBE skip) skip (floatWriteFails 4
          (fun v => ¬ ((FP.fin (-((2 ^ 24 - 1) * 2 ^ (104 + 1074)))).le v = true ∧ v.le (.fin ((2 ^ 24 - 1) * 2 ^ (104 + 1074))) = true)))

/-- R117: writeDoubleLE has its command words. Whenever the offset is present, o + 8 <= BUF_LEN and the value is finite with magnitude at most 1.7976931348623157e308, exec answers a next state with STATUS = OK, CAUSE = 0, RESULT_VALID = 0 and the bytes at o .. o+7 as the rule says; every other byte, BUF_LEN and the input ports are unchanged. If a check fails, SKIP = 0 gives INVARIANT_VIOLATION with a failing cause (MISSING_VALUE, VALUE_RANGE, MISSING_OFFSET or OUT_OF_BOUNDS) and BUF unchanged, SKIP = 1 the fault UNSPECIFIED. -/
def Obligations.WriteDoubleLEStoresValueWord : Prop :=
  HasWords .writeDoubleLE 0xD8 0xDA ∧ ∀ skip,
    WritesFloat (.writeDoubleLE skip) 8 ((2 ^ 53 - 1) * 2 ^ (971 + 1074))
        (fun v _ k => (v.extractLsb' (8 * k) 8).toNat)
      ∧ Stops (.writeDoubleLE skip) skip (floatWriteFails 8
          (fun v => v = .nan ∨ v = .inf false ∨ v = .inf true))

/-- R118: writeDoubleBE has its command words. Whenever the offset is present, o + 8 <= BUF_LEN and the value is finite with magnitude at most 1.7976931348623157e308, exec answers a next state with STATUS = OK, CAUSE = 0, RESULT_VALID = 0 and the bytes at o .. o+7 as the rule says; every other byte, BUF_LEN and the input ports are unchanged. If a check fails, SKIP = 0 gives INVARIANT_VIOLATION with a failing cause (MISSING_VALUE, VALUE_RANGE, MISSING_OFFSET or OUT_OF_BOUNDS) and BUF unchanged, SKIP = 1 the fault UNSPECIFIED. The literal 1e400 is +infinity in binary64. -/
def Obligations.WriteDoubleBEStoresValueWord : Prop :=
  (Literal.number false 1 400).word = some 0x7FF0000000000000
    ∧ HasWords .writeDoubleBE 0xDC 0xDE ∧ ∀ skip,
    WritesFloat (.writeDoubleBE skip) 8 ((2 ^ 53 - 1) * 2 ^ (971 + 1074))
        (fun v _ k => (v.extractLsb' (56 - 8 * k) 8).toNat)
      ∧ Stops (.writeDoubleBE skip) skip (floatWriteFails 8
          (fun v => v = .nan ∨ v = .inf false ∨ v = .inf true))

/-- For every one of the 28 instructions at every value of its bits, the instruction is well formed and decode (encode i) is i; and whenever a command word decodes to i, encode i is that word, so the syntax drops no bit of a command. (For a 1-byte instruction the second half is the model's choice, log 15: R57 says that both values of its ignored BE bit select the same instruction, and the model keeps the bit as an operand that no meaning reads, so that the two words are two terms of Instr.) -/
def Obligations.CommandWordsRoundTrip : Prop :=
  (∀ i : Instr, i.wellFormed = true ∧ decode (encode i) = .instr i)
    ∧ ∀ w i, decode w = .instr i → encode i = w

/-- R66: words written out from 30_encoding decode to their instructions; every command word that decodes to an instruction is covered by exactly one match/mask row, that of its mnemonic, and every other word by none; 64 words are legal. -/
def Obligations.CommandWordsFollowTheOpcodeMap : Prop :=
  decode 0x04 = .instr (.readUInt8 true false) ∧ decode 0x0A = .instr (.readUInt16LE true)
    ∧ decode 0x16 = .instr (.readUInt32BE true) ∧ decode 0x2C = .instr (.readInt16BE false)
    ∧ decode 0x5E = .instr (.readDoubleBE true) ∧ decode 0x94 = .instr (.writeUInt32BE false)
    ∧ decode 0xB2 = .instr (.writeInt32LE true) ∧ decode 0xDE = .instr (.writeDoubleBE true)
    ∧ decode 0x1E = .illegal .integerOfEightBytes ∧ decode 0x48 = .illegal .floatOfOneOrTwoBytes
    ∧ decode 0x60 = .illegal .kindReserved ∧ decode 0x01 = .illegal .rsvSet
    ∧ (∀ w : Command,
        (opcodeRows.filter (fun row => row.covers w)).map OpcodeRow.mnemonic
          = match decode w with
            | .instr i => [i.mnemonic]
            | .illegal _ => [])
    ∧ ((List.range 256).filter (fun n => (decodeTableWord 8 n).isSome)).length = 64

/-- R61, R136: a command word is reserved exactly when RSV = 1, or KIND = 11, or it is an integer with WSEL = 11, or a float with WSEL = 00 or 01; a transaction with such a word, whatever SKIP and the other inputs are, ends with STATUS = ILLEGAL_COMMAND, CAUSE = 0, RESULT_VALID = 0, BUF and everything else unchanged. -/
def Obligations.ReservedWordsAreIllegalCommands : Prop :=
  (∀ w, (∃ why, decode w = .illegal why) ↔ ReservedWord w)
    ∧ ∀ s : State, ReservedWord s.inputs.cmd →
        ∃ t, transaction s = .next t ∧ t.status = 0b11 ∧ t.cause = 0 ∧ t.resultValid = false
          ∧ BufferKept s t ∧ Kept s t

/-- R64: readUInt, writeUInt, readInt, writeInt with widths 1, 2, 4 and readFP, writeFP with single or double assemble, for each byte order and with or without noAssert, to the command word of the instruction in the rule's table (of the two words of a 1-byte instruction the one with BE = 0, as R57 says of the assembler); an integer form with another width does not assemble; an operand of readFP or writeFP other than single and double names no form. (That an operand is read as these characters is log 16.) -/
def Obligations.GenericFormsExpandToOneInstruction : Prop :=
  (∀ be k, (AsmOp.generic .read (.uint 1) be).command k = some (encode (.readUInt8 false k)))
    ∧ (∀ k, (AsmOp.generic .read (.uint 2) false).command k = some (encode (.readUInt16LE k)))
    ∧ (∀ k, (AsmOp.generic .read (.uint 2) true).command k = some (encode (.readUInt16BE k)))
    ∧ (∀ k, (AsmOp.generic .read (.uint 4) false).command k = some (encode (.readUInt32LE k)))
    ∧ (∀ k, (AsmOp.generic .read (.uint 4) true).command k = some (encode (.readUInt32BE k)))
    ∧ (∀ be k, (AsmOp.generic .read (.int 1) be).command k = some (encode (.readInt8 false k)))
    ∧ (∀ k, (AsmOp.generic .read (.int 2) false).command k = some (encode (.readInt16LE k)))
    ∧ (∀ k, (AsmOp.generic .read (.int 2) true).command k = some (encode (.readInt16BE k)))
    ∧ (∀ k, (AsmOp.generic .read (.int 4) false).command k = some (encode (.readInt32LE k)))
    ∧ (∀ k, (AsmOp.generic .read (.int 4) true).command k = some (encode (.readInt32BE k)))
    ∧ (∀ k, (AsmOp.generic .read .single false).command k = some (encode (.readFloatLE k)))
    ∧ (∀ k, (AsmOp.generic .read .single true).command k = some (encode (.readFloatBE k)))
    ∧ (∀ k, (AsmOp.generic .read .double false).command k = some (encode (.readDoubleLE k)))
    ∧ (∀ k, (AsmOp.generic .read .double true).command k = some (encode (.readDoubleBE k)))
    ∧ (∀ be k, (AsmOp.generic .write (.uint 1) be).command k = some (encode (.writeUInt8 false k)))
    ∧ (∀ k, (AsmOp.generic .write (.uint 2) false).command k = some (encode (.writeUInt16LE k)))
    ∧ (∀ k, (AsmOp.generic .write (.uint 2) true).command k = some (encode (.writeUInt16BE k)))
    ∧ (∀ k, (AsmOp.generic .write (.uint 4) false).command k = some (encode (.writeUInt32LE k)))
    ∧ (∀ k, (AsmOp.generic .write (.uint 4) true).command k = some (encode (.writeUInt32BE k)))
    ∧ (∀ be k, (AsmOp.generic .write (.int 1) be).command k = some (encode (.writeInt8 false k)))
    ∧ (∀ k, (AsmOp.generic .write (.int 2) false).command k = some (encode (.writeInt16LE k)))
    ∧ (∀ k, (AsmOp.generic .write (.int 2) true).command k = some (encode (.writeInt16BE k)))
    ∧ (∀ k, (AsmOp.generic .write (.int 4) false).command k = some (encode (.writeInt32LE k)))
    ∧ (∀ k, (AsmOp.generic .write (.int 4) true).command k = some (encode (.writeInt32BE k)))
    ∧ (∀ k, (AsmOp.generic .write .single false).command k = some (encode (.writeFloatLE k)))
    ∧ (∀ k, (AsmOp.generic .write .single true).command k = some (encode (.writeFloatBE k)))
    ∧ (∀ k, (AsmOp.generic .write .double false).command k = some (encode (.writeDoubleLE k)))
    ∧ (∀ k, (AsmOp.generic .write .double true).command k = some (encode (.writeDoubleBE k)))
    ∧ (∀ dir w be k, w ≠ 1 → w ≠ 2 → w ≠ 4 →
        (AsmOp.generic dir (.uint w) be).command k = none
          ∧ (AsmOp.generic dir (.int w) be).command k = none)
    ∧ ∀ operand : List Char,
        genericOf "readFP".toList operand
            = (if operand = "single".toList then some (.read, .single)
              else if operand = "double".toList then some (.read, .double) else none)
          ∧ genericOf "writeFP".toList operand
            = (if operand = "single".toList then some (.write, .single)
              else if operand = "double".toList then some (.write, .double) else none)

/-- When the host's next event issues ports p, reserved words included, step is the transaction on the state with the ports driven to p and the event taken, and nothing else around it; when p.cmd decodes to i, that is exec i; and step after withFetchWord with the number of a word is the transaction on the state with that word on CMD, exec i when the word decodes to i. (The event list is the model's choice, log 11.) -/
def Obligations.StepRunsTheDecodedInstruction : Prop :=
  (∀ (s : State) p rest, s.events = .issue p :: rest →
      step s = transaction { s with inputs := p, events := rest }
        ∧ ∀ i, decode p.cmd = .instr i → step s = exec i { s with inputs := p, events := rest })
    ∧ ∀ (s : State) (w : Command),
        step (s.withFetchWord 8 w.toNat) = transaction { s with inputs := { s.inputs with cmd := w } }
          ∧ ∀ i, decode w = .instr i →
            step (s.withFetchWord 8 w.toNat) = exec i { s with inputs := { s.inputs with cmd := w } }

/-- With no host event the step changes nothing. A transaction of ports p during which a reset arrives is abandoned: the step answers a next state with the output ports at their reset values (STATUS = NONE, CAUSE = 0, RESULT_VALID = 0, RESULT holding no value), the input ports as driven, BUF_LEN as before, and the UNSPECIFIED outcome recorded; the statement says nothing about any byte of BUF. A transaction during which the host changes an input is the fault UNSPECIFIED. No step clears a recorded UNSPECIFIED outcome, and only a reset during a transaction records one. (That waiting is a step that changes nothing is the model's choice, log 11; that a race, a failing check in skip mode and an input change stop the run is R137, log 12; that an abandoned transaction is recorded and the run goes on is the model's reading, log 22.) -/
def Obligations.WaitingAndDisturbedTransactions : Prop :=
  (∀ s : State, s.events = [] → step s = .next s)
    ∧ (∀ (s : State) p rest, s.events = .resetDuring p :: rest →
        ∃ t, step s = .next t ∧ t.status = 0b00 ∧ t.cause = 0 ∧ t.resultValid = false
          ∧ t.readResult = none ∧ t.inputs = p ∧ t.bufLen = s.bufLen ∧ t.events = rest
          ∧ t.recorded = some .resetDuring)
    ∧ (∀ (s : State) p rest, s.events = .inputsChangedDuring p :: rest →
        step s = .fault (.unspecified .inputsChanged))
    ∧ ∀ s t : State, step s = .next t →
        t.recorded = s.recorded
          ∨ (t.recorded = some .resetDuring ∧ ∃ p rest, s.events = .resetDuring p :: rest)

/-- R151, R32: in State.reset, and after a reset event in every state, STATUS = NONE, CAUSE = 0, RESULT_VALID = 0 and RESULT holds no value; the reset event leaves BUF, BUF_LEN and the input ports as they were. -/
def Obligations.ResetClearsTheOutputs : Prop :=
  (State.reset.status = 0b00 ∧ State.reset.cause = 0 ∧ State.reset.resultValid = false
      ∧ State.reset.readResult = none)
    ∧ ∀ (s : State) rest, s.events = .reset :: rest →
        ∃ t, step s = .next t ∧ t.status = 0b00 ∧ t.cause = 0 ∧ t.resultValid = false
          ∧ t.readResult = none ∧ t.buf = s.buf ∧ t.bufLen = s.bufLen ∧ t.inputs = s.inputs
          ∧ t.events = rest

/-- The host's read of RESULT changes nothing while RESULT_VALID = 1 and is a fault while it is 0; a read of STATUS, CAUSE or RESULT_VALID changes nothing. (That a read of CAUSE without a violation succeeds is the model's reading of R22, log 18.) -/
def Obligations.ReadingResultNeedsAValue : Prop :=
  ∀ (s : State) port rest, s.events = .readPort port :: rest →
    step s
      = if port = .result ∧ s.resultValid = false then .fault .resultHoldsNoValue
        else .next { s with events := rest }

/-- Attaching a buffer of n bytes sets BUF_LEN to n and BUF[k] to its k-th byte, and changes no port. A host write at an address of a canonical buffer changes that byte and no other, and no port; at an address the buffer does not have it is a fault (log 17). (That addresses beyond the attached bytes then read 0 is the model's choice, log 6.) -/
def Obligations.HostAttachesAndWritesTheBuffer : Prop :=
  (∀ (s : State) bytes rest, s.events = .attach bytes :: rest →
      ∃ t, step s = .next t ∧ t.bufLen = bytes.length
        ∧ (∀ k b, bytes[k]? = some b → t.buf.read k = b)
        ∧ (∀ a, bytes.length ≤ a → t.buf.read a = 0)
        ∧ t.inputs = s.inputs ∧ t.status = s.status ∧ t.cause = s.cause ∧ t.result = s.result
        ∧ t.resultValid = s.resultValid ∧ t.events = rest)
    ∧ ∀ (s : State) a v rest, s.buf.wf → s.events = .hostWrite a v :: rest →
        (a < s.bufLen →
          ∃ t, step s = .next t ∧ t.buf.read a = v ∧ (∀ b, b ≠ a → t.buf.read b = s.buf.read b)
            ∧ t.bufLen = s.bufLen ∧ t.inputs = s.inputs ∧ t.status = s.status ∧ t.cause = s.cause
            ∧ t.result = s.result ∧ t.resultValid = s.resultValid ∧ t.events = rest)
          ∧ (s.bufLen ≤ a → step s = .fault .outsideBuffer)

/-- Beside a transaction of any ports, reserved words and missing offsets included: a write of any byte of BUF by the issuing host, a write by anyone to an address of the span (that of a legal command with its offset present), and a read by anyone of an address that a completing write writes, are the data race fault. Every other read leaves the transaction as it is. Every other write within the buffer takes effect beside it, and one that reaches outside the buffer is the fault outsideBuffer; where the transaction is UNSPECIFIED, so is the step. (That a rejected transaction's span counts, that a reserved word has no span, that the access is performed after the transaction, and the fault outside the buffer are the model's readings and choices, logs 13, 14 and 17.) -/
def Obligations.OverlappingAccessIsADataRace : Prop :=
  ∀ (s : State) p who access rest, s.events = .issueBeside p who access :: rest →
    (Races { s with inputs := p, events := rest } who access →
        step s = .fault (.unspecified .dataRace))
      ∧ (¬ Races { s with inputs := p, events := rest } who access →
        (∀ lo len, access = .read lo len →
            step s = transaction { s with inputs := p, events := rest })
          ∧ (∀ r, transaction { s with inputs := p, events := rest } = .fault r → step s = .fault r)
          ∧ ∀ lo bytes t, access = .write lo bytes →
            transaction { s with inputs := p, events := rest } = .next t →
            (s.bufLen < lo + bytes.length → step s = .fault .outsideBuffer)
              ∧ (lo + bytes.length ≤ s.bufLen → s.buf.wf →
                ∃ u, step s = .next u ∧ (∀ k b, bytes[k]? = some b → u.buf.read (lo + k) = b)
                  ∧ (∀ a, a < lo ∨ lo + bytes.length ≤ a → u.buf.read a = t.buf.read a)
                  ∧ u.status = t.status ∧ u.cause = t.cause ∧ u.result = t.result
                  ∧ u.resultValid = t.resultValid ∧ Kept t u))

/-- R39: for every list of w bytes, Assemble with be = 1 is the sum of bytes[k] * 256^(w-1-k), with be = 0 the sum of bytes[k] * 256^k, and it is below 2^(8w). -/
def Obligations.AssembleIsTheWeightedSum : Prop :=
  ∀ (bytes : List Byte) (be : Bool),
    assemble bytes be
        = ∑ k ∈ Finset.range bytes.length,
            (bytes.getD k 0).toNat * 256 ^ (if be then bytes.length - 1 - k else k)
      ∧ assemble bytes be < 2 ^ (8 * bytes.length)

/-- R40: for every u below 2^(8w), Disassemble(u, w, be) has w bytes, its byte k is floor(u / 256^(w-1-k)) mod 256 for be = 1 and floor(u / 256^k) mod 256 for be = 0, and Assemble of it in the same order is u. -/
def Obligations.DisassembleInvertsAssemble : Prop :=
  ∀ (u w : Nat) (be : Bool), u < 2 ^ (8 * w) →
    (disassemble u w be).length = w
      ∧ (∀ k, k < w →
          ((disassemble u w be).getD k 0).toNat = u / 256 ^ (if be then w - 1 - k else k) % 256)
      ∧ assemble (disassemble u w be) be = u

/-- R81, R82: for w = 1, 2, 4 and every pattern u below 2^(8w), u2s(u, w) is u below 2^(8w-1) and u - 2^(8w) from there on, equals the two's-complement reading of the 8w-bit word, and lies in its range; for every integer s of the range, s2u(s, w) is s or s + 2^(8w) and lies in [0, 2^(8w) - 1]; the two undo one another. -/
def Obligations.TwosComplementUnitConverts : Prop :=
  ∀ w, w = 1 ∨ w = 2 ∨ w = 4 →
    (∀ u, u < 2 ^ (8 * w) →
        u2s u w = signedOf (8 * w) u ∧ u2s u w = (BitVec.ofNat (8 * w) u).toInt
          ∧ -2 ^ (8 * w - 1) ≤ u2s u w ∧ u2s u w ≤ 2 ^ (8 * w - 1) - 1 ∧ s2u (u2s u w) w = u)
      ∧ ∀ r : Int, -2 ^ (8 * w - 1) ≤ r → r ≤ 2 ^ (8 * w - 1) - 1 →
          (s2u r w : Int) = patternOf (8 * w) r ∧ s2u r w < 2 ^ (8 * w) ∧ u2s (s2u r w) w = r

/-- R99: for every word that is not a NaN, f64word of its value and sign is that word, and two such words with the same value and sign are the same; for every integer r with |r| < 2^53 the word of r has value r and the sign of r, 0 giving +0; the rule's two examples hold. -/
def Obligations.Binary64WordIsUnique : Prop :=
  (∀ w : Word64, f64val w ≠ .nan → f64word (f64val w) (f64sign w) = some w)
    ∧ (∀ v w : Word64, f64val v ≠ .nan → f64val v = f64val w → f64sign v = f64sign w → v = w)
    ∧ (∀ r : Int, r.natAbs < 2 ^ 53 →
        f64val (intWord r) = .ofInt r ∧ f64sign (intWord r) = decide (r < 0))
    ∧ intWord 0 = 0 ∧ intWord 4660 = 0x40B2340000000000 ∧ intWord (-1) = 0xBFF0000000000000

/-- R100, R101: Unpack of n bytes is the value of the fields of the assembled word W: for single W[31], W[30:23] and W[22:0], for double W[63], W[62:52] and W[51:0]. For single (eLen 8, bias 127) and double (eLen 11, bias 1023), the all-ones exponent gives an infinity of the sign for fraction 0 and NaN otherwise; exponent 0 gives (-1)^s * f * 2^(1 - bias - mLen); every other exponent gives (-1)^s * (2^mLen + f) * 2^(e - bias - mLen), as rational numbers. -/
def Obligations.FloatFieldsGiveTheIeeeValue : Prop :=
  (∀ W : Word32, single.valueOf W.toNat
        = fpVal single (W.getLsbD 31) (W.extractLsb' 23 8).toNat (W.extractLsb' 0 23).toNat)
    ∧ (∀ W : Word64, double.valueOf W.toNat
        = fpVal double (W.getLsbD 63) (W.extractLsb' 52 11).toNat (W.extractLsb' 0 52).toNat)
    ∧ (∀ (bytes : List Byte) (be : Bool),
        (bytes.length = 4 → unpack single bytes be
            = single.valueOf (BitVec.ofNat 32 (assemble bytes be) : Word32).toNat
          ∧ unpackSign single bytes be = (BitVec.ofNat 32 (assemble bytes be) : Word32).getLsbD 31)
        ∧ (bytes.length = 8 → unpack double bytes be
            = double.valueOf (BitVec.ofNat 64 (assemble bytes be) : Word64).toNat
          ∧ unpackSign double bytes be = (BitVec.ofNat 64 (assemble bytes be) : Word64).getLsbD 63))
    ∧ single.eLen = 8 ∧ single.bias = 127 ∧ double.eLen = 11 ∧ double.bias = 1023
    ∧ ∀ (fmt : Format) (s : Bool) (e f : Nat), fmt = single ∨ fmt = double →
        e ≤ 2 ^ fmt.eLen - 1 → f < 2 ^ fmt.mLen →
        (e = 2 ^ fmt.eLen - 1 → f = 0 → fpVal fmt s e f = .inf s)
          ∧ (e = 2 ^ fmt.eLen - 1 → f ≠ 0 → fpVal fmt s e f = .nan)
          ∧ (e = 0 → ∃ u : Int, fpVal fmt s e f = .fin u
              ∧ (u : ℚ) / 2 ^ 1074
                = (-1) ^ s.toNat * f * (2 : ℚ) ^ ((1 : ℤ) - fmt.bias - fmt.mLen))
          ∧ (0 < e → e < 2 ^ fmt.eLen - 1 → ∃ u : Int, fpVal fmt s e f = .fin u
              ∧ (u : ℚ) / 2 ^ 1074
                = (-1) ^ s.toNat * (2 ^ fmt.mLen + f) * (2 : ℚ) ^ ((e : ℤ) - fmt.bias - fmt.mLen))

/-- R108: for every finite value within FLT_MAX_BOUND, ROUND32 is the value itself when binary32 holds it, and otherwise the greatest binary32 value below it or the least above it; it does not change the side of zero, and a zero result is packed with the sign of VALUE; the default choice gives a binary32 value at the least distance, with an even significand when two are equally near. -/
def Obligations.SingleRoundingIsFaithful : Prop :=
  ∀ u : Int, -((2 ^ 24 - 1) * 2 ^ (104 + 1074)) ≤ u → u ≤ (2 ^ 24 - 1) * 2 ^ (104 + 1074) →
    IsSingle (round32 u) ∧ (IsSingle u → round32 u = u)
      ∧ ((round32 u ≤ u ∧ ∀ z, IsSingle z → z ≤ u → z ≤ round32 u)
          ∨ (u ≤ round32 u ∧ ∀ z, IsSingle z → u ≤ z → round32 u ≤ z))
      ∧ (0 ≤ u → 0 ≤ round32 u) ∧ (u ≤ 0 → round32 u ≤ 0)
      ∧ (∀ v : Word64, f64val v = .fin u → round32 u = 0 →
          (pack32With round32 v).getLsbD 31 = f64sign v)
      ∧ IsSingle (round32With nearestEven u)
      ∧ ∀ z, IsSingle z → z ≠ round32With nearestEven u →
          (round32With nearestEven u - u).natAbs ≤ (z - u).natAbs
            ∧ ((round32With nearestEven u - u).natAbs = (z - u).natAbs →
                (f32word (round32With nearestEven u) false).getLsbD 0 = false)

/-- R107: for every binary32 value, f32word has that value, has the given sign when the value is zero, and is the only word so; the rule's three examples hold. -/
def Obligations.Binary32WordIsUnique : Prop :=
  (∀ (u : Int) (sgn : Bool), IsSingle u →
      single.valueOf (f32word u sgn).toNat = .fin u
        ∧ (u = 0 → (f32word u sgn).getLsbD 31 = sgn)
        ∧ ∀ w : Word32, single.valueOf w.toNat = .fin u → (u = 0 → w.getLsbD 31 = sgn) →
            w = f32word u sgn)
    ∧ f32word (3 * 2 ^ 1073) false = 0x3FC00000
    ∧ f32word ((2 ^ 24 - 1) * 2 ^ (104 + 1074)) false = 0x7F7FFFFF
    ∧ f32word (2 ^ 925) false = 0x00000001

/-- For every unsigned width and byte order, in either mode of each: from every state with a canonical buffer, an in-bounds span and VALUE an integer r of the width, the write answers a next state, the read from it answers a next state, RESULT_VALID = 1 and RESULT is the word of r. -/
def Obligations.UnsignedWriteThenReadReturnsTheValue : Prop :=
  ∀ w wr rd, UnsignedPair w wr rd → ∀ (k k' : Bool) (s : State) (r : Int),
    s.buf.wf → spanInBuffer w s → valueIsInteger s r → 0 ≤ r → r ≤ 2 ^ (8 * w) - 1 →
    ∃ t u, exec (wr k) s = .next t ∧ exec (rd k') t = .next u ∧ u.status = 0b01
      ∧ u.resultValid = true ∧ u.result = intWord r ∧ f64val u.result = .ofInt r

/-- For every signed width and byte order: a signed write of r followed by the signed read returns r; at every in-bounds offset the signed read returns the two's-complement reading of the integer the unsigned read returns; and the signed write of r leaves every byte as the unsigned write of r's pattern would. -/
def Obligations.SignedCodecIsTheTwosComplementView : Prop :=
  ∀ w wr rd uwr urd, SignedPair w wr rd uwr urd → ∀ (k k' : Bool) (s : State), spanInBuffer w s →
    (∀ r : Int, s.buf.wf → valueIsInteger s r → -2 ^ (8 * w - 1) ≤ r → r ≤ 2 ^ (8 * w - 1) - 1 →
        ∃ t u, exec (wr k) s = .next t ∧ exec (rd k') t = .next u ∧ u.status = 0b01
          ∧ u.resultValid = true ∧ u.result = intWord r ∧ f64val u.result = .ofInt r)
      ∧ (∃ t u, ∃ p : Nat, exec (rd k) s = .next t ∧ exec (urd k') s = .next u ∧ p < 2 ^ (8 * w)
          ∧ u.result = intWord p ∧ t.result = intWord (signedOf (8 * w) p))
      ∧ ∀ (r : Int) (v : Word64), valueIsInteger s r → -2 ^ (8 * w - 1) ≤ r →
          r ≤ 2 ^ (8 * w - 1) - 1 → f64val v = .ofInt (patternOf (8 * w) r) →
          ∃ t u, exec (wr k) s = .next t
            ∧ exec (uwr k') { s with inputs := { s.inputs with value := v } } = .next u
            ∧ t.buf = u.buf

/-- R119: for every byte order and every finite value, a double write followed by the double read of the same order returns the same VALUE word; for a value within FLT_MAX_BOUND, a single write followed by the single read returns ROUND32 of the value with the sign bit of VALUE, and returns the VALUE word itself exactly when binary32 holds the value; ROUND32 of the value is the nearest binary32 value on one side of it. -/
def Obligations.FloatWriteThenReadReturnsTheValue : Prop :=
  (∀ wr rd, DoublePair wr rd → ∀ (k k' : Bool) (s : State) (x : Int),
      s.buf.wf → spanInBuffer 8 s → s.inputs.valueValid = true → f64val s.inputs.value = .fin x →
      ∃ t u, exec (wr k) s = .next t ∧ exec (rd k') t = .next u ∧ u.status = 0b01
        ∧ u.resultValid = true ∧ u.result = s.inputs.value)
    ∧ ∀ wr rd, SinglePair wr rd → ∀ (k k' : Bool) (s : State) (x : Int),
        s.buf.wf → spanInBuffer 4 s → s.inputs.valueValid = true → f64val s.inputs.value = .fin x →
        -((2 ^ 24 - 1) * 2 ^ (104 + 1074)) ≤ x → x ≤ (2 ^ 24 - 1) * 2 ^ (104 + 1074) →
        ∃ t u, exec (wr k) s = .next t ∧ exec (rd k') t = .next u ∧ u.status = 0b01
          ∧ u.resultValid = true ∧ f64val u.result = .fin (round32 x)
          ∧ f64sign u.result = f64sign s.inputs.value
          ∧ (u.result = s.inputs.value ↔ IsSingle x)
          ∧ ((round32 x ≤ x ∧ ∀ z, IsSingle z → z ≤ x → z ≤ round32 x)
            ∨ (x ≤ round32 x ∧ ∀ z, IsSingle z → x ≤ z → round32 x ≤ z))

/-- From every state with a canonical buffer, if a single or double write answers a next state with STATUS = OK, then reading the same bytes back in the same order completes with a finite value. -/
def Obligations.CompletedFloatWritesStoreFiniteValues : Prop :=
  ∀ wr rd, SinglePair wr rd ∨ DoublePair wr rd → ∀ (k : Bool) (s t : State),
    s.buf.wf → exec (wr k) s = .next t → t.status = 0b01 →
    ∃ u x, exec (rd false) t = .next u ∧ u.status = 0b01 ∧ f64val u.result = .fin x

/-- R129, R130, R131: with the table of checks of R129, if no check of the instruction fails it answers a next state with STATUS = OK, CAUSE = 0 and RESULT_VALID = 1 exactly for a read, the same state in skip mode as in enforce mode; if one fails, enforce mode answers a next state with STATUS = INVARIANT_VIOLATION, CAUSE the code of one that fails, and nothing else changed, and skip mode is the fault UNSPECIFIED. -/
def Obligations.FailingSetDecidesTheOutcome : Prop :=
  (∀ (i : Instr) (s : State),
      ((¬ ∃ c, InFailingSet i s c) →
          ∃ t, exec i s = .next t ∧ t.status = 0b01 ∧ t.cause = 0
            ∧ t.resultValid = decide (i.fields.dir = .read) ∧ Kept s t)
        ∧ ((∃ c, InFailingSet i s c) → i.fields.skip = false →
            ∃ t c, exec i s = .next t ∧ InFailingSet i s c ∧ Rejected s t c)
        ∧ ((∃ c, InFailingSet i s c) → i.fields.skip = true →
            exec i s = .fault (.unspecified .skippedCheckFails)))
    ∧ ∀ (w : Command) (i j : Instr) (s : State), decode w = .instr i → decode (w ||| 2) = .instr j →
        (¬ ∃ c, InFailingSet i s c) → exec j s = exec i s

/-- For every instruction and every state, if exec answers a next state, then the input ports, BUF_LEN and the host's events are unchanged; if it is a read, or STATUS is not OK, no byte of BUF changes; and no byte outside the span of the instruction's width at the offset changes. -/
def Obligations.NoInstructionWritesOutsideItsSpan : Prop :=
  ∀ (i : Instr) (s t : State), exec i s = .next t →
    Kept s t
      ∧ (i.fields.dir = .read ∨ t.status ≠ 0b01 → BufferKept s t)
      ∧ ∀ a, a < s.inputs.offset ∨ s.inputs.offset + fieldWidth i.fields.wsel ≤ a →
          t.buf.read a = s.buf.read a

/-- R133: on every state, a transaction either answers a next state whose STATUS is OK, INVARIANT_VIOLATION or ILLEGAL_COMMAND, or is the fault UNSPECIFIED; UNSPECIFIED only for a legal command with SKIP = 1. -/
def Obligations.EveryTransactionHasOneOfFourOutcomes : Prop :=
  ∀ s : State,
    (∃ t, transaction s = .next t ∧ (t.status = 0b01 ∨ t.status = 0b10 ∨ t.status = 0b11))
      ∨ (transaction s = .fault (.unspecified .skippedCheckFails) ∧ s.inputs.cmd.getLsbD 1 = true
          ∧ ¬ ReservedWord s.inputs.cmd)

/-- R28: for every two states with the same input ports, BUF_LEN, BUF and draws, whatever STATUS, CAUSE, RESULT, RESULT_VALID, the coming events and the recorded outcome are in each, the transaction answers the same outputs, the same BUF and the same state otherwise (each keeps its own events and record), or the same fault. -/
def Obligations.EarlierOutputsNeverInfluenceATransaction : Prop :=
  ∀ s s' : State, s'.inputs = s.inputs → s'.bufLen = s.bufLen → s'.buf = s.buf → s'.draws = s.draws →
    (∀ t, transaction s = .next t →
        transaction s' = .next { t with events := s'.events, recorded := s'.recorded })
      ∧ ∀ r, transaction s = .fault r → transaction s' = .fault r

/-- R46: from every state with a canonical buffer, if an instruction answers a next state t, then from t it answers a next state again, no byte of BUF changes, STATUS and RESULT_VALID are the same, and for a completed read RESULT is the same unless it is a NaN; a completed read itself changes no byte. -/
def Obligations.RepeatingATransactionChangesNothingMore : Prop :=
  ∀ (i : Instr) (s t : State), s.buf.wf → exec i s = .next t →
    (i.fields.dir = .read → BufferKept s t)
      ∧ ∃ u, exec i t = .next u ∧ BufferKept t u ∧ u.status = t.status
          ∧ u.resultValid = t.resultValid
          ∧ (t.resultValid = true → isNaN64 t.result = false → u.result = t.result)
          ∧ (t.resultValid = true → isNaN64 t.result = true → isNaN64 u.result = true)

/-- For every read instruction and two states with the same input ports, BUF_LEN and draws whose bytes agree on the span, if exec answers a next state from the one it does from the other, with the same STATUS, CAUSE, RESULT_VALID and RESULT. -/
def Obligations.ReadsDependOnlyOnTheSpan : Prop :=
  ∀ (i : Instr) (s s' t : State), i.fields.dir = .read → s'.inputs = s.inputs →
    s'.bufLen = s.bufLen → s'.draws = s.draws →
    (∀ a, s.inputs.offset ≤ a → a < s.inputs.offset + fieldWidth i.fields.wsel →
      s'.buf.read a = s.buf.read a) →
    exec i s = .next t →
    ∃ t', exec i s' = .next t' ∧ t'.status = t.status ∧ t'.cause = t.cause
      ∧ t'.resultValid = t.resultValid ∧ t'.result = t.result

/-- a <= b holds in the model exactly when neither is NaN and it holds in the extended reals, and likewise a == b; the floor of a finite value is the integer r with r <= x < r + 1, that of an infinity itself, that of NaN NaN. -/
def Obligations.ComparisonsFollowTheExtendedReals : Prop :=
  (∀ a b : FP, a.le b = true ↔
      ∃ x y, extendedReal a = some x ∧ extendedReal b = some y ∧ x ≤ y)
    ∧ (∀ a b : FP, a.eq b = true ↔
        ∃ x y, extendedReal a = some x ∧ extendedReal b = some y ∧ x = y)
    ∧ (∀ u r : Int, (FP.fin u).floor = .ofInt r ↔ r * 2 ^ 1074 ≤ u ∧ u < (r + 1) * 2 ^ 1074)
    ∧ (∀ neg, (FP.inf neg).floor = .inf neg) ∧ FP.nan.floor = .nan

/-- State.reset is well formed: its buffer is canonical and within BUF_LEN, its output ports hold legal codes, OFFSET and BUF_LEN are within AW, no event is to come. (It rests on the model's reset values, logs 2, 3, 5, 11.) -/
def Obligations.ResetStateIsWellFormed : Prop :=
  Sys2Proof.WellFormed State.reset

/-- From every well-formed state, in particular ones no run from reset reaches, if step answers a next state it is well formed: the buffer stays canonical with no address at or beyond BUF_LEN, CAUSE is 0 unless STATUS = INVARIANT_VIOLATION, where it is 1, 2, 4, 5 or 6 (never 3 or 7), RESULT_VALID = 1 only with STATUS = OK, OFFSET and BUF_LEN stay within AW. -/
def Obligations.EveryStepKeepsStatesWellFormed : Prop :=
  ∀ s t : State, Sys2Proof.WellFormed s → step s = .next t → Sys2Proof.WellFormed t

/-- From every state with nothing recorded whose coming events are transactions with SKIP = 0 or a reserved word, alone or beside an access by anyone that does not race and writes no address outside the buffer, attached buffers, host writes of a byte of the buffer, resets between transactions and reads of ports other than RESULT, whatever their operands, every number of steps answers a next state with nothing recorded: no such run reaches a fault, a refusal or an UNSPECIFIED outcome. (That waiting is a step is the model's choice, log 11; that a write outside the buffer is a fault, log 17.) -/
def Obligations.EnforcedRunsNeverStop : Prop :=
  ∀ s : State, s.recorded = none → EnforcedEvents s.bufLen s.events → Safe s

/-- From every state, in particular ones no run from reset reaches, whose coming events are those of a run in enforce mode on its buffer (transactions with SKIP = 0 or a reserved word, alone or beside an access that does not race and writes no address outside the buffer; attached buffers; host writes of a byte of the buffer; resets between transactions; reads of ports other than RESULT), step answers a next state whose coming events are again such events on its buffer, and what is recorded does not change. (The event list is the model's choice, log 11, and so is the record, log 22; that a write outside the buffer is a fault, log 17.) -/
def Obligations.EveryStepKeepsEnforcedRunsGoing : Prop :=
  ∀ s : State, EnforcedEvents s.bufLen s.events →
    ∃ t, step s = .next t ∧ EnforcedEvents t.bufLen t.events ∧ t.recorded = s.recorded
end

