-- ==== Sys2Proof/Laws/State.lean ====
section
/-! SUPPORT. What each operation on State leaves in each field: one lemma a field, by rfl, for simp. -/

namespace Sys2Proof.Machine

@[simp] theorem State.endWithoutResult_inputs (s : State) (st : Status) (c : Cause) : (s.endWithoutResult st c).inputs = s.inputs := rfl
@[simp] theorem State.endWithoutResult_status (s : State) (st : Status) (c : Cause) : (s.endWithoutResult st c).status = st.code := rfl
@[simp] theorem State.endWithoutResult_cause (s : State) (st : Status) (c : Cause) : (s.endWithoutResult st c).cause = c.code := rfl
@[simp] theorem State.endWithoutResult_result (s : State) (st : Status) (c : Cause) : (s.endWithoutResult st c).result = Config.staleResult s.draws := rfl
@[simp] theorem State.endWithoutResult_resultValid (s : State) (st : Status) (c : Cause) : (s.endWithoutResult st c).resultValid = false := rfl
@[simp] theorem State.endWithoutResult_buf (s : State) (st : Status) (c : Cause) : (s.endWithoutResult st c).buf = s.buf := rfl
@[simp] theorem State.endWithoutResult_bufLen (s : State) (st : Status) (c : Cause) : (s.endWithoutResult st c).bufLen = s.bufLen := rfl
@[simp] theorem State.endWithoutResult_events (s : State) (st : Status) (c : Cause) : (s.endWithoutResult st c).events = s.events := rfl
@[simp] theorem State.endWithoutResult_draws (s : State) (st : Status) (c : Cause) : (s.endWithoutResult st c).draws = s.draws + 1 := rfl
@[simp] theorem State.endWithoutResult_recorded (s : State) (st : Status) (c : Cause) : (s.endWithoutResult st c).recorded = s.recorded := rfl

@[simp] theorem State.completeRead_inputs (s : State) (w : Word64) : (s.completeRead w).inputs = s.inputs := rfl
@[simp] theorem State.completeRead_status (s : State) (w : Word64) : (s.completeRead w).status = 0b01 := rfl
@[simp] theorem State.completeRead_cause (s : State) (w : Word64) : (s.completeRead w).cause = 0 := rfl
@[simp] theorem State.completeRead_result (s : State) (w : Word64) : (s.completeRead w).result = w := rfl
@[simp] theorem State.completeRead_resultValid (s : State) (w : Word64) : (s.completeRead w).resultValid = true := rfl
@[simp] theorem State.completeRead_buf (s : State) (w : Word64) : (s.completeRead w).buf = s.buf := rfl
@[simp] theorem State.completeRead_bufLen (s : State) (w : Word64) : (s.completeRead w).bufLen = s.bufLen := rfl
@[simp] theorem State.completeRead_events (s : State) (w : Word64) : (s.completeRead w).events = s.events := rfl
@[simp] theorem State.completeRead_draws (s : State) (w : Word64) : (s.completeRead w).draws = s.draws + 1 := rfl
@[simp] theorem State.completeRead_recorded (s : State) (w : Word64) : (s.completeRead w).recorded = s.recorded := rfl

@[simp] theorem State.completeWrite_inputs (s : State) (bs : List Byte) : (s.completeWrite bs).inputs = s.inputs := rfl
@[simp] theorem State.completeWrite_status (s : State) (bs : List Byte) : (s.completeWrite bs).status = 0b01 := rfl
@[simp] theorem State.completeWrite_cause (s : State) (bs : List Byte) : (s.completeWrite bs).cause = 0 := rfl
@[simp] theorem State.completeWrite_result (s : State) (bs : List Byte) : (s.completeWrite bs).result = Config.staleResult s.draws := rfl
@[simp] theorem State.completeWrite_resultValid (s : State) (bs : List Byte) : (s.completeWrite bs).resultValid = false := rfl
@[simp] theorem State.completeWrite_buf (s : State) (bs : List Byte) : (s.completeWrite bs).buf = s.buf.writeBytes s.inputs.offset bs := rfl
@[simp] theorem State.completeWrite_bufLen (s : State) (bs : List Byte) : (s.completeWrite bs).bufLen = s.bufLen := rfl
@[simp] theorem State.completeWrite_events (s : State) (bs : List Byte) : (s.completeWrite bs).events = s.events := rfl
@[simp] theorem State.completeWrite_draws (s : State) (bs : List Byte) : (s.completeWrite bs).draws = s.draws + 1 := rfl
@[simp] theorem State.completeWrite_recorded (s : State) (bs : List Byte) : (s.completeWrite bs).recorded = s.recorded := rfl

@[simp] theorem State.raiseInvariantViolation_inputs (s : State) (c : Cause) : (s.raiseInvariantViolation c).inputs = s.inputs := rfl
@[simp] theorem State.raiseInvariantViolation_status (s : State) (c : Cause) : (s.raiseInvariantViolation c).status = 0b10 := rfl
@[simp] theorem State.raiseInvariantViolation_cause (s : State) (c : Cause) : (s.raiseInvariantViolation c).cause = c.code := rfl
@[simp] theorem State.raiseInvariantViolation_result (s : State) (c : Cause) : (s.raiseInvariantViolation c).result = Config.staleResult s.draws := rfl
@[simp] theorem State.raiseInvariantViolation_resultValid (s : State) (c : Cause) : (s.raiseInvariantViolation c).resultValid = false := rfl
@[simp] theorem State.raiseInvariantViolation_buf (s : State) (c : Cause) : (s.raiseInvariantViolation c).buf = s.buf := rfl
@[simp] theorem State.raiseInvariantViolation_bufLen (s : State) (c : Cause) : (s.raiseInvariantViolation c).bufLen = s.bufLen := rfl
@[simp] theorem State.raiseInvariantViolation_events (s : State) (c : Cause) : (s.raiseInvariantViolation c).events = s.events := rfl
@[simp] theorem State.raiseInvariantViolation_draws (s : State) (c : Cause) : (s.raiseInvariantViolation c).draws = s.draws + 1 := rfl
@[simp] theorem State.raiseInvariantViolation_recorded (s : State) (c : Cause) : (s.raiseInvariantViolation c).recorded = s.recorded := rfl

@[simp] theorem State.raiseIllegalCommand_inputs (s : State) : (s.raiseIllegalCommand).inputs = s.inputs := rfl
@[simp] theorem State.raiseIllegalCommand_status (s : State) : (s.raiseIllegalCommand).status = 0b11 := rfl
@[simp] theorem State.raiseIllegalCommand_cause (s : State) : (s.raiseIllegalCommand).cause = 0 := rfl
@[simp] theorem State.raiseIllegalCommand_result (s : State) : (s.raiseIllegalCommand).result = Config.staleResult s.draws := rfl
@[simp] theorem State.raiseIllegalCommand_resultValid (s : State) : (s.raiseIllegalCommand).resultValid = false := rfl
@[simp] theorem State.raiseIllegalCommand_buf (s : State) : (s.raiseIllegalCommand).buf = s.buf := rfl
@[simp] theorem State.raiseIllegalCommand_bufLen (s : State) : (s.raiseIllegalCommand).bufLen = s.bufLen := rfl
@[simp] theorem State.raiseIllegalCommand_events (s : State) : (s.raiseIllegalCommand).events = s.events := rfl
@[simp] theorem State.raiseIllegalCommand_draws (s : State) : (s.raiseIllegalCommand).draws = s.draws + 1 := rfl
@[simp] theorem State.raiseIllegalCommand_recorded (s : State) : (s.raiseIllegalCommand).recorded = s.recorded := rfl

@[simp] theorem State.resetOutputs_inputs (s : State) : (s.resetOutputs).inputs = s.inputs := rfl
@[simp] theorem State.resetOutputs_status (s : State) : (s.resetOutputs).status = 0b00 := rfl
@[simp] theorem State.resetOutputs_cause (s : State) : (s.resetOutputs).cause = 0 := rfl
@[simp] theorem State.resetOutputs_result (s : State) : (s.resetOutputs).result = Config.staleResult s.draws := rfl
@[simp] theorem State.resetOutputs_resultValid (s : State) : (s.resetOutputs).resultValid = false := rfl
@[simp] theorem State.resetOutputs_buf (s : State) : (s.resetOutputs).buf = s.buf := rfl
@[simp] theorem State.resetOutputs_bufLen (s : State) : (s.resetOutputs).bufLen = s.bufLen := rfl
@[simp] theorem State.resetOutputs_events (s : State) : (s.resetOutputs).events = s.events := rfl
@[simp] theorem State.resetOutputs_draws (s : State) : (s.resetOutputs).draws = s.draws + 1 := rfl
@[simp] theorem State.resetOutputs_recorded (s : State) : (s.resetOutputs).recorded = s.recorded := rfl

@[simp] theorem State.abandon_inputs (s : State) : s.abandon.inputs = s.inputs := rfl
@[simp] theorem State.abandon_status (s : State) : s.abandon.status = 0b00 := rfl
@[simp] theorem State.abandon_cause (s : State) : s.abandon.cause = 0 := rfl
@[simp] theorem State.abandon_result (s : State) : s.abandon.result = Config.staleResult s.draws := rfl
@[simp] theorem State.abandon_resultValid (s : State) : s.abandon.resultValid = false := rfl
@[simp] theorem State.abandon_buf (s : State) : s.abandon.buf = Memory.unknown s.draws s.bufLen := rfl
@[simp] theorem State.abandon_bufLen (s : State) : s.abandon.bufLen = s.bufLen := rfl
@[simp] theorem State.abandon_events (s : State) : s.abandon.events = s.events := rfl
@[simp] theorem State.abandon_draws (s : State) : s.abandon.draws = s.draws + 1 := rfl
@[simp] theorem State.abandon_recorded (s : State) : s.abandon.recorded = some .resetDuring := rfl

@[simp] theorem State.drive_inputs (s : State) (p : Inputs) : (s.drive p).inputs = p := rfl
@[simp] theorem State.drive_status (s : State) (p : Inputs) : (s.drive p).status = s.status := rfl
@[simp] theorem State.drive_cause (s : State) (p : Inputs) : (s.drive p).cause = s.cause := rfl
@[simp] theorem State.drive_result (s : State) (p : Inputs) : (s.drive p).result = s.result := rfl
@[simp] theorem State.drive_resultValid (s : State) (p : Inputs) : (s.drive p).resultValid = s.resultValid := rfl
@[simp] theorem State.drive_buf (s : State) (p : Inputs) : (s.drive p).buf = s.buf := rfl
@[simp] theorem State.drive_bufLen (s : State) (p : Inputs) : (s.drive p).bufLen = s.bufLen := rfl
@[simp] theorem State.drive_events (s : State) (p : Inputs) : (s.drive p).events = s.events := rfl
@[simp] theorem State.drive_draws (s : State) (p : Inputs) : (s.drive p).draws = s.draws := rfl
@[simp] theorem State.drive_recorded (s : State) (p : Inputs) : (s.drive p).recorded = s.recorded := rfl

@[simp] theorem State.attach_inputs (s : State) (bs : List Byte) : (s.attach bs).inputs = s.inputs := rfl
@[simp] theorem State.attach_status (s : State) (bs : List Byte) : (s.attach bs).status = s.status := rfl
@[simp] theorem State.attach_cause (s : State) (bs : List Byte) : (s.attach bs).cause = s.cause := rfl
@[simp] theorem State.attach_result (s : State) (bs : List Byte) : (s.attach bs).result = s.result := rfl
@[simp] theorem State.attach_resultValid (s : State) (bs : List Byte) : (s.attach bs).resultValid = s.resultValid := rfl
@[simp] theorem State.attach_buf (s : State) (bs : List Byte) : (s.attach bs).buf = Memory.ofBytes bs := rfl
@[simp] theorem State.attach_bufLen (s : State) (bs : List Byte) : (s.attach bs).bufLen = bs.length := rfl
@[simp] theorem State.attach_events (s : State) (bs : List Byte) : (s.attach bs).events = s.events := rfl
@[simp] theorem State.attach_draws (s : State) (bs : List Byte) : (s.attach bs).draws = s.draws := rfl
@[simp] theorem State.attach_recorded (s : State) (bs : List Byte) : (s.attach bs).recorded = s.recorded := rfl

@[simp] theorem State.issueCommand_inputs (s : State) (c : Command) : (s.issueCommand c).inputs = s.inputs := rfl
@[simp] theorem State.issueCommand_status (s : State) (c : Command) : (s.issueCommand c).status = s.status := rfl
@[simp] theorem State.issueCommand_cause (s : State) (c : Command) : (s.issueCommand c).cause = s.cause := rfl
@[simp] theorem State.issueCommand_result (s : State) (c : Command) : (s.issueCommand c).result = s.result := rfl
@[simp] theorem State.issueCommand_resultValid (s : State) (c : Command) : (s.issueCommand c).resultValid = s.resultValid := rfl
@[simp] theorem State.issueCommand_buf (s : State) (c : Command) : (s.issueCommand c).buf = s.buf := rfl
@[simp] theorem State.issueCommand_bufLen (s : State) (c : Command) : (s.issueCommand c).bufLen = s.bufLen := rfl
@[simp] theorem State.issueCommand_draws (s : State) (c : Command) : (s.issueCommand c).draws = s.draws := rfl
@[simp] theorem State.issueCommand_recorded (s : State) (c : Command) : (s.issueCommand c).recorded = s.recorded := rfl
@[simp] theorem State.issueCommand_events (s : State) (c : Command) :
    (s.issueCommand c).events = .issue { s.inputs with cmd := c } :: s.events := rfl

@[simp] theorem Status.code_none : Status.none.code = 0b00 := rfl
@[simp] theorem Status.code_ok : Status.ok.code = 0b01 := rfl
@[simp] theorem Status.code_invariantViolation : Status.invariantViolation.code = 0b10 := rfl
@[simp] theorem Status.code_illegalCommand : Status.illegalCommand.code = 0b11 := rfl
@[simp] theorem Cause.code_none : Cause.none.code = 0 := rfl

@[simp] theorem State.offset_eq (s : State) : s.offset = s.inputs.offset := rfl
@[simp] theorem State.value_eq (s : State) : s.value = f64val s.inputs.value := rfl

end Sys2Proof.Machine
end

