-- ==== Sys2Proof/Laws/Memory.lean ====
section
/-! SUPPORT. The buffer's operations: what a read gives after a write, and that every write keeps the
canonical form. -/

namespace Sys2Proof.Machine

@[simp] theorem Memory.read_nil (a : Nat) : Memory.read [] a = 0 := rfl

theorem Memory.read_cons (b : Nat) (v : Byte) (m : Memory) (a : Nat) :
    Memory.read ((b, v) :: m) a = if a = b then v else Memory.read m a := rfl

theorem Memory.wf_nil : Memory.wf [] := by simp [Memory.wf]

theorem Memory.wf_cons {b : Nat} {v : Byte} {m : Memory} :
    Memory.wf ((b, v) :: m) ↔ (∀ p ∈ m, b < p.1) ∧ v ≠ 0 ∧ Memory.wf m := by
  simp only [Memory.wf, List.pairwise_cons, List.mem_cons, forall_eq_or_imp]
  tauto

/-- An address below every listed one reads as an unlisted byte. -/
theorem Memory.read_of_forall_lt {m : Memory} {a : Nat} (h : ∀ p ∈ m, a < p.1) :
    Memory.read m a = 0 := by
  induction m with
  | nil => rfl
  | cons p m ih =>
    obtain ⟨b, v⟩ := p
    have hb : a < b := h (b, v) (by simp)
    rw [Memory.read_cons, if_neg (by omega)]
    exact ih fun q hq => h q (by simp [hq])

/-- A write lists no address but the one written and those listed before. -/
theorem Memory.mem_write {m : Memory} {a : Nat} {v : Byte} {p : Host.Cell}
    (h : p ∈ Memory.write m a v) : p = (a, v) ∧ v ≠ 0 ∨ p ∈ m := by
  induction m with
  | nil =>
    rw [Memory.write] at h
    split at h
    · simp at h
    · exact .inl ⟨by simpa using h, ‹_›⟩
  | cons q m ih =>
    obtain ⟨b, u⟩ := q
    rw [Memory.write] at h
    split_ifs at h <;> simp only [List.mem_cons] at h ⊢ <;> tauto

theorem Memory.write_wf {m : Memory} (a : Nat) (v : Byte) (h : m.wf) : (m.write a v).wf := by
  induction m with
  | nil =>
    rw [Memory.write]
    split
    · exact Memory.wf_nil
    · exact Memory.wf_cons.mpr ⟨by simp, ‹_›, Memory.wf_nil⟩
  | cons p m ih =>
    obtain ⟨b, u⟩ := p
    have h0 := h
    obtain ⟨hb, hu, hm⟩ := Memory.wf_cons.mp h
    rw [Memory.write]
    split_ifs with h1 h2 h3 h4
    · exact h0
    · refine Memory.wf_cons.mpr ⟨?_, h2, h0⟩
      intro p hp
      rcases List.mem_cons.mp hp with rfl | hp
      · exact h1
      · exact h1.trans (hb p hp)
    · exact hm
    · exact Memory.wf_cons.mpr ⟨fun p hp => h3 ▸ hb p hp, h4, hm⟩
    · refine Memory.wf_cons.mpr ⟨?_, hu, ih hm⟩
      intro p hp
      rcases Memory.mem_write hp with ⟨rfl, -⟩ | hp
      · show b < a
        omega
      · exact hb p hp

theorem Memory.read_write_same {m : Memory} (a : Nat) (v : Byte) (h : m.wf) :
    (m.write a v).read a = v := by
  induction m with
  | nil => rw [Memory.write]; split <;> simp_all [Memory.read_cons]
  | cons p m ih =>
    obtain ⟨b, u⟩ := p
    obtain ⟨hb, -, hm⟩ := Memory.wf_cons.mp h
    rw [Memory.write]
    split_ifs with h1 h2 h3 h4
    · rw [Memory.read_cons, if_neg (by omega), h2]
      exact Memory.read_of_forall_lt fun p hp => h1.trans (hb p hp)
    · simp [Memory.read_cons]
    · rw [h4]
      exact Memory.read_of_forall_lt fun p hp => h3 ▸ hb p hp
    · simp [Memory.read_cons]
    · rw [Memory.read_cons, if_neg h3, ih hm]

theorem Memory.read_write_other {m : Memory} {a a' : Nat} (v : Byte) (h : a' ≠ a) :
    (m.write a v).read a' = m.read a' := by
  induction m with
  | nil => rw [Memory.write]; split <;> simp [Memory.read_cons, h]
  | cons p m ih =>
    obtain ⟨b, u⟩ := p
    rw [Memory.write]
    split_ifs with h1 h2 h3 h4 <;> simp only [Memory.read_cons, ih, if_neg h]
    · rw [if_neg (by omega)]
    · rw [if_neg (by omega)]

theorem Memory.writeBytes_wf {m : Memory} (o : Nat) (bs : List Byte) (h : m.wf) :
    (m.writeBytes o bs).wf := by
  induction bs generalizing m o with
  | nil => exact h
  | cons b bs ih => exact ih (o + 1) (Memory.write_wf o b h)

theorem Memory.mem_writeBytes {m : Memory} {o : Nat} {bs : List Byte} {p : Host.Cell}
    (h : p ∈ m.writeBytes o bs) : o ≤ p.1 ∧ p.1 < o + bs.length ∨ p ∈ m := by
  induction bs generalizing m o with
  | nil => exact .inr h
  | cons b bs ih =>
    rcases ih h with h | h
    · left
      simp only [List.length_cons]
      omega
    · rcases Memory.mem_write h with ⟨rfl, -⟩ | h
      · left
        simp
      · exact .inr h

theorem Memory.read_writeBytes_outside {m : Memory} {o a : Nat} (bs : List Byte)
    (h : a < o ∨ o + bs.length ≤ a) : (m.writeBytes o bs).read a = m.read a := by
  induction bs generalizing m o with
  | nil => rfl
  | cons b bs ih =>
    simp only [List.length_cons] at h
    show ((m.write o b).writeBytes (o + 1) bs).read a = m.read a
    rw [ih (by omega), Memory.read_write_other b (by omega)]

theorem Memory.read_writeBytes_inside {m : Memory} {o : Nat} (bs : List Byte) (h : m.wf) {k : Nat}
    (hk : k < bs.length) : (m.writeBytes o bs).read (o + k) = bs[k] := by
  induction bs generalizing m o k with
  | nil => simp at hk
  | cons b bs ih =>
    show ((m.write o b).writeBytes (o + 1) bs).read (o + k) = _
    cases k with
    | zero =>
      rw [Memory.read_writeBytes_outside bs (by omega)]
      exact Memory.read_write_same o b h
    | succ k =>
      rw [show o + (k + 1) = o + 1 + k by omega, ih (Memory.write_wf o b h) (by simpa using hk)]
      rfl

@[simp] theorem Memory.length_readBytes (m : Memory) (o w : Nat) : (m.readBytes o w).length = w := by
  induction w generalizing o with
  | zero => rfl
  | succ w ih => simp [Memory.readBytes, ih]

theorem Memory.getElem_readBytes (m : Memory) (o w k : Nat) (hk : k < (m.readBytes o w).length) :
    (m.readBytes o w)[k] = m.read (o + k) := by
  induction w generalizing o k with
  | zero => simp at hk
  | succ w ih =>
    cases k with
    | zero => rfl
    | succ k =>
      simp only [Memory.readBytes, List.getElem_cons_succ]
      rw [ih, show o + 1 + k = o + (k + 1) by omega]

/-- Reading the bytes just written gives them back (20_memory R37, R38). -/
theorem Memory.readBytes_writeBytes {m : Memory} (o : Nat) (bs : List Byte) (h : m.wf) :
    (m.writeBytes o bs).readBytes o bs.length = bs := by
  apply List.ext_getElem (by simp)
  intro k h1 h2
  rw [Memory.getElem_readBytes, Memory.read_writeBytes_inside bs h h2]

/-- Bytes read depend only on what their addresses read as. -/
theorem Memory.readBytes_congr {m n : Memory} {o w : Nat}
    (h : ∀ a, o ≤ a → a < o + w → m.read a = n.read a) : m.readBytes o w = n.readBytes o w := by
  apply List.ext_getElem (by simp)
  intro k h1 h2
  rw [Memory.getElem_readBytes, Memory.getElem_readBytes]
  simp only [Memory.length_readBytes] at h1
  exact h _ (by omega) (by omega)

theorem Memory.ofBytes_wf (bs : List Byte) : (Memory.ofBytes bs).wf :=
  Memory.writeBytes_wf 0 bs Memory.wf_nil

/-- Every byte listed of an attached buffer stands within its length. -/
theorem Memory.mem_ofBytes {bs : List Byte} {p : Host.Cell} (h : p ∈ Memory.ofBytes bs) :
    p.1 < bs.length := by
  rcases Memory.mem_writeBytes h with h | h
  · simpa using h.2
  · cases h

theorem Memory.unknown_wf (draw len : Nat) : (Memory.unknown draw len).wf := Memory.ofBytes_wf _

theorem Memory.mem_unknown {draw len : Nat} {p : Host.Cell} (h : p ∈ Memory.unknown draw len) :
    p.1 < len := by
  simpa using Memory.mem_ofBytes h

/-- Every byte of an unknown buffer is a free value. -/
theorem Memory.read_unknown (draw : Nat) {len a : Nat} (h : a < len) :
    (Memory.unknown draw len).read a = Config.abandonedByte draw a := by
  have := Memory.read_writeBytes_inside (o := 0) ((List.range len).map (Config.abandonedByte draw))
    Memory.wf_nil (k := a) (by simpa using h)
  rw [Nat.zero_add] at this
  rw [Memory.unknown, Memory.ofBytes, this]
  simp

/-- In the canonical form equal memories are equal data: what every address reads as decides the list. -/
theorem Memory.ext_read {m n : Memory} (hm : m.wf) (hn : n.wf) (h : ∀ a, m.read a = n.read a) : m = n := by
  induction m generalizing n with
  | nil =>
    cases n with
    | nil => rfl
    | cons q n =>
      obtain ⟨c, v⟩ := q
      have hc := h c
      simp only [Memory.read_nil, Memory.read_cons, if_pos] at hc
      exact absurd hc.symm (Memory.wf_cons.mp hn).2.1
  | cons p m ih =>
    obtain ⟨b, u⟩ := p
    obtain ⟨hb, hu, hm'⟩ := Memory.wf_cons.mp hm
    cases n with
    | nil =>
      have hc := h b
      simp only [Memory.read_nil, Memory.read_cons, if_pos] at hc
      exact absurd hc hu
    | cons q n =>
      obtain ⟨c, v⟩ := q
      obtain ⟨hc, hv, hn'⟩ := Memory.wf_cons.mp hn
      have hbc : b = c := by
        rcases Nat.lt_trichotomy b c with hlt | heq | hlt
        · have h1 := h b
          rw [Memory.read_cons, if_pos rfl, Memory.read_of_forall_lt] at h1
          · exact absurd h1 hu
          · intro q hq
            rcases List.mem_cons.mp hq with rfl | hq
            · exact hlt
            · exact hlt.trans (hc q hq)
        · exact heq
        · have h1 := h c
          rw [Memory.read_cons c, if_pos rfl, Memory.read_of_forall_lt] at h1
          · exact absurd h1.symm hv
          · intro q hq
            rcases List.mem_cons.mp hq with rfl | hq
            · exact hlt
            · exact hlt.trans (hb q hq)
      subst hbc
      have huv := h b
      simp only [Memory.read_cons, if_pos] at huv
      rw [huv, ih hm' hn' fun a => ?_]
      by_cases hab : a = b
      · rw [hab, Memory.read_of_forall_lt hb, Memory.read_of_forall_lt hc]
      · simpa [Memory.read_cons, hab] using h a

end Sys2Proof.Machine
end

