-- ==== Sys2Proof/Laws/Codec.lean ====
section
/-! SUPPORT. The byte-order converter: lengths, bounds, the bytes it takes apart and puts together. -/

namespace Sys2Proof.Machine

@[simp] theorem assembleLE_nil : assembleLE [] = 0 := rfl

@[simp] theorem assembleLE_cons (b : Byte) (bs : List Byte) :
    assembleLE (b :: bs) = b.toNat + 256 * assembleLE bs := rfl

@[simp] theorem length_disassembleLE (u w : Nat) : (disassembleLE u w).length = w := by
  induction w generalizing u with
  | zero => rfl
  | succ w ih => simp [disassembleLE, ih]

@[simp] theorem length_disassemble (u w : Nat) (be : Bool) : (disassemble u w be).length = w := by
  cases be <;> simp [disassemble]

theorem assembleLE_append (as bs : List Byte) :
    assembleLE (as ++ bs) = assembleLE as + 256 ^ as.length * assembleLE bs := by
  induction as with
  | nil => simp
  | cons a as ih =>
    simp only [List.cons_append, assembleLE_cons, ih, List.length_cons, pow_succ]
    ring

theorem assembleLE_lt (bs : List Byte) : assembleLE bs < 256 ^ bs.length := by
  induction bs with
  | nil => simp
  | cons b bs ih =>
    have hb : b.toNat < 256 := b.isLt
    simp only [assembleLE_cons, List.length_cons, pow_succ]
    omega

/-- An assembled field of `w` bytes is below 2^(8w) (20_memory R39). -/
theorem assemble_lt (bs : List Byte) (be : Bool) : assemble bs be < 2 ^ (8 * bs.length) := by
  rw [pow_mul]
  cases be
  · simpa [assemble] using assembleLE_lt bs
  · simpa [assemble] using assembleLE_lt bs.reverse

/-- The k-th byte taken apart, least significant first (20_memory R40). -/
theorem getElem_disassembleLE (u w k : Nat) (hk : k < (disassembleLE u w).length) :
    (disassembleLE u w)[k] = BitVec.ofNat 8 (u / 256 ^ k) := by
  induction w generalizing u k with
  | zero => simp at hk
  | succ w ih =>
    cases k with
    | zero => simp [disassembleLE]
    | succ k =>
      simp only [disassembleLE, List.getElem_cons_succ]
      rw [ih, pow_succ', Nat.div_div_eq_div_mul]

/-- Byte k of Disassemble (20_memory R40): floor(u / 256^k) mod 256, counted from the other end for
big-endian. -/
theorem getElem_disassemble (u w : Nat) (be : Bool) (k : Nat) (hk : k < (disassemble u w be).length) :
    (disassemble u w be)[k] = BitVec.ofNat 8 (u / 256 ^ (if be then w - 1 - k else k)) := by
  cases be
  · exact getElem_disassembleLE u w k (by simpa using hk)
  · simp [disassemble, List.getElem_reverse, getElem_disassembleLE]

/-- Putting together the little-endian bytes of `u` gives `u` modulo the field. -/
theorem assembleLE_disassembleLE (u w : Nat) : assembleLE (disassembleLE u w) = u % 256 ^ w := by
  induction w generalizing u with
  | zero => simp [disassembleLE, Nat.mod_one]
  | succ w ih =>
    rw [disassembleLE, assembleLE_cons, ih, BitVec.toNat_ofNat, pow_succ' 256, Nat.mod_mul]

/-- Assemble undoes Disassemble in the same byte order (20_memory R40). -/
theorem assemble_disassemble {u w : Nat} (be : Bool) (h : u < 2 ^ (8 * w)) :
    assemble (disassemble u w be) be = u := by
  have h' : u % 256 ^ w = u := Nat.mod_eq_of_lt (by rwa [pow_mul] at h)
  cases be <;> simp [assemble, disassemble, assembleLE_disassembleLE, h']

end Sys2Proof.Machine
end

