-- ==== Sys2Proof/Laws/Float.lean ====
section
/-! SUPPORT. The IEEE-754 unit: a word is its sign, its exponent and fraction bits; the bits of a
magnitude and the magnitude of bits undo one another; which magnitudes a format holds exactly. -/

namespace Sys2Proof.Machine

@[simp] theorem single_mLen : single.mLen = 23 := rfl
@[simp] theorem single_n : single.n = 4 := rfl
@[simp] theorem double_mLen : double.mLen = 52 := rfl
@[simp] theorem double_n : double.n = 8 := rfl
@[simp] theorem single_eLen : single.eLen = 8 := rfl
@[simp] theorem double_eLen : double.eLen = 11 := rfl
@[simp] theorem single_emax : single.emax = 255 := rfl
@[simp] theorem double_emax : double.emax = 2047 := rfl
@[simp] theorem single_ulpExp : single.ulpExp = 925 := rfl
@[simp] theorem double_ulpExp : double.ulpExp = 0 := rfl

@[simp] theorem withSign_natAbs (s : Bool) (m : Nat) : (withSign s m).natAbs = m := by
  cases s <;> simp [withSign]

theorem withSign_zero (s : Bool) : withSign s 0 = 0 := by cases s <;> rfl

theorem withSign_eq_zero {s : Bool} {m : Nat} : withSign s m = 0 ↔ m = 0 := by
  cases s <;> simp [withSign]

/-- The sign of a value that is not zero is the sign it was given. -/
theorem withSign_neg {s : Bool} {m : Nat} (h : m ≠ 0) : decide (withSign s m < 0) = s := by
  cases s
  · simp [withSign]
  · simp only [withSign, if_true, decide_eq_true_eq]
    omega

theorem withSign_natAbs_self (u : Int) : withSign (decide (u < 0)) u.natAbs = u := by
  unfold withSign
  by_cases h : u < 0
  · rw [if_pos (by simpa using h)]
    omega
  · rw [if_neg (by simpa using h)]
    omega

/-- The sign bit packed for a value with a sign is that sign, whether the value is zero or not. -/
theorem signBitOf_withSign (s : Bool) (m : Nat) : signBitOf (withSign s m) s = s := by
  unfold signBitOf
  by_cases h : m = 0
  · simp [withSign_eq_zero, h]
  · simp [withSign_eq_zero, h, withSign_neg h]

/-! ### Bits and magnitudes -/

theorem bitsMagnitude_of_zero_exp {L b : Nat} (h : b < 2 ^ L) : bitsMagnitude L b = b := by
  rw [bitsMagnitude, Nat.div_eq_of_lt h, if_pos rfl, Nat.mod_eq_of_lt h]

/-- The magnitude of exponent bits e + 1 and fraction bits f. -/
theorem bitsMagnitude_normal {L e f : Nat} (h : f < 2 ^ L) :
    bitsMagnitude L ((e + 1) * 2 ^ L + f) = (2 ^ L + f) * 2 ^ e := by
  have h1 : ((e + 1) * 2 ^ L + f) / 2 ^ L = e + 1 := by
    rw [Nat.add_comm, Nat.add_mul_div_right _ _ (by positivity), Nat.div_eq_of_lt h, Nat.zero_add]
  have h2 : ((e + 1) * 2 ^ L + f) % 2 ^ L = f := by
    rw [Nat.add_comm, Nat.add_mul_mod_self_right, Nat.mod_eq_of_lt h]
  rw [bitsMagnitude, h1, h2, if_neg (by omega), Nat.add_sub_cancel]

/-- Every number of bits is a subnormal's or a normal's. -/
theorem bits_cases (L b : Nat) :
    b < 2 ^ L ∨ ∃ e f, f < 2 ^ L ∧ b = (e + 1) * 2 ^ L + f := by
  by_cases h : b < 2 ^ L
  · exact .inl h
  · right
    have hpos : 0 < 2 ^ L := by positivity
    have h1 : 1 ≤ b / 2 ^ L := (Nat.one_le_div_iff hpos).mpr (by omega)
    refine ⟨b / 2 ^ L - 1, b % 2 ^ L, Nat.mod_lt _ hpos, ?_⟩
    rw [Nat.sub_add_cancel h1, Nat.mul_comm]
    exact (Nat.div_add_mod b (2 ^ L)).symm

theorem log2_normal {L e f : Nat} (h : f < 2 ^ L) : ((2 ^ L + f) * 2 ^ e).log2 = L + e := by
  have h1 : 2 ^ (L + e) ≤ (2 ^ L + f) * 2 ^ e := by
    rw [pow_add]
    exact Nat.mul_le_mul_right _ (by omega)
  have h2 : (2 ^ L + f) * 2 ^ e < 2 ^ (L + e + 1) := by
    rw [show L + e + 1 = (L + 1) + e by omega, pow_add 2 (L + 1), pow_succ]
    exact Nat.mul_lt_mul_of_pos_right (by omega) (by positivity)
  have h0 : (2 ^ L + f) * 2 ^ e ≠ 0 := by positivity
  exact (Nat.log2_eq_iff h0).mpr ⟨h1, h2⟩

/-- A magnitude's bits are those it came from (42_float R99, R107: the word is unique). -/
theorem magnitudeBits_bitsMagnitude (L b : Nat) : magnitudeBits L (bitsMagnitude L b) = b := by
  rcases bits_cases L b with h | ⟨e, f, hf, rfl⟩
  · rw [bitsMagnitude_of_zero_exp h, magnitudeBits, if_pos h]
  · have h1 : 2 ^ L ≤ (2 ^ L + f) * 2 ^ e :=
      (Nat.le_add_right _ _).trans (Nat.le_mul_of_pos_right _ (by positivity))
    rw [bitsMagnitude_normal hf, magnitudeBits, if_neg (by omega), log2_normal hf,
      Nat.add_sub_cancel_left, Nat.mul_div_cancel _ (by positivity), Nat.add_sub_cancel_left,
      show L + e + 1 - L = e + 1 by omega]

/-- Bits of a magnitude, taken back: the magnitude with the bits below its last one dropped. -/
theorem bitsMagnitude_magnitudeBits {L m : Nat} :
    bitsMagnitude L (magnitudeBits L m) = if m < 2 ^ L then m else m / 2 ^ (m.log2 - L) * 2 ^ (m.log2 - L) := by
  by_cases h : m < 2 ^ L
  · rw [magnitudeBits, if_pos h, if_pos h, bitsMagnitude_of_zero_exp h]
  · have hm : m ≠ 0 := by
      rintro rfl
      exact h (by positivity)
    obtain ⟨h1, h2⟩ := (Nat.log2_eq_iff hm).mp rfl
    have hL : L ≤ m.log2 := (Nat.le_log2 hm).mpr (by omega)
    obtain ⟨j, hj⟩ := Nat.exists_eq_add_of_le hL
    rw [hj] at h1 h2
    have hj' : L + j - L = j := by omega
    rw [magnitudeBits, if_neg h, if_neg h, hj, hj']
    have h3 : 2 ^ L ≤ m / 2 ^ j := by
      rw [Nat.le_div_iff_mul_le (by positivity), ← pow_add]
      exact h1
    have h4 : m / 2 ^ j < 2 ^ L * 2 := by
      rw [Nat.div_lt_iff_lt_mul (by positivity), ← pow_succ, ← pow_add]
      rwa [show L + 1 + j = L + j + 1 by omega]
    rw [show L + j + 1 - L = j + 1 by omega, bitsMagnitude_normal (by omega)]
    congr 1
    omega

/-- The bits of a magnitude are the greatest whose magnitude is not above it. -/
theorem bitsMagnitude_magnitudeBits_le (L m : Nat) : bitsMagnitude L (magnitudeBits L m) ≤ m := by
  rw [bitsMagnitude_magnitudeBits]
  split
  · exact le_rfl
  · exact Nat.div_mul_le_self _ _

/-- The magnitude after that of `b`: one unit more below 2^(L+1), else one unit of its exponent more. -/
theorem bitsMagnitude_lt_succ (L b : Nat) : bitsMagnitude L b < bitsMagnitude L (b + 1) := by
  rcases bits_cases L b with h | ⟨e, f, hf, rfl⟩
  · rw [bitsMagnitude_of_zero_exp h]
    by_cases h' : b + 1 < 2 ^ L
    · rw [bitsMagnitude_of_zero_exp h']
      omega
    · have : b + 1 = (0 + 1) * 2 ^ L + 0 := by omega
      rw [this, bitsMagnitude_normal (by positivity)]
      omega
  · rw [bitsMagnitude_normal hf]
    by_cases h' : f + 1 < 2 ^ L
    · rw [show (e + 1) * 2 ^ L + f + 1 = (e + 1) * 2 ^ L + (f + 1) by omega, bitsMagnitude_normal h']
      exact Nat.mul_lt_mul_of_pos_right (by omega) (by positivity)
    · have : (e + 1) * 2 ^ L + f + 1 = (e + 1 + 1) * 2 ^ L + 0 := by
        have := Nat.add_mul (e + 1) 1 (2 ^ L)
        omega
      rw [this, bitsMagnitude_normal (by positivity), pow_succ' 2 e, ← Nat.mul_assoc]
      exact Nat.mul_lt_mul_of_pos_right (by omega) (by positivity)

theorem bitsMagnitude_strictMono (L : Nat) : StrictMono (bitsMagnitude L) :=
  strictMono_nat_of_lt_succ (bitsMagnitude_lt_succ L)

/-- A magnitude is below the one after its bits. -/
theorem lt_bitsMagnitude_succ (L m : Nat) : m < bitsMagnitude L (magnitudeBits L m + 1) := by
  by_contra hle
  have hle : bitsMagnitude L (magnitudeBits L m + 1) ≤ m := by omega
  by_cases h : m < 2 ^ L
  · have h1 := bitsMagnitude_lt_succ L (magnitudeBits L m)
    rw [bitsMagnitude_magnitudeBits, if_pos h] at h1
    omega
  · have hm : m ≠ 0 := by
      rintro rfl
      exact h (by positivity)
    obtain ⟨h1, h2⟩ := (Nat.log2_eq_iff hm).mp rfl
    have hL : L ≤ m.log2 := (Nat.le_log2 hm).mpr (by omega)
    obtain ⟨j, hj⟩ := Nat.exists_eq_add_of_le hL
    rw [hj] at h1 h2
    have h3 : 2 ^ L ≤ m / 2 ^ j := by
      rw [Nat.le_div_iff_mul_le (by positivity), ← pow_add]
      exact h1
    have h4 : m / 2 ^ j < 2 ^ L * 2 := by
      rw [Nat.div_lt_iff_lt_mul (by positivity), ← pow_succ, ← pow_add]
      rwa [show L + 1 + j = L + j + 1 by omega]
    have hb : magnitudeBits L m = (j + 1) * 2 ^ L + (m / 2 ^ j - 2 ^ L) := by
      rw [magnitudeBits, if_neg h, hj, show L + j - L = j by omega, show L + j + 1 - L = j + 1 by omega]
    have h5 : m < (m / 2 ^ j + 1) * 2 ^ j := by
      have := Nat.lt_mul_div_succ m (show 0 < 2 ^ j by positivity)
      rwa [Nat.mul_comm] at this
    rw [hb] at hle
    by_cases h' : m / 2 ^ j - 2 ^ L + 1 < 2 ^ L
    · rw [show (j + 1) * 2 ^ L + (m / 2 ^ j - 2 ^ L) + 1 = (j + 1) * 2 ^ L + (m / 2 ^ j - 2 ^ L + 1) by omega,
        bitsMagnitude_normal h'] at hle
      rw [show 2 ^ L + (m / 2 ^ j - 2 ^ L + 1) = m / 2 ^ j + 1 by omega] at hle
      omega
    · have : (j + 1) * 2 ^ L + (m / 2 ^ j - 2 ^ L) + 1 = (j + 1 + 1) * 2 ^ L + 0 := by
        have := Nat.add_mul (j + 1) 1 (2 ^ L)
        omega
      rw [this, bitsMagnitude_normal (by positivity), Nat.add_zero, ← pow_add] at hle
      rw [show L + (j + 1) = L + j + 1 by omega] at hle
      omega

end Sys2Proof.Machine
end

