-- ==== Sys2Proof/Laws/FloatWord.lean ====
section
/-! SUPPORT. Words of a format: a word is its sign and its exponent and fraction bits, its value follows
from them, and the word of a value is the one it came from. -/

namespace Sys2Proof.Machine

/-- The three fields fill the word (42_float R97); `single` and `double` are the two cases. -/
def Format.fieldsFill (fmt : Format) : Prop := 8 * fmt.n = fmt.mLen + fmt.eLen + 1

theorem single_fieldsFill : single.fieldsFill := rfl
theorem double_fieldsFill : double.fieldsFill := rfl

theorem Format.emax_mul_lt (fmt : Format) : fmt.emax * 2 ^ fmt.mLen < 2 ^ (fmt.mLen + fmt.eLen) := by
  have h : 0 < 2 ^ fmt.eLen := by positivity
  rw [Nat.add_comm, pow_add]
  exact Nat.mul_lt_mul_of_pos_right (by unfold Format.emax; omega) (by positivity)

/-- A word made of a sign and exponent and fraction bits has that sign. -/
theorem Format.signOf_word {fmt : Format} (hf : fmt.fieldsFill) (s : Bool) {b : Nat}
    (hb : b < 2 ^ (fmt.mLen + fmt.eLen)) : fmt.signOf (s.toNat * 2 ^ (8 * fmt.n - 1) + b) = s := by
  rw [Format.signOf, hf, Nat.add_sub_cancel, Nat.testBit_eq_decide_div_mod_eq, Nat.add_comm,
    Nat.add_mul_div_right _ _ (by positivity), Nat.div_eq_of_lt hb]
  cases s <;> rfl

/-- A word is its sign and its exponent and fraction bits. -/
theorem Format.word_eq {fmt : Format} (hf : fmt.fieldsFill) {w : Nat} (hw : w < 2 ^ (8 * fmt.n)) :
    w = (fmt.signOf w).toNat * 2 ^ (8 * fmt.n - 1) + w % 2 ^ (fmt.mLen + fmt.eLen) := by
  rw [hf, pow_succ'] at hw
  rw [Format.signOf, hf, Nat.add_sub_cancel, Nat.testBit_eq_decide_div_mod_eq]
  generalize 2 ^ (fmt.mLen + fmt.eLen) = p at hw ⊢
  have h1 := Nat.div_add_mod w p
  have hp : 0 < p := by
    rcases Nat.eq_zero_or_pos p with rfl | h
    · omega
    · exact h
  have h2 : w / p < 2 := (Nat.div_lt_iff_lt_mul hp).mpr hw
  have h3 := Nat.le_one_iff_eq_zero_or_eq_one.mp (Nat.lt_succ_iff.mp h2)
  rcases h3 with h | h <;> rw [h] at h1 ⊢
  · simpa using h1.symm
  · simpa using h1.symm

theorem Format.expOf_word {fmt : Format} (hf : fmt.fieldsFill) (s : Bool) {b : Nat}
    (hb : b < 2 ^ (fmt.mLen + fmt.eLen)) :
    fmt.expOf (s.toNat * 2 ^ (8 * fmt.n - 1) + b) = b / 2 ^ fmt.mLen := by
  rw [Format.expOf, ← Nat.mod_mul_right_div_self, ← pow_add, hf, Nat.add_sub_cancel, Nat.add_comm,
    Nat.add_mul_mod_self_right, Nat.mod_eq_of_lt hb]

theorem Format.fracOf_word {fmt : Format} (hf : fmt.fieldsFill) (s : Bool) (b : Nat) :
    fmt.fracOf (s.toNat * 2 ^ (8 * fmt.n - 1) + b) = b % 2 ^ fmt.mLen := by
  rw [Format.fracOf, hf, Nat.add_sub_cancel, Nat.pow_add, Nat.mul_comm (2 ^ fmt.mLen), ← Nat.mul_assoc,
    Nat.add_comm, Nat.add_mul_mod_self_right]

/-- The value of a word below the all-ones exponent: finite, its magnitude that of its bits. -/
theorem Format.valueOf_finite {fmt : Format} (hf : fmt.fieldsFill) (s : Bool) {b : Nat}
    (hb : b < fmt.emax * 2 ^ fmt.mLen) :
    fmt.valueOf (s.toNat * 2 ^ (8 * fmt.n - 1) + b)
      = .fin (withSign s (bitsMagnitude fmt.mLen b * 2 ^ fmt.ulpExp)) := by
  have hb' := hb.trans fmt.emax_mul_lt
  rw [Format.valueOf, Format.signOf_word hf s hb', Format.expOf_word hf s hb', Format.fracOf_word hf]
  have he : b / 2 ^ fmt.mLen < fmt.emax := by
    rw [Nat.div_lt_iff_lt_mul (by positivity)]
    exact hb
  rw [fpVal, if_neg (by omega), bitsMagnitude]
  split
  · rfl
  · rw [pow_add, Nat.mul_assoc]

/-- The value of a word with the all-ones exponent: infinity when the fraction is 0, else NaN. -/
theorem Format.valueOf_special {fmt : Format} (hf : fmt.fieldsFill) (s : Bool) {f : Nat}
    (h : f < 2 ^ fmt.mLen) :
    fmt.valueOf (s.toNat * 2 ^ (8 * fmt.n - 1) + (fmt.emax * 2 ^ fmt.mLen + f))
      = if f = 0 then .inf s else .nan := by
  have hpos : 0 < 2 ^ fmt.eLen := by positivity
  have hb : fmt.emax * 2 ^ fmt.mLen + f < 2 ^ (fmt.mLen + fmt.eLen) := by
    have : (fmt.emax + 1) * 2 ^ fmt.mLen = 2 ^ (fmt.mLen + fmt.eLen) := by
      rw [Format.emax, Nat.sub_add_cancel hpos, ← pow_add, Nat.add_comm]
    rw [Nat.add_mul] at this
    omega
  rw [Format.valueOf, Format.signOf_word hf s hb, Format.expOf_word hf s hb, Format.fracOf_word hf]
  rw [Nat.add_comm (fmt.emax * _), Nat.add_mul_div_right _ _ (by positivity), Nat.div_eq_of_lt h,
    Nat.zero_add, Nat.add_mul_mod_self_right, Nat.mod_eq_of_lt h, fpVal, if_pos rfl]

/-- Every word has a sign, and bits that are a finite value's, an infinity's or a NaN's. -/
theorem Format.word_cases {fmt : Format} (hf : fmt.fieldsFill) {w : Nat} (hw : w < 2 ^ (8 * fmt.n)) :
    ∃ s b, w = s.toNat * 2 ^ (8 * fmt.n - 1) + b ∧ fmt.signOf w = s
      ∧ (b < fmt.emax * 2 ^ fmt.mLen ∨ ∃ f, f < 2 ^ fmt.mLen ∧ b = fmt.emax * 2 ^ fmt.mLen + f) := by
  have hpos : 0 < 2 ^ fmt.eLen := by positivity
  have hb : w % 2 ^ (fmt.mLen + fmt.eLen) < 2 ^ (fmt.mLen + fmt.eLen) := Nat.mod_lt _ (by positivity)
  refine ⟨fmt.signOf w, w % 2 ^ (fmt.mLen + fmt.eLen), Format.word_eq hf hw, rfl, ?_⟩
  by_cases h : w % 2 ^ (fmt.mLen + fmt.eLen) < fmt.emax * 2 ^ fmt.mLen
  · exact .inl h
  · right
    have : (fmt.emax + 1) * 2 ^ fmt.mLen = 2 ^ (fmt.mLen + fmt.eLen) := by
      rw [Format.emax, Nat.sub_add_cancel hpos, ← pow_add, Nat.add_comm]
    rw [Nat.add_mul] at this
    exact ⟨w % 2 ^ (fmt.mLen + fmt.eLen) - fmt.emax * 2 ^ fmt.mLen, by omega, by omega⟩

/-- The word of a finite value with a sign is the word it came from (42_float R99, R107). -/
theorem Format.wordOf_withSign (fmt : Format) (s : Bool) (b : Nat) :
    fmt.wordOf (withSign s (bitsMagnitude fmt.mLen b * 2 ^ fmt.ulpExp)) s
      = s.toNat * 2 ^ (8 * fmt.n - 1) + b := by
  rw [Format.wordOf, signBitOf_withSign, withSign_natAbs, Nat.mul_div_cancel _ (by positivity),
    magnitudeBits_bitsMagnitude]

/-- A finite value of the format is held by some bits below the all-ones exponent. -/
def Format.holds (fmt : Format) (u : Int) : Prop :=
  ∃ b, b < fmt.emax * 2 ^ fmt.mLen ∧ u.natAbs = bitsMagnitude fmt.mLen b * 2 ^ fmt.ulpExp

/-- The value of the word of a value the format holds is that value (42_float R99, R107). -/
theorem Format.valueOf_wordOf {fmt : Format} (hf : fmt.fieldsFill) {u : Int} (sgn : Bool)
    (hu : fmt.holds u) :
    fmt.valueOf (fmt.wordOf u sgn) = .fin u ∧ fmt.signOf (fmt.wordOf u sgn) = signBitOf u sgn
      ∧ fmt.wordOf u sgn < 2 ^ (8 * fmt.n) := by
  obtain ⟨b, hb, hub⟩ := hu
  have hw : fmt.wordOf u sgn = (signBitOf u sgn).toNat * 2 ^ (8 * fmt.n - 1) + b := by
    rw [Format.wordOf, hub, Nat.mul_div_cancel _ (by positivity), magnitudeBits_bitsMagnitude]
  have hb' := hb.trans fmt.emax_mul_lt
  refine ⟨?_, ?_, ?_⟩
  · rw [hw, Format.valueOf_finite hf _ hb, ← hub]
    congr 1
    unfold signBitOf
    split
    · next h => rw [h]; exact withSign_zero _
    · exact withSign_natAbs_self u
  · rw [hw, Format.signOf_word hf _ hb']
  · rw [hw, hf, Nat.add_sub_cancel, pow_succ]
    cases signBitOf u sgn <;> simp <;> omega

/-- A whole multiple of a power of two with at most mLen + 1 significant bits is held exactly. -/
theorem bitsMagnitude_magnitudeBits_exact {L q j : Nat} (hq : q < 2 ^ (L + 1)) :
    bitsMagnitude L (magnitudeBits L (q * 2 ^ j)) = q * 2 ^ j := by
  rw [bitsMagnitude_magnitudeBits]
  split
  · rfl
  · next h =>
    have hm : q * 2 ^ j ≠ 0 := by
      intro h0
      rw [h0] at h
      exact h (by positivity)
    have hlog : (q * 2 ^ j).log2 < L + 1 + j := by
      rw [Nat.log2_lt hm, pow_add]
      exact Nat.mul_lt_mul_of_pos_right hq (by positivity)
    obtain ⟨i, hi⟩ := Nat.exists_eq_add_of_le (show (q * 2 ^ j).log2 - L ≤ j by omega)
    apply Nat.div_mul_cancel
    exact (Dvd.intro _ (by rw [← pow_add, ← hi])).trans (Nat.dvd_mul_left _ _)

/-- Bits of a magnitude below that of some bits are below them. -/
theorem magnitudeBits_lt {L m b : Nat} (h : m < bitsMagnitude L b) : magnitudeBits L m < b :=
  (bitsMagnitude_strictMono L).lt_iff_lt.mp ((bitsMagnitude_magnitudeBits_le L m).trans_lt h)

/-- The magnitude the all-ones exponent would have: everything below it is finite. -/
theorem bitsMagnitude_top (L e : Nat) : bitsMagnitude L ((e + 1) * 2 ^ L) = 2 ^ L * 2 ^ e := by
  simpa using bitsMagnitude_normal (L := L) (e := e) (f := 0) (by positivity)

theorem magnitudeBits_lt_top {L e m : Nat} (h : m < 2 ^ L * 2 ^ e) :
    magnitudeBits L m < (e + 1) * 2 ^ L :=
  magnitudeBits_lt (by rwa [bitsMagnitude_top])

theorem double_holds_of_exact {u : Int} (q j : Nat) (hq : q < 2 ^ 53) (hj : j ≤ 2045)
    (h : u.natAbs = q * 2 ^ j) : double.holds u := by
  refine ⟨magnitudeBits 52 (q * 2 ^ j), magnitudeBits_lt_top (e := 2046) ?_, ?_⟩
  · have h2 : q * 2 ^ j < 2 ^ 53 * 2 ^ 2045 :=
      Nat.mul_lt_mul_of_lt_of_le hq (Nat.pow_le_pow_right (by norm_num) hj) (by positivity)
    rw [← pow_add] at h2 ⊢
    exact h2
  · simp only [double_mLen, double_ulpExp, pow_zero, Nat.mul_one]
    rw [bitsMagnitude_magnitudeBits_exact hq, h]

/-- Every integer below 2^53 is held exactly by binary64 (10_state R23, 42_float R99). -/
theorem double_holds_int {r : Int} (h : r.natAbs < 2 ^ 53) : double.holds (r * 2 ^ unitExp) := by
  refine double_holds_of_exact r.natAbs unitExp h (by decide) ?_
  simp [Int.natAbs_mul, Int.natAbs_pow]

/-- Every finite binary32 value is held exactly by binary64 (42_float R103). -/
theorem double_holds_of_single {u : Int} (h : single.holds u) : double.holds u := by
  obtain ⟨b, hb, hu⟩ := h
  simp only [single_mLen, single_ulpExp, single_emax] at hb hu
  rcases bits_cases 23 b with hlt | ⟨e, f, hf, rfl⟩
  · rw [bitsMagnitude_of_zero_exp hlt] at hu
    exact double_holds_of_exact b 925 (by omega) (by omega) hu
  · rw [bitsMagnitude_normal hf, Nat.mul_assoc, ← pow_add] at hu
    exact double_holds_of_exact (2 ^ 23 + f) (e + 925) (by omega) (by omega) hu

/-! ### binary64 words -/

theorem f64sign_eq (w : Word64) : f64sign w = double.signOf w.toNat := rfl

/-- A word whose value is finite holds that value, with its sign bit. -/
theorem double_holds_of_f64val {w : Word64} {u : Int} (h : f64val w = .fin u) :
    double.holds u ∧ double.wordOf u (f64sign w) = w.toNat := by
  obtain ⟨s, b, hw, hs, hb | ⟨f, hf, rfl⟩⟩ := Format.word_cases double_fieldsFill (w := w.toNat) w.isLt
  · rw [f64sign_eq, hs]
    rw [f64val, hw, Format.valueOf_finite double_fieldsFill s hb] at h
    injection h with h
    exact ⟨⟨b, hb, by rw [← h, withSign_natAbs]⟩, by rw [← h, Format.wordOf_withSign, ← hw]⟩
  · rw [f64val, hw, Format.valueOf_special double_fieldsFill s hf] at h
    split at h <;> cases h

/-- The value and the sign of the word of a value binary64 holds. -/
theorem f64val_wordOf {u : Int} (sgn : Bool) (h : double.holds u) :
    f64val (BitVec.ofNat 64 (double.wordOf u sgn)) = .fin u
      ∧ f64sign (BitVec.ofNat 64 (double.wordOf u sgn)) = signBitOf u sgn := by
  obtain ⟨h1, h2, h3⟩ := Format.valueOf_wordOf double_fieldsFill sgn h
  generalize double.wordOf u sgn = w at h1 h2 h3 ⊢
  have h4 : (BitVec.ofNat 64 w).toNat = w := by
    rw [BitVec.toNat_ofNat]
    exact Nat.mod_eq_of_lt h3
  rw [f64val, f64sign_eq, h4]
  exact ⟨h1, h2⟩

/-- A NaN word is exactly a word whose value is NaN (42_float R101, R102). -/
theorem isNaN64_iff (w : Word64) : isNaN64 w = true ↔ f64val w = .nan := by
  rw [f64val, Format.valueOf, fpVal, isNaN64]
  by_cases h1 : double.expOf w.toNat = double.emax
  · by_cases h2 : double.fracOf w.toNat = 0 <;> simp [h1, h2]
  · rw [if_neg h1, beq_eq_false_iff_ne.mpr h1]
    split <;> simp

/-- Whatever bits are drawn, the word made of them is a NaN (42_float R102). -/
theorem isNaN64_toNaN (bits : Word64) : isNaN64 (toNaN bits) = true := by
  have hf : double.fracOf bits.toNat < 2 ^ double.mLen := Nat.mod_lt _ (by positivity)
  have hlt : (if double.fracOf bits.toNat = 0 then 1 else double.fracOf bits.toNat) < 2 ^ double.mLen := by
    split
    · decide
    · exact hf
  have hne : (if double.fracOf bits.toNat = 0 then 1 else double.fracOf bits.toNat) ≠ 0 := by
    split <;> omega
  rw [isNaN64_iff, f64val, toNaN]
  generalize (if double.fracOf bits.toNat = 0 then 1 else double.fracOf bits.toNat) = f at hlt hne ⊢
  have h := Format.valueOf_special double_fieldsFill (f64sign bits) hlt
  rw [if_neg hne] at h
  have hw : (f64sign bits).toNat * 2 ^ 63 + (double.emax * 2 ^ 52 + f) < 2 ^ 64 := by
    simp only [double_mLen, double_emax] at hlt ⊢
    cases f64sign bits <;> simp <;> omega
  rw [BitVec.toNat_ofNat, Nat.mod_eq_of_lt hw]
  exact h

end Sys2Proof.Machine
end

