-- ==== Sys2Proof/Laws/Checked.lean ====
section
/-! SUPPORT. What an instruction can do: the failing set of each family's checks, the three ways `checked`
ends, what the drawn cause is, and what every instruction, transaction and event keeps. -/

namespace Sys2Proof.Machine

theorem mem_failingSet {cs : List Check} {s : State} {c : Cause} :
    c ∈ failingSet cs s ↔ ∃ k ∈ cs, k.fails s = true ∧ k.cause = c := by
  simp [failingSet, and_assoc]

theorem failingSet_eq_nil {cs : List Check} {s : State} :
    failingSet cs s = [] ↔ ∀ k ∈ cs, k.fails s = false := by
  simp [failingSet]

/-- The drawn cause is one of the failing set (60_exceptions R138). -/
theorem chooseCause_mem (c : Cause) (rest : List Cause) (draw : Nat) :
    chooseCause c rest draw ∈ c :: rest := by
  induction rest generalizing c draw with
  | nil => simp [chooseCause]
  | cons d rest ih =>
    cases draw with
    | zero => simp [chooseCause]
    | succ draw => exact List.mem_cons_of_mem _ (ih d draw)

/-- Everything `checked` can do (43_validation R130, R131). -/
theorem checked_cases (cs : List Check) (skip : Bool) (f : State → State) (s : State) :
    (failingSet cs s = [] ∧ checked cs skip f s = .next (f s))
      ∨ (failingSet cs s ≠ [] ∧ skip = true
          ∧ checked cs skip f s = .fault (.unspecified .skippedCheckFails))
      ∨ (failingSet cs s ≠ [] ∧ skip = false
          ∧ ∃ c ∈ failingSet cs s, checked cs skip f s = .next (s.raiseInvariantViolation c)) := by
  cases h : failingSet cs s with
  | nil => exact .inl ⟨rfl, by rw [checked, h]⟩
  | cons c rest =>
    right
    cases skip with
    | true => exact .inl ⟨by simp, rfl, by rw [checked, h]; rfl⟩
    | false =>
      exact .inr ⟨by simp, rfl, _, chooseCause_mem c rest (Config.causeDraw s.draws), by rw [checked, h]; rfl⟩

theorem checked_of_passes {cs : List Check} {s : State} (skip : Bool) (f : State → State)
    (h : failingSet cs s = []) : checked cs skip f s = .next (f s) := by
  rw [checked, h]

theorem checked_of_fails {cs : List Check} {s : State} (f : State → State)
    (h : failingSet cs s ≠ []) :
    checked cs true f s = .fault (.unspecified .skippedCheckFails)
      ∧ ∃ c ∈ failingSet cs s, checked cs false f s = .next (s.raiseInvariantViolation c) := by
  refine ⟨?_, ?_⟩
  · rcases checked_cases cs true f s with ⟨h', -⟩ | ⟨-, -, h'⟩ | ⟨-, h', -⟩
    · exact absurd h' h
    · exact h'
    · cases h'
  · rcases checked_cases cs false f s with ⟨h', -⟩ | ⟨-, h', -⟩ | ⟨-, -, h'⟩
    · exact absurd h' h
    · cases h'
    · exact h'

/-! ### The failing set of each family -/

@[simp] theorem byteOrderChecks_mem (w : Nat) (k : Check) :
    k ∈ byteOrderChecks w ↔ w ≠ 1 ∧ k = .byteOrderPresent := by
  unfold byteOrderChecks
  split <;> simp [*]

theorem inBounds_fails {w : Nat} {s : State} :
    (Check.inBounds w).fails s = true ↔
      s.inputs.offsetValid = true ∧ s.bufLen < s.inputs.offset + w := by
  simp [Check.fails]

/-- A cause in a read's failing set: a missing offset, or a span outside the buffer. -/
theorem mem_failingSet_read {w : Nat} {s : State} {c : Cause} :
    c ∈ failingSet (readChecks w) s ↔
      (c = .missingOffset ∧ s.inputs.offsetValid = false)
        ∨ (c = .outOfBounds ∧ s.inputs.offsetValid = true ∧ s.bufLen < s.inputs.offset + w) := by
  rw [mem_failingSet]
  simp only [readChecks, List.mem_append, List.mem_cons, List.not_mem_nil, or_false, byteOrderChecks_mem]
  constructor
  · rintro ⟨k, (rfl | rfl) | ⟨-, rfl⟩, h, rfl⟩
    · exact .inl ⟨rfl, by simpa [Check.fails] using h⟩
    · exact .inr ⟨rfl, inBounds_fails.mp h⟩
    · cases h
  · rintro (⟨rfl, h⟩ | ⟨rfl, h, h'⟩)
    · exact ⟨.offsetPresent, .inl (.inl rfl), by simp [Check.fails, h], rfl⟩
    · exact ⟨.inBounds w, .inl (.inr rfl), by simp [Check.fails, h, h'], rfl⟩

/-- The failing causes of a write, given those of its range check (43_validation R129). -/
theorem mem_failingSet_write {w : Nat} {s : State} {c : Cause} {range : Check} {more : List Check}
    (hr : range.cause = .valueRange) (hm : ∀ k ∈ more, k = .byteOrderPresent) :
    c ∈ failingSet ([.valuePresent, range, .integral, .offsetPresent, .inBounds w] ++ more) s ↔
      (c = .missingValue ∧ s.inputs.valueValid = false)
        ∨ (c = .valueRange ∧ range.fails s = true)
        ∨ (c = .notIntegral ∧ s.inputs.valueValid = true ∧ s.value.eq s.value.floor = false)
        ∨ (c = .missingOffset ∧ s.inputs.offsetValid = false)
        ∨ (c = .outOfBounds ∧ s.inputs.offsetValid = true ∧ s.bufLen < s.inputs.offset + w) := by
  rw [mem_failingSet]
  simp only [List.mem_append, List.mem_cons, List.not_mem_nil, or_false]
  constructor
  · rintro ⟨k, (rfl | rfl | rfl | rfl | rfl) | hk, h, rfl⟩
    · simp_all [Check.fails, Check.cause]
    · simp_all
    · simp_all [Check.fails, Check.cause]
    · simp_all [Check.fails, Check.cause]
    · exact .inr (.inr (.inr (.inr ⟨rfl, inBounds_fails.mp h⟩)))
    · rw [hm k hk] at h
      cases h
  · rintro (⟨rfl, h⟩ | ⟨rfl, h⟩ | ⟨rfl, h, h'⟩ | ⟨rfl, h⟩ | ⟨rfl, h, h'⟩)
    · exact ⟨.valuePresent, by simp, by simp [Check.fails, h], rfl⟩
    · exact ⟨range, by simp, h, hr⟩
    · exact ⟨.integral, by simp, by simpa [Check.fails, h] using h', rfl⟩
    · exact ⟨.offsetPresent, by simp, by simp [Check.fails, h], rfl⟩
    · exact ⟨.inBounds w, by simp, by simp [Check.fails, h, h'], rfl⟩

/-- A cause in a float write's failing set (43_validation R129). -/
theorem mem_failingSet_floatWrite {fmt : Format} {s : State} {c : Cause} :
    c ∈ failingSet (floatWriteChecks fmt) s ↔
      (c = .missingValue ∧ s.inputs.valueValid = false)
        ∨ (c = .valueRange ∧ (Check.frange fmt).fails s = true)
        ∨ (c = .missingOffset ∧ s.inputs.offsetValid = false)
        ∨ (c = .outOfBounds ∧ s.inputs.offsetValid = true ∧ s.bufLen < s.inputs.offset + fmt.n) := by
  rw [mem_failingSet]
  simp only [floatWriteChecks, List.mem_cons, List.not_mem_nil, or_false]
  constructor
  · rintro ⟨k, rfl | rfl | rfl | rfl | rfl, h, rfl⟩
    · simp_all [Check.fails, Check.cause]
    · cases h
    · exact .inr (.inl ⟨rfl, h⟩)
    · simp_all [Check.fails, Check.cause]
    · exact .inr (.inr (.inr ⟨rfl, inBounds_fails.mp h⟩))
  · rintro (⟨rfl, h⟩ | ⟨rfl, h⟩ | ⟨rfl, h⟩ | ⟨rfl, h, h'⟩)
    · exact ⟨.valuePresent, by simp, by simp [Check.fails, h], rfl⟩
    · exact ⟨.frange fmt, by simp, h, rfl⟩
    · exact ⟨.offsetPresent, by simp, by simp [Check.fails, h], rfl⟩
    · exact ⟨.inBounds fmt.n, by simp, by simp [Check.fails, h, h'], rfl⟩

theorem eq_nil_of_no_mem {l : List Cause} (h : ∀ c, c ∉ l) : l = [] := List.eq_nil_iff_forall_not_mem.mpr h

/-- A read's checks pass exactly when its span is in the buffer (43_validation R122, R123). -/
theorem failingSet_read_eq_nil {w : Nat} {s : State} :
    failingSet (readChecks w) s = [] ↔ spanInBuffer w s := by
  rw [List.eq_nil_iff_forall_not_mem, spanInBuffer]
  simp only [mem_failingSet_read]
  constructor
  · intro h
    have h1 := h .missingOffset
    have h2 := h .outOfBounds
    simp_all
  · rintro ⟨h1, h2⟩ c
    simp only [h1, Bool.true_eq_false, and_false, true_and, false_or, not_and]
    omega

/-! ### Values -/

/-- A value that equals its floor and lies between two integers is one of the integers between them. -/
theorem integer_of_within {v : FP} {lo hi : Int} (h1 : v.within (.ofInt lo) (.ofInt hi) = true)
    (h2 : v.eq v.floor = true) : ∃ r, v = .ofInt r ∧ lo ≤ r ∧ r ≤ hi := by
  have hpos : (0 : Int) < 2 ^ unitExp := by positivity
  cases v with
  | nan => simp [FP.within, FP.le, FP.ofInt] at h1
  | inf neg => cases neg <;> simp [FP.within, FP.le, FP.ofInt] at h1
  | fin u =>
    simp only [FP.eq, FP.floor, FP.ofInt, beq_iff_eq] at h2
    simp only [FP.within, FP.le, FP.ofInt, Bool.and_eq_true, decide_eq_true_eq] at h1
    refine ⟨u / 2 ^ unitExp, by rw [FP.ofInt, ← h2], ?_, ?_⟩
    · rw [h2] at h1
      exact le_of_mul_le_mul_right h1.1 hpos
    · rw [h2] at h1
      exact le_of_mul_le_mul_right h1.2 hpos

theorem ofInt_within {r lo hi : Int} :
    (FP.ofInt r).within (.ofInt lo) (.ofInt hi) = true ↔ lo ≤ r ∧ r ≤ hi := by
  have hpos : (0 : Int) < 2 ^ unitExp := by positivity
  simp only [FP.within, FP.le, FP.ofInt, Bool.and_eq_true, decide_eq_true_eq]
  rw [mul_le_mul_iff_of_pos_right hpos, mul_le_mul_iff_of_pos_right hpos]

theorem ofInt_div (r : Int) : r * 2 ^ unitExp / 2 ^ unitExp = r :=
  Int.mul_ediv_cancel r (by positivity)

theorem ofInt_eq_floor (r : Int) : (FP.ofInt r).eq (FP.ofInt r).floor = true := by
  simp only [FP.floor, FP.ofInt, FP.eq, ofInt_div, beq_self_eq_true]

@[simp] theorem toInteger_ofInt (r : Int) : (FP.ofInt r).toInteger = r := ofInt_div r

/-- The checks of an unsigned write pass exactly when its span is in the buffer and its value is an
integer of the width (40_unsigned R68, R80). -/
theorem failingSet_unsignedWrite_eq_nil {w : Nat} {s : State} :
    failingSet (unsignedWriteChecks w) s = [] ↔
      spanInBuffer w s ∧ ∃ r, valueIsInteger s r ∧ 0 ≤ r ∧ r ≤ maxUnsigned w := by
  rw [List.eq_nil_iff_forall_not_mem]
  unfold unsignedWriteChecks
  simp only [mem_failingSet_write (range := .urange w) rfl (fun k hk => ((byteOrderChecks_mem w k).mp hk).2)]
  constructor
  · intro h
    have h1 := h .missingOffset
    have h2 := h .outOfBounds
    have h3 := h .missingValue
    have h4 := h .valueRange
    have h5 := h .notIntegral
    simp_all only [reduceCtorEq, false_and, true_and, false_or, or_false, Bool.not_eq_false, not_lt,
      Check.fails, State.value_eq, Bool.not_eq_true]
    refine ⟨⟨h1, h2⟩, ?_⟩
    obtain ⟨r, hr, h0, hm⟩ := integer_of_within (by simpa using h4) h5
    exact ⟨r, ⟨h3, hr⟩, h0, hm⟩
  · rintro ⟨⟨h1, h2⟩, r, ⟨h3, h4⟩, h5, h6⟩ c
    have h7 := ofInt_within.mpr ⟨h5, h6⟩
    simp only [h1, h3, Check.fails, h4, h7, ofInt_eq_floor]
    simp
    omega

/-- The checks of a signed write pass exactly when its span is in the buffer and its value is an integer
of the width (41_signed R85, R96). -/
theorem failingSet_signedWrite_eq_nil {w : Nat} {s : State} :
    failingSet (signedWriteChecks w) s = [] ↔
      spanInBuffer w s ∧ ∃ r, valueIsInteger s r ∧ minSigned w ≤ r ∧ r ≤ maxSigned w := by
  rw [List.eq_nil_iff_forall_not_mem]
  unfold signedWriteChecks
  simp only [mem_failingSet_write (range := .srange w) rfl (fun k hk => ((byteOrderChecks_mem w k).mp hk).2)]
  constructor
  · intro h
    have h1 := h .missingOffset
    have h2 := h .outOfBounds
    have h3 := h .missingValue
    have h4 := h .valueRange
    have h5 := h .notIntegral
    simp_all only [reduceCtorEq, false_and, true_and, false_or, or_false, Bool.not_eq_false, not_lt,
      Check.fails, State.value_eq, Bool.not_eq_true]
    refine ⟨⟨h1, h2⟩, ?_⟩
    obtain ⟨r, hr, h0, hm⟩ := integer_of_within (by simpa using h4) h5
    exact ⟨r, ⟨h3, hr⟩, h0, hm⟩
  · rintro ⟨⟨h1, h2⟩, r, ⟨h3, h4⟩, h5, h6⟩ c
    have h7 := ofInt_within.mpr ⟨h5, h6⟩
    simp only [h1, h3, Check.fails, h4, h7, ofInt_eq_floor]
    simp
    omega

/-- The checks of a float write pass exactly when its span is in the buffer and its value is finite and
within the bound (42_float R110, R120). -/
theorem failingSet_floatWrite_eq_nil {fmt : Format} {s : State} :
    failingSet (floatWriteChecks fmt) s = [] ↔
      spanInBuffer fmt.n s ∧ s.inputs.valueValid = true
        ∧ ∃ u, f64val s.inputs.value = .fin u ∧ -maxBound fmt ≤ u ∧ u ≤ maxBound fmt := by
  rw [List.eq_nil_iff_forall_not_mem]
  simp only [mem_failingSet_floatWrite]
  constructor
  · intro h
    have h1 := h .missingOffset
    have h2 := h .outOfBounds
    have h3 := h .missingValue
    have h4 := h .valueRange
    clear h
    simp_all only [reduceCtorEq, false_and, true_and, false_or, or_false, Bool.not_eq_false, not_lt,
      Check.fails, State.value_eq, Bool.not_eq_true, Bool.true_and]
    refine ⟨⟨h1, h2⟩, ?_⟩
    revert h4
    cases f64val s.inputs.value with
    | nan => simp [FP.within, FP.le]
    | inf neg => cases neg <;> simp [FP.within, FP.le]
    | fin u =>
      intro h4
      exact ⟨u, rfl, by simpa [FP.within, FP.le] using h4⟩
  · rintro ⟨⟨h1, h2⟩, h3, u, h4, h5, h6⟩ c
    simp only [h1, h3, Check.fails, h4]
    simp [FP.within, FP.le, h5, h6]
    omega

end Sys2Proof.Machine
end

