-- ==== Sys2Proof/Laws/Exec.lean ====
section
/-! SUPPORT. What the shared operations above the checks can do: an instruction, a transaction, the host's
event. Each lemma says once everything its operation can answer. -/

namespace Sys2Proof.Machine

/-- What a float read puts on RESULT depends on the draw only where it is a NaN (42_float R102). -/
theorem floatResult_draw (fmt : Format) (bs : List Byte) (be : Bool) (j k : Nat) :
    floatResult fmt bs be j = floatResult fmt bs be k
      ∨ (isNaN64 (floatResult fmt bs be j) = true ∧ isNaN64 (floatResult fmt bs be k) = true) := by
  unfold floatResult
  cases f64word (unpack fmt bs be) (unpackSign fmt bs be) with
  | some word => exact .inl rfl
  | none => exact .inr ⟨isNaN64_toNaN _, isNaN64_toNaN _⟩

/-- The shape of every instruction (30_encoding R63): the checks of its family, then a read of a word made
of its span's bytes, which depends on the draw only where it is a NaN, or a write of bytes made of VALUE
(43_validation R129). -/
theorem exec_form (i : Instr) :
    (i.fields.dir = .read ∧ ∃ g : List Byte → Nat → Word64,
        (∀ bs j k, g bs j = g bs k ∨ (isNaN64 (g bs j) = true ∧ isNaN64 (g bs k) = true))
          ∧ ∀ s, exec i s = checked (readChecks (fieldWidth i.fields.wsel)) i.fields.skip
            (fun s => s.completeRead (g (s.operandBytes (fieldWidth i.fields.wsel)) s.draws)) s)
      ∨ (i.fields.dir = .write ∧ ∃ cs, ∃ g : Word64 → List Byte,
        (cs = unsignedWriteChecks (fieldWidth i.fields.wsel)
            ∨ cs = signedWriteChecks (fieldWidth i.fields.wsel)
            ∨ ∃ fmt : Format, fmt.n = fieldWidth i.fields.wsel ∧ cs = floatWriteChecks fmt)
          ∧ (∀ v, (g v).length = fieldWidth i.fields.wsel)
          ∧ ∀ s, exec i s
              = checked cs i.fields.skip (fun s => s.completeWrite (g s.inputs.value)) s) := by
  cases i
  case readUInt8 | readUInt16LE | readUInt16BE | readUInt32LE | readUInt32BE =>
    exact .inl ⟨rfl, fun bs _ => intWord (assemble bs _), fun _ _ _ => .inl rfl, fun s => rfl⟩
  case readInt8 | readInt16LE | readInt16BE | readInt32LE | readInt32BE =>
    exact .inl ⟨rfl, fun bs _ => intWord (u2s (assemble bs _) _), fun _ _ _ => .inl rfl, fun s => rfl⟩
  case readFloatLE | readFloatBE | readDoubleLE | readDoubleBE =>
    exact .inl ⟨rfl, fun bs draw => floatResult _ bs _ draw, fun bs j k => floatResult_draw _ bs _ j k, fun s => rfl⟩
  case writeUInt8 | writeUInt16LE | writeUInt16BE | writeUInt32LE | writeUInt32BE =>
    exact .inr ⟨rfl, _, fun v => disassemble (f64val v).toInteger.toNat _ _, .inl rfl,
      fun v => length_disassemble _ _ _, fun s => rfl⟩
  case writeInt8 | writeInt16LE | writeInt16BE | writeInt32LE | writeInt32BE =>
    exact .inr ⟨rfl, _, fun v => disassemble (s2u (f64val v).toInteger _) _ _, .inr (.inl rfl),
      fun v => length_disassemble _ _ _, fun s => rfl⟩
  case writeFloatLE | writeFloatBE | writeDoubleLE | writeDoubleBE =>
    refine .inr ⟨rfl, _, fun v => pack _ v _, .inr (.inr ⟨_, ?_, rfl⟩), fun v => ?_, fun s => rfl⟩
    · rfl
    · unfold pack
      split <;> exact length_disassemble _ _ _

/-- The failing set depends on the input ports and BUF_LEN alone (43_validation R121). -/
theorem failingSet_congr {cs : List Check} {s s' : State} (hi : s'.inputs = s.inputs)
    (hb : s'.bufLen = s.bufLen) : failingSet cs s' = failingSet cs s := by
  unfold failingSet
  congr 1
  refine List.filter_congr fun k _ => ?_
  cases k <;> simp [Check.fails, hi, hb]

/-- The cause of a failing check has one of the codes 1, 2, 4, 5, 6: BYTE_ORDER_PRESENT never fails
(43_validation R128). -/
theorem failingSet_code {cs : List Check} {s : State} {c : Cause} (h : c ∈ failingSet cs s) :
    c.code = 1 ∨ c.code = 2 ∨ c.code = 4 ∨ c.code = 5 ∨ c.code = 6 := by
  obtain ⟨k, -, hf, rfl⟩ := mem_failingSet.mp h
  cases k <;> simp_all [Check.cause, Cause.code, Check.fails]

/-- Everything an instruction can do: complete its read, complete its write, raise InvariantViolation in
enforce mode, or be UNSPECIFIED in skip mode (60_exceptions R133). -/
theorem exec_cases (i : Instr) (s : State) :
    (i.fields.dir = .read ∧ ∃ w, exec i s = .next (s.completeRead w))
      ∨ (i.fields.dir = .write ∧ ∃ bs, bs.length = fieldWidth i.fields.wsel
          ∧ s.inputs.offset + fieldWidth i.fields.wsel ≤ s.bufLen
          ∧ exec i s = .next (s.completeWrite bs))
      ∨ (i.fields.skip = false ∧ ∃ c : Cause,
          (c.code = 1 ∨ c.code = 2 ∨ c.code = 4 ∨ c.code = 5 ∨ c.code = 6)
            ∧ exec i s = .next (s.raiseInvariantViolation c))
      ∨ (i.fields.skip = true ∧ exec i s = .fault (.unspecified .skippedCheckFails)) := by
  have fails : ∀ cs f, exec i s = checked cs i.fields.skip f s → failingSet cs s ≠ [] →
      (i.fields.skip = false ∧ ∃ c : Cause,
          (c.code = 1 ∨ c.code = 2 ∨ c.code = 4 ∨ c.code = 5 ∨ c.code = 6)
            ∧ exec i s = .next (s.raiseInvariantViolation c))
        ∨ (i.fields.skip = true ∧ exec i s = .fault (.unspecified .skippedCheckFails)) := by
    intro cs f he hne
    rw [he]
    rcases checked_cases cs i.fields.skip f s with ⟨h, -⟩ | ⟨-, hk, h⟩ | ⟨-, hk, c, hc, h⟩
    · exact absurd h hne
    · exact .inr ⟨hk, h⟩
    · exact .inl ⟨hk, c, failingSet_code hc, h⟩
  rcases exec_form i with ⟨hd, g, -, he⟩ | ⟨hd, cs, g, hcs, hg, he⟩
  · by_cases hp : failingSet (readChecks (fieldWidth i.fields.wsel)) s = []
    · exact .inl ⟨hd, _, (he s).trans (checked_of_passes _ _ hp)⟩
    · exact .inr (.inr (fails _ _ (he s) hp))
  · by_cases hp : failingSet cs s = []
    · refine .inr (.inl ⟨hd, _, hg s.inputs.value, ?_, (he s).trans (checked_of_passes _ _ hp)⟩)
      rcases hcs with rfl | rfl | ⟨fmt, hn, rfl⟩
      · exact (failingSet_unsignedWrite_eq_nil.mp hp).1.2
      · exact (failingSet_signedWrite_eq_nil.mp hp).1.2
      · exact hn ▸ (failingSet_floatWrite_eq_nil.mp hp).1.2
    · exact .inr (.inr (fails _ _ (he s) hp))

/-! ### The buffer -/

/-- A write of bytes within the buffer keeps its form. -/
theorem bufferWf_writeBytes {s : State} {lo : Nat} {bs : List Byte} (h : bufferWf s)
    (hlo : lo + bs.length ≤ s.bufLen) : bufferWf { s with buf := s.buf.writeBytes lo bs } := by
  refine ⟨Memory.writeBytes_wf lo bs h.1, fun p hp => ?_⟩
  rcases Memory.mem_writeBytes hp with hp | hp
  · exact lt_of_lt_of_le hp.2 hlo
  · exact h.2 p hp

/-- An attached buffer has the canonical form, and no byte at or beyond its length. -/
theorem bufferWf_attach (s : State) (bs : List Byte) : bufferWf (s.attach bs) :=
  ⟨Memory.ofBytes_wf bs, fun _ hp => Memory.mem_ofBytes hp⟩

/-- A buffer whose transaction was abandoned has the canonical form, and no byte at or beyond its length. -/
theorem bufferWf_abandon (s : State) : bufferWf s.abandon :=
  ⟨Memory.unknown_wf _ _, fun _ hp => Memory.mem_unknown hp⟩

/-- After reset the buffer has the canonical form. -/
theorem bufferWf_reset : bufferWf State.reset := ⟨Memory.wf_nil, fun _ hp => by cases hp⟩

/-- Everything an outside write can do (20_memory R34). -/
theorem outsideWrite_cases (s : State) (lo : Nat) (bs : List Byte) :
    (lo + bs.length ≤ s.bufLen
        ∧ s.outsideWrite lo bs = .next { s with buf := s.buf.writeBytes lo bs })
      ∨ (s.bufLen < lo + bs.length ∧ s.outsideWrite lo bs = .fault .outsideBuffer) := by
  unfold State.outsideWrite
  split
  · exact .inl ⟨‹_›, rfl⟩
  · exact .inr ⟨by omega, rfl⟩

/-- Everything the host's read of a port can do (70_reset R158). -/
theorem hostReads_cases (s : State) (port : OutPort) :
    (port = .result ∧ s.resultValid = false ∧ s.hostReads port = .fault .resultHoldsNoValue)
      ∨ ((port ≠ .result ∨ s.resultValid = true) ∧ s.hostReads port = .next s) := by
  cases port <;> cases h : s.resultValid <;> simp [State.hostReads, State.readResult, h]

/-! ### Transactions and events -/

theorem transaction_of_instr {s : State} {i : Instr} (h : decode s.inputs.cmd = .instr i) :
    transaction s = exec i s := by
  rw [transaction, h]

theorem transaction_of_illegal {s : State} {why : Reserved} (h : decode s.inputs.cmd = .illegal why) :
    transaction s = .next s.raiseIllegalCommand := by
  rw [transaction, h]

/-- Two runs of addresses overlap when some address is in both. -/
theorem overlaps_iff {lo m a n : Nat} :
    overlaps lo m a n = true ↔ ∃ b, lo ≤ b ∧ b < lo + m ∧ a ≤ b ∧ b < a + n := by
  simp only [overlaps, decide_eq_true_eq]
  exact ⟨fun h => ⟨max lo a, by omega, by omega, by omega, by omega⟩, by rintro ⟨b, h⟩; omega⟩

/-- The span of a legal command with its offset present (20_memory R36). -/
theorem span_of_instr {s : State} {i : Instr} (h : decode s.inputs.cmd = .instr i)
    (ho : s.inputs.offsetValid = true) :
    span s = some (s.inputs.offset, fieldWidth i.fields.wsel) := by
  rw [span, h]
  simp [ho]

/-- Everything a transaction beside an access can do (20_memory R48). -/
theorem transactionBeside_cases (s : State) (who : Agent) (access : Access) :
    (races s who access = true ∧ transactionBeside s who access = .fault (.unspecified .dataRace))
      ∨ (races s who access = false ∧ transactionBeside s who access
          = match transaction s, access with
            | .next t, .read _ _ => .next t
            | .next t, .write lo bs => t.outsideWrite lo bs
            | .fault r, _ => .fault r
            | .refused r, _ => .refused r) := by
  cases h : races s who access with
  | true => exact .inl ⟨rfl, by rw [transactionBeside, if_pos h]⟩
  | false =>
    refine .inr ⟨rfl, ?_⟩
    rw [transactionBeside, if_neg (by simp [h])]
    cases transaction s <;> cases access <;> rfl

theorem step_of_event {s : State} {e : HostEvent} {rest : List HostEvent} (h : s.events = e :: rest) :
    step s = handleEvent e { s with events := rest } := by
  rw [step, takeEvent, h]

theorem step_of_no_event {s : State} (h : s.events = []) : step s = .next s := by
  rw [step, takeEvent, h]

end Sys2Proof.Machine
end

