-- ==== Sys2Proof/Laws/PerInstr.lean ====
section
/-! SUPPORT. Statements made of every instruction, one lemma for each constructor of Instr. -/

namespace Sys2Proof.Laws.CommandFields

/-- The fields of an instruction's command word are its fields, and they are those of a legal command
(30_encoding R52, R60). -/
def Statement (i : Instr) : Prop := Fields.ofWord (encode i) = i.fields ∧ i.wellFormed = true

theorem readUInt8 (x skip : Bool) : Statement (.readUInt8 x skip) := by
  cases x <;> cases skip <;> exact ⟨rfl, rfl⟩

theorem readUInt16LE (skip : Bool) : Statement (.readUInt16LE skip) := by
  cases skip <;> exact ⟨rfl, rfl⟩

theorem readUInt16BE (skip : Bool) : Statement (.readUInt16BE skip) := by
  cases skip <;> exact ⟨rfl, rfl⟩

theorem readUInt32LE (skip : Bool) : Statement (.readUInt32LE skip) := by
  cases skip <;> exact ⟨rfl, rfl⟩

theorem readUInt32BE (skip : Bool) : Statement (.readUInt32BE skip) := by
  cases skip <;> exact ⟨rfl, rfl⟩

theorem readInt8 (x skip : Bool) : Statement (.readInt8 x skip) := by
  cases x <;> cases skip <;> exact ⟨rfl, rfl⟩

theorem readInt16LE (skip : Bool) : Statement (.readInt16LE skip) := by
  cases skip <;> exact ⟨rfl, rfl⟩

theorem readInt16BE (skip : Bool) : Statement (.readInt16BE skip) := by
  cases skip <;> exact ⟨rfl, rfl⟩

theorem readInt32LE (skip : Bool) : Statement (.readInt32LE skip) := by
  cases skip <;> exact ⟨rfl, rfl⟩

theorem readInt32BE (skip : Bool) : Statement (.readInt32BE skip) := by
  cases skip <;> exact ⟨rfl, rfl⟩

theorem readFloatLE (skip : Bool) : Statement (.readFloatLE skip) := by
  cases skip <;> exact ⟨rfl, rfl⟩

theorem readFloatBE (skip : Bool) : Statement (.readFloatBE skip) := by
  cases skip <;> exact ⟨rfl, rfl⟩

theorem readDoubleLE (skip : Bool) : Statement (.readDoubleLE skip) := by
  cases skip <;> exact ⟨rfl, rfl⟩

theorem readDoubleBE (skip : Bool) : Statement (.readDoubleBE skip) := by
  cases skip <;> exact ⟨rfl, rfl⟩

theorem writeUInt8 (x skip : Bool) : Statement (.writeUInt8 x skip) := by
  cases x <;> cases skip <;> exact ⟨rfl, rfl⟩

theorem writeUInt16LE (skip : Bool) : Statement (.writeUInt16LE skip) := by
  cases skip <;> exact ⟨rfl, rfl⟩

theorem writeUInt16BE (skip : Bool) : Statement (.writeUInt16BE skip) := by
  cases skip <;> exact ⟨rfl, rfl⟩

theorem writeUInt32LE (skip : Bool) : Statement (.writeUInt32LE skip) := by
  cases skip <;> exact ⟨rfl, rfl⟩

theorem writeUInt32BE (skip : Bool) : Statement (.writeUInt32BE skip) := by
  cases skip <;> exact ⟨rfl, rfl⟩

theorem writeInt8 (x skip : Bool) : Statement (.writeInt8 x skip) := by
  cases x <;> cases skip <;> exact ⟨rfl, rfl⟩

theorem writeInt16LE (skip : Bool) : Statement (.writeInt16LE skip) := by
  cases skip <;> exact ⟨rfl, rfl⟩

theorem writeInt16BE (skip : Bool) : Statement (.writeInt16BE skip) := by
  cases skip <;> exact ⟨rfl, rfl⟩

theorem writeInt32LE (skip : Bool) : Statement (.writeInt32LE skip) := by
  cases skip <;> exact ⟨rfl, rfl⟩

theorem writeInt32BE (skip : Bool) : Statement (.writeInt32BE skip) := by
  cases skip <;> exact ⟨rfl, rfl⟩

theorem writeFloatLE (skip : Bool) : Statement (.writeFloatLE skip) := by
  cases skip <;> exact ⟨rfl, rfl⟩

theorem writeFloatBE (skip : Bool) : Statement (.writeFloatBE skip) := by
  cases skip <;> exact ⟨rfl, rfl⟩

theorem writeDoubleLE (skip : Bool) : Statement (.writeDoubleLE skip) := by
  cases skip <;> exact ⟨rfl, rfl⟩

theorem writeDoubleBE (skip : Bool) : Statement (.writeDoubleBE skip) := by
  cases skip <;> exact ⟨rfl, rfl⟩

end Sys2Proof.Laws.CommandFields
end

