-- ==== Sys2Proof/Tests/Slice0.lean ====
section
/-! SUPPORT. Tests. The words are written out from 30_encoding R60, the transactions are rows of
95_test_vectors; the last part gives, for each statement with hypotheses, states and operands that meet them. -/

namespace Sys2Proof.Tests

open Sys2Proof.Machine Sys2Proof.Claims

set_option Elab.async false

/-- The input ports of a command, an offset and a value, each perhaps missing. -/
def ports (cmd : Command) (offset : Option Nat) (value : Option Word64) : Inputs :=
  ⟨cmd, offset.getD 0, offset.isSome, value.getD 0, value.isSome⟩

/-- A state with these bytes in the buffer and these operands on the ports. -/
def holding (bytes : List Byte) (offset : Option Nat) (value : Option Word64) : State :=
  { State.reset with
    buf := Memory.ofBytes bytes
    bufLen := bytes.length
    inputs := ports 0x00 offset value }

/-- A state with these bytes in the buffer, whose next step issues this transaction. -/
def issuing (bytes : List Byte) (cmd : Command) (offset : Option Nat) (value : Option Word64) : State :=
  { State.reset with
    buf := Memory.ofBytes bytes
    bufLen := bytes.length
    events := [.issue (ports cmd offset value)] }

/-- Whether an outcome is a next state with a property. -/
def answers (out : Host.Outcome State Fault Refusal) (p : State → Bool) : Bool :=
  match out with
  | .next t => p t
  | .fault _ | .refused _ => false

/-- Whether an outcome is the fault UNSPECIFIED of a skipped check. -/
def unspecified (out : Host.Outcome State Fault Refusal) : Bool :=
  match out with
  | .fault (.unspecified .skippedCheckFails) => true
  | _ => false

theorem exists_of_answers {out : Host.Outcome State Fault Refusal} {p : State → Bool}
    (h : answers out p = true) : ∃ t, out = .next t ∧ p t = true := by
  cases out with
  | next t => exact ⟨t, rfl, h⟩
  | fault r => cases h
  | refused r => cases h

/-! ### Well-formed fields: a term that each check refuses (30_encoding R61) -/

theorem test_rsv_set_is_refused :
    (Fields.mk .read .uint .w1 false false true).rsvClear = false
      ∧ (Fields.mk .read .uint .w1 false false true).wellFormed = false := by decide

theorem test_reserved_kind_is_refused :
    (Fields.mk .read .reserved .w4 false false false).kindLegal = false
      ∧ (Fields.mk .read .reserved .w4 false false false).wellFormed = false := by decide

theorem test_eight_byte_integer_is_refused :
    (Fields.mk .write .int .w8 false false false).intWidthLegal = false
      ∧ (Fields.mk .write .int .w8 false false false).wellFormed = false := by decide

theorem test_two_byte_float_is_refused :
    (Fields.mk .read .float .w2 true true false).floatWidthLegal = false
      ∧ (Fields.mk .read .float .w2 true true false).wellFormed = false := by decide

/-! ### Decoding: each row of 30_encoding R60, its words written out bit by bit: DIR KIND WSEL BE SKIP RSV -/

theorem test_decode_readUInt8 :
    decode 0b00000000 = .instr (.readUInt8 false false) ∧ decode 0b00000100 = .instr (.readUInt8 true false)
      ∧ decode 0b00000010 = .instr (.readUInt8 false true) ∧ decode 0b00000110 = .instr (.readUInt8 true true) := by
  decide

theorem test_decode_readUInt16LE :
    decode 0b00001000 = .instr (.readUInt16LE false) ∧ decode 0b00001010 = .instr (.readUInt16LE true) := by decide

theorem test_decode_readUInt16BE :
    decode 0b00001100 = .instr (.readUInt16BE false) ∧ decode 0b00001110 = .instr (.readUInt16BE true) := by decide

theorem test_decode_readUInt32LE :
    decode 0b00010000 = .instr (.readUInt32LE false) ∧ decode 0b00010010 = .instr (.readUInt32LE true) := by decide

theorem test_decode_readUInt32BE :
    decode 0b00010100 = .instr (.readUInt32BE false) ∧ decode 0b00010110 = .instr (.readUInt32BE true) := by decide

theorem test_decode_readInt8 :
    decode 0b00100000 = .instr (.readInt8 false false) ∧ decode 0b00100100 = .instr (.readInt8 true false)
      ∧ decode 0b00100010 = .instr (.readInt8 false true) ∧ decode 0b00100110 = .instr (.readInt8 true true) := by
  decide

theorem test_decode_readInt16LE :
    decode 0b00101000 = .instr (.readInt16LE false) ∧ decode 0b00101010 = .instr (.readInt16LE true) := by decide

theorem test_decode_readInt16BE :
    decode 0b00101100 = .instr (.readInt16BE false) ∧ decode 0b00101110 = .instr (.readInt16BE true) := by decide

theorem test_decode_readInt32LE :
    decode 0b00110000 = .instr (.readInt32LE false) ∧ decode 0b00110010 = .instr (.readInt32LE true) := by decide

theorem test_decode_readInt32BE :
    decode 0b00110100 = .instr (.readInt32BE false) ∧ decode 0b00110110 = .instr (.readInt32BE true) := by decide

theorem test_decode_readFloatLE :
    decode 0b01010000 = .instr (.readFloatLE false) ∧ decode 0b01010010 = .instr (.readFloatLE true) := by decide

theorem test_decode_readFloatBE :
    decode 0b01010100 = .instr (.readFloatBE false) ∧ decode 0b01010110 = .instr (.readFloatBE true) := by decide

theorem test_decode_readDoubleLE :
    decode 0b01011000 = .instr (.readDoubleLE false) ∧ decode 0b01011010 = .instr (.readDoubleLE true) := by decide

theorem test_decode_readDoubleBE :
    decode 0b01011100 = .instr (.readDoubleBE false) ∧ decode 0b01011110 = .instr (.readDoubleBE true) := by decide

theorem test_decode_writeUInt8 :
    decode 0b10000000 = .instr (.writeUInt8 false false) ∧ decode 0b10000100 = .instr (.writeUInt8 true false)
      ∧ decode 0b10000010 = .instr (.writeUInt8 false true) ∧ decode 0b10000110 = .instr (.writeUInt8 true true) := by
  decide

theorem test_decode_writeUInt16LE :
    decode 0b10001000 = .instr (.writeUInt16LE false) ∧ decode 0b10001010 = .instr (.writeUInt16LE true) := by decide

theorem test_decode_writeUInt16BE :
    decode 0b10001100 = .instr (.writeUInt16BE false) ∧ decode 0b10001110 = .instr (.writeUInt16BE true) := by decide

theorem test_decode_writeUInt32LE :
    decode 0b10010000 = .instr (.writeUInt32LE false) ∧ decode 0b10010010 = .instr (.writeUInt32LE true) := by decide

theorem test_decode_writeUInt32BE :
    decode 0b10010100 = .instr (.writeUInt32BE false) ∧ decode 0b10010110 = .instr (.writeUInt32BE true) := by decide

theorem test_decode_writeInt8 :
    decode 0b10100000 = .instr (.writeInt8 false false) ∧ decode 0b10100100 = .instr (.writeInt8 true false)
      ∧ decode 0b10100010 = .instr (.writeInt8 false true) ∧ decode 0b10100110 = .instr (.writeInt8 true true) := by
  decide

theorem test_decode_writeInt16LE :
    decode 0b10101000 = .instr (.writeInt16LE false) ∧ decode 0b10101010 = .instr (.writeInt16LE true) := by decide

theorem test_decode_writeInt16BE :
    decode 0b10101100 = .instr (.writeInt16BE false) ∧ decode 0b10101110 = .instr (.writeInt16BE true) := by decide

theorem test_decode_writeInt32LE :
    decode 0b10110000 = .instr (.writeInt32LE false) ∧ decode 0b10110010 = .instr (.writeInt32LE true) := by decide

theorem test_decode_writeInt32BE :
    decode 0b10110100 = .instr (.writeInt32BE false) ∧ decode 0b10110110 = .instr (.writeInt32BE true) := by decide

theorem test_decode_writeFloatLE :
    decode 0b11010000 = .instr (.writeFloatLE false) ∧ decode 0b11010010 = .instr (.writeFloatLE true) := by decide

theorem test_decode_writeFloatBE :
    decode 0b11010100 = .instr (.writeFloatBE false) ∧ decode 0b11010110 = .instr (.writeFloatBE true) := by decide

theorem test_decode_writeDoubleLE :
    decode 0b11011000 = .instr (.writeDoubleLE false) ∧ decode 0b11011010 = .instr (.writeDoubleLE true) := by decide

theorem test_decode_writeDoubleBE :
    decode 0b11011100 = .instr (.writeDoubleBE false) ∧ decode 0b11011110 = .instr (.writeDoubleBE true) := by decide

/-- The decode notes of 95_test_vectors. -/
theorem test_decode_reserved :
    decode 0x1E = .illegal .integerOfEightBytes ∧ decode 0x40 = .illegal .floatOfOneOrTwoBytes
      ∧ decode 0x48 = .illegal .floatOfOneOrTwoBytes ∧ decode 0x38 = .illegal .integerOfEightBytes
      ∧ decode 0xB8 = .illegal .integerOfEightBytes ∧ decode 0x98 = .illegal .integerOfEightBytes
      ∧ decode 0x60 = .illegal .kindReserved ∧ decode 0xFE = .illegal .kindReserved
      ∧ decode 0xFF = .illegal .rsvSet ∧ decode 0x01 = .illegal .rsvSet := by decide

/-! ### Transactions: rows of 95_test_vectors -/

/-- 95_test_vectors U-R1. -/
theorem test_readUInt8_U_R1 :
    answers (step (issuing [0x80] 0x00 (some 0) none))
      (fun t => t.status == 0b01 && t.readResult == some 0x4060000000000000) = true := by decide +kernel

/-- 95_test_vectors U-R4. -/
theorem test_readUInt8_U_R4 :
    answers (step (issuing [0x00, 0xFF] 0x00 (some 2) none))
      (fun t => t.status == 0b10 && t.cause == 4 && t.buf == Memory.ofBytes [0x00, 0xFF]) = true := by decide +kernel

/-- 95_test_vectors U-R6. -/
theorem test_readUInt16LE_U_R6 :
    answers (step (issuing [0x34, 0x12] 0x08 (some 0) none))
      (fun t => t.status == 0b01 && t.readResult == some 0x40B2340000000000) = true := by decide +kernel

/-- 95_test_vectors U-R9. -/
theorem test_readUInt16LE_U_R9 :
    answers (step (issuing [0x00, 0xFF, 0xFF] 0x08 (some 2) none))
      (fun t => t.status == 0b10 && t.cause == 4 && t.buf == Memory.ofBytes [0x00, 0xFF, 0xFF]) = true := by decide +kernel

/-- 95_test_vectors U-R8. -/
theorem test_readUInt16BE_U_R8 :
    answers (step (issuing [0x00, 0xFF, 0xFF] 0x0C (some 1) none))
      (fun t => t.status == 0b01 && t.readResult == some 0x40EFFFE000000000) = true := by decide +kernel

/-- 95_test_vectors S5c. -/
theorem test_readUInt16BE_S5c :
    unspecified (step (issuing [0x12, 0x34, 0x56] 0x0E (some 2) none)) = true := by decide +kernel

/-- 95_test_vectors U-R10. -/
theorem test_readUInt32LE_U_R10 :
    answers (step (issuing [0x78, 0x56, 0x34, 0x12] 0x10 (some 0) none))
      (fun t => t.status == 0b01 && t.readResult == some 0x41B2345678000000) = true := by decide +kernel

/-- 95_test_vectors U-R12. -/
theorem test_readUInt32LE_U_R12 :
    answers (step (issuing [0x00, 0x00, 0x00, 0x80] 0x10 (some 0) none))
      (fun t => t.status == 0b01 && t.readResult == some 0x41E0000000000000) = true := by decide +kernel

/-- 95_test_vectors U-R13. -/
theorem test_readUInt32BE_U_R13 :
    answers (step (issuing [0xFF, 0xFF, 0xFF, 0xFF] 0x14 (some 0) none))
      (fun t => t.status == 0b01 && t.readResult == some 0x41EFFFFFFFE00000) = true := by decide +kernel

/-- 95_test_vectors V7. -/
theorem test_readUInt32BE_V7 :
    answers (step (issuing [0x00, 0x00, 0x00, 0x00] 0x14 (some 4294967295) none))
      (fun t => t.status == 0b10 && t.cause == 4 && t.buf == Memory.ofBytes [0x00, 0x00, 0x00, 0x00]) = true := by decide +kernel

/-- 95_test_vectors S-R1. -/
theorem test_readInt8_S_R1 :
    answers (step (issuing [0x7F] 0x20 (some 0) none))
      (fun t => t.status == 0b01 && t.readResult == some 0x405FC00000000000) = true := by decide +kernel

/-- 95_test_vectors S-R2. -/
theorem test_readInt8_S_R2 :
    answers (step (issuing [0x80] 0x20 (some 0) none))
      (fun t => t.status == 0b01 && t.readResult == some 0xC060000000000000) = true := by decide +kernel

/-- 95_test_vectors S-R5. -/
theorem test_readInt16LE_S_R5 :
    answers (step (issuing [0x00, 0x80] 0x28 (some 0) none))
      (fun t => t.status == 0b01 && t.readResult == some 0xC0E0000000000000) = true := by decide +kernel

/-- 95_test_vectors S-R7. -/
theorem test_readInt16LE_S_R7 :
    answers (step (issuing [0xFF, 0x7F] 0x28 (some 0) none))
      (fun t => t.status == 0b01 && t.readResult == some 0x40DFFFC000000000) = true := by decide +kernel

/-- 95_test_vectors S-R6. -/
theorem test_readInt16BE_S_R6 :
    answers (step (issuing [0x80, 0x00] 0x2C (some 0) none))
      (fun t => t.status == 0b01 && t.readResult == some 0xC0E0000000000000) = true := by decide +kernel

/-- 95_test_vectors S-R13. -/
theorem test_readInt16BE_S_R13 :
    answers (step (issuing [0xFF] 0x2C (some 0) none))
      (fun t => t.status == 0b10 && t.cause == 4 && t.buf == Memory.ofBytes [0xFF]) = true := by decide +kernel

/-- 95_test_vectors S-R8. -/
theorem test_readInt32LE_S_R8 :
    answers (step (issuing [0xFF, 0xFF, 0xFF, 0xFF] 0x30 (some 0) none))
      (fun t => t.status == 0b01 && t.readResult == some 0xBFF0000000000000) = true := by decide +kernel

/-- 95_test_vectors S-R9. -/
theorem test_readInt32LE_S_R9 :
    answers (step (issuing [0xFF, 0xFF, 0x00, 0x00] 0x30 (some 0) none))
      (fun t => t.status == 0b01 && t.readResult == some 0x40EFFFE000000000) = true := by decide +kernel

/-- 95_test_vectors S-R10. -/
theorem test_readInt32BE_S_R10 :
    answers (step (issuing [0x80, 0x00, 0x00, 0x00] 0x34 (some 0) none))
      (fun t => t.status == 0b01 && t.readResult == some 0xC1E0000000000000) = true := by decide +kernel

/-- 95_test_vectors S-R12. -/
theorem test_readInt32BE_S_R12 :
    answers (step (issuing [0xFF, 0xFF, 0xFF, 0xFE] 0x34 (some 0) none))
      (fun t => t.status == 0b01 && t.readResult == some 0xC000000000000000) = true := by decide +kernel

/-- 95_test_vectors F-R5: the read completes, and whatever is drawn RESULT is a NaN. -/
theorem test_readFloatLE_F_R5 :
    answers (step (issuing [0x00, 0x00, 0xC0, 0x7F] 0x50 (some 0) none))
        (fun t => t.status == 0b01 && t.resultValid) = true
      ∧ ∀ draw, isNaN64 (floatResult single [0x00, 0x00, 0xC0, 0x7F] false draw) = true := by
  refine ⟨by decide +kernel, fun draw => ?_⟩
  have h : unpack single [0x00, 0x00, 0xC0, 0x7F] false = .nan := by decide +kernel
  rw [floatResult, h]
  exact isNaN64_toNaN _

/-- 95_test_vectors F-R9. -/
theorem test_readFloatLE_F_R9 :
    answers (step (issuing [0x3F, 0xC0, 0x00, 0x00] 0x50 (some 0) none))
      (fun t => t.status == 0b01 && t.readResult == some 0x379807E000000000) = true := by decide +kernel

/-- 95_test_vectors F-R3. -/
theorem test_readFloatBE_F_R3 :
    answers (step (issuing [0x40, 0x49, 0x0F, 0xDB] 0x54 (some 0) none))
      (fun t => t.status == 0b01 && t.readResult == some 0x400921FB60000000) = true := by decide +kernel

/-- 95_test_vectors F-R8. -/
theorem test_readFloatBE_F_R8 :
    answers (step (issuing [0x7F, 0x7F, 0xFF, 0xFF] 0x54 (some 0) none))
      (fun t => t.status == 0b01 && t.readResult == some 0x47EFFFFFE0000000) = true := by decide +kernel

/-- 95_test_vectors F-R12. -/
theorem test_readDoubleLE_F_R12 :
    answers (step (issuing [0x01, 0x00, 0x00, 0x00, 0x00, 0x00, 0x00, 0x00] 0x58 (some 0) none))
      (fun t => t.status == 0b01 && t.readResult == some 0x0000000000000001) = true := by decide +kernel

/-- 95_test_vectors F-R15. -/
theorem test_readDoubleLE_F_R15 :
    answers (step (issuing [0x00, 0x00, 0x00, 0x00, 0x00, 0x00, 0x00] 0x58 (some 0) none))
      (fun t => t.status == 0b10 && t.cause == 4 && t.buf == Memory.ofBytes [0x00, 0x00, 0x00, 0x00, 0x00, 0x00, 0x00]) = true := by decide +kernel

/-- 95_test_vectors F-R10. -/
theorem test_readDoubleBE_F_R10 :
    answers (step (issuing [0x3F, 0xF0, 0x00, 0x00, 0x00, 0x00, 0x00, 0x00] 0x5C (some 0) none))
      (fun t => t.status == 0b01 && t.readResult == some 0x3FF0000000000000) = true := by decide +kernel

/-- 95_test_vectors F-R13. -/
theorem test_readDoubleBE_F_R13 :
    answers (step (issuing [0x80, 0x00, 0x00, 0x00, 0x00, 0x00, 0x00, 0x00] 0x5C (some 0) none))
      (fun t => t.status == 0b01 && t.readResult == some 0x8000000000000000) = true := by decide +kernel

/-- 95_test_vectors U-W3. -/
theorem test_writeUInt8_U_W3 :
    answers (step (issuing [0x00] 0x80 (some 0) (some 0xBFF0000000000000)))
      (fun t => t.status == 0b10 && t.cause == 5 && t.buf == Memory.ofBytes [0x00]) = true := by decide +kernel

/-- 95_test_vectors U-W4. -/
theorem test_writeUInt8_U_W4 :
    answers (step (issuing [0x55] 0x80 (some 0) (some 0x8000000000000000)))
      (fun t => t.status == 0b01 && t.readResult == none && t.buf == Memory.ofBytes [0x00]) = true := by decide +kernel

/-- 95_test_vectors U-W6. -/
theorem test_writeUInt16LE_U_W6 :
    answers (step (issuing [0x00, 0x00] 0x88 (some 0) (some 0x40B2340000000000)))
      (fun t => t.status == 0b01 && t.readResult == none && t.buf == Memory.ofBytes [0x34, 0x12]) = true := by decide +kernel

/-- 95_test_vectors U-W9. -/
theorem test_writeUInt16LE_U_W9 :
    answers (step (issuing [0xAA, 0xBB] 0x88 (some 1) (some 0x3FF0000000000000)))
      (fun t => t.status == 0b10 && t.cause == 4 && t.buf == Memory.ofBytes [0xAA, 0xBB]) = true := by decide +kernel

/-- 95_test_vectors U-W7. -/
theorem test_writeUInt16BE_U_W7 :
    answers (step (issuing [0x00, 0x00] 0x8C (some 0) (some 0x40B2340000000000)))
      (fun t => t.status == 0b01 && t.readResult == none && t.buf == Memory.ofBytes [0x12, 0x34]) = true := by decide +kernel

/-- 95_test_vectors U-W8. -/
theorem test_writeUInt16BE_U_W8 :
    answers (step (issuing [0x00, 0x00] 0x8C (some 0) (some 0x40F0000000000000)))
      (fun t => t.status == 0b10 && t.cause == 5 && t.buf == Memory.ofBytes [0x00, 0x00]) = true := by decide +kernel

/-- 95_test_vectors U-W10. -/
theorem test_writeUInt32LE_U_W10 :
    answers (step (issuing [0x00, 0x00, 0x00, 0x00] 0x90 (some 0) (some 0x41EBD5B7DDE00000)))
      (fun t => t.status == 0b01 && t.readResult == none && t.buf == Memory.ofBytes [0xEF, 0xBE, 0xAD, 0xDE]) = true := by decide +kernel

/-- 95_test_vectors U-W13. -/
theorem test_writeUInt32LE_U_W13 :
    answers (step (issuing [0x00, 0x00, 0x00, 0x00] 0x90 (some 0) (some 0x41F0000000000000)))
      (fun t => t.status == 0b10 && t.cause == 5 && t.buf == Memory.ofBytes [0x00, 0x00, 0x00, 0x00]) = true := by decide +kernel

/-- 95_test_vectors U-W12. -/
theorem test_writeUInt32BE_U_W12 :
    answers (step (issuing [0x00, 0x00, 0x00, 0x00] 0x94 (some 0) (some 0x41EFFFFFFFE00000)))
      (fun t => t.status == 0b01 && t.readResult == none && t.buf == Memory.ofBytes [0xFF, 0xFF, 0xFF, 0xFF]) = true := by decide +kernel

/-- 95_test_vectors U-W14. -/
theorem test_writeUInt32BE_U_W14 :
    answers (step (issuing [0x00, 0x00, 0x00, 0x00, 0x00] 0x94 (some 1) (some 0x4170203040000000)))
      (fun t => t.status == 0b01 && t.readResult == none && t.buf == Memory.ofBytes [0x00, 0x01, 0x02, 0x03, 0x04]) = true := by decide +kernel

/-- 95_test_vectors S-W1. -/
theorem test_writeInt8_S_W1 :
    answers (step (issuing [0x00] 0xA0 (some 0) (some 0xC060000000000000)))
      (fun t => t.status == 0b01 && t.readResult == none && t.buf == Memory.ofBytes [0x80]) = true := by decide +kernel

/-- 95_test_vectors S-W4. -/
theorem test_writeInt8_S_W4 :
    answers (step (issuing [0x00] 0xA0 (some 0) (some 0xC060200000000000)))
      (fun t => t.status == 0b10 && t.cause == 5 && t.buf == Memory.ofBytes [0x00]) = true := by decide +kernel

/-- 95_test_vectors S-W6. -/
theorem test_writeInt16LE_S_W6 :
    answers (step (issuing [0x00, 0x00] 0xA8 (some 0) (some 0xC000000000000000)))
      (fun t => t.status == 0b01 && t.readResult == none && t.buf == Memory.ofBytes [0xFE, 0xFF]) = true := by decide +kernel

/-- 95_test_vectors S-W10. -/
theorem test_writeInt16LE_S_W10 :
    answers (step (issuing [0x00, 0x00] 0xA8 (some 0) (some 0x400C000000000000)))
      (fun t => t.status == 0b10 && t.cause == 6 && t.buf == Memory.ofBytes [0x00, 0x00]) = true := by decide +kernel

/-- 95_test_vectors S-W7. -/
theorem test_writeInt16BE_S_W7 :
    answers (step (issuing [0x00, 0x00] 0xAC (some 0) (some 0xBFF0000000000000)))
      (fun t => t.status == 0b01 && t.readResult == none && t.buf == Memory.ofBytes [0xFF, 0xFF]) = true := by decide +kernel

/-- 95_test_vectors S-W9. -/
theorem test_writeInt16BE_S_W9 :
    answers (step (issuing [0x00, 0x00] 0xAC (some 0) (some 0x40E0000000000000)))
      (fun t => t.status == 0b10 && t.cause == 5 && t.buf == Memory.ofBytes [0x00, 0x00]) = true := by decide +kernel

/-- 95_test_vectors S-W11. -/
theorem test_writeInt32LE_S_W11 :
    answers (step (issuing [0x00, 0x00, 0x00, 0x00] 0xB0 (some 0) (some 0xC1E0000000000000)))
      (fun t => t.status == 0b01 && t.readResult == none && t.buf == Memory.ofBytes [0x00, 0x00, 0x00, 0x80]) = true := by decide +kernel

/-- 95_test_vectors S-W14. -/
theorem test_writeInt32LE_S_W14 :
    answers (step (issuing [0x00, 0x00, 0x00, 0x00] 0xB0 (some 0) (some 0xC000000000000000)))
      (fun t => t.status == 0b01 && t.readResult == none && t.buf == Memory.ofBytes [0xFE, 0xFF, 0xFF, 0xFF]) = true := by decide +kernel

/-- 95_test_vectors S-W12. -/
theorem test_writeInt32BE_S_W12 :
    answers (step (issuing [0x00, 0x00, 0x00, 0x00] 0xB4 (some 0) (some 0x41DFFFFFFFC00000)))
      (fun t => t.status == 0b01 && t.readResult == none && t.buf == Memory.ofBytes [0x7F, 0xFF, 0xFF, 0xFF]) = true := by decide +kernel

/-- 95_test_vectors S-W13. -/
theorem test_writeInt32BE_S_W13 :
    answers (step (issuing [0x00, 0x00, 0x00, 0x00] 0xB4 (some 0) (some 0x41E0000000000000)))
      (fun t => t.status == 0b10 && t.cause == 5 && t.buf == Memory.ofBytes [0x00, 0x00, 0x00, 0x00]) = true := by decide +kernel

/-- 95_test_vectors F-W9. -/
theorem test_writeFloatLE_F_W9 :
    answers (step (issuing [0x00, 0x00, 0x00, 0x00] 0xD0 (some 0) (some 0x8000000000000000)))
      (fun t => t.status == 0b01 && t.readResult == none && t.buf == Memory.ofBytes [0x00, 0x00, 0x00, 0x80]) = true := by decide +kernel

/-- 95_test_vectors F-W12. -/
theorem test_writeFloatLE_F_W12 :
    answers (step (issuing [0x00, 0x00, 0x00, 0x00] 0xD0 (some 0) (some 0x7FF8000000000000)))
      (fun t => t.status == 0b10 && t.cause == 5 && t.buf == Memory.ofBytes [0x00, 0x00, 0x00, 0x00]) = true := by decide +kernel

/-- 95_test_vectors F-W4. -/
theorem test_writeFloatBE_F_W4 :
    answers (step (issuing [0x00, 0x00, 0x00, 0x00] 0xD4 (some 0) (some 0x47EFFFFFE0000000)))
      (fun t => t.status == 0b01 && t.readResult == none && t.buf == Memory.ofBytes [0x7F, 0x7F, 0xFF, 0xFF]) = true := by decide +kernel

/-- 95_test_vectors F-W5. -/
theorem test_writeFloatBE_F_W5 :
    answers (step (issuing [0x00, 0x00, 0x00, 0x00] 0xD4 (some 0) (some 0x47EFFFFFE0000001)))
      (fun t => t.status == 0b10 && t.cause == 5 && t.buf == Memory.ofBytes [0x00, 0x00, 0x00, 0x00]) = true := by decide +kernel

/-- 95_test_vectors F-W8. -/
theorem test_writeDoubleLE_F_W8 :
    answers (step (issuing [0x00, 0x00, 0x00, 0x00, 0x00, 0x00, 0x00, 0x00] 0xD8 (some 0) (some 0x483D6329F1C35CA5)))
      (fun t => t.status == 0b01 && t.readResult == none && t.buf == Memory.ofBytes [0xA5, 0x5C, 0xC3, 0xF1, 0x29, 0x63, 0x3D, 0x48]) = true := by decide +kernel

/-- 95_test_vectors F-W17. -/
theorem test_writeDoubleLE_F_W17 :
    answers (step (issuing [0x00, 0x00, 0x00, 0x00, 0x00, 0x00, 0x00, 0x00] 0xD8 (some 0) (some 0x0000000000000001)))
      (fun t => t.status == 0b01 && t.readResult == none && t.buf == Memory.ofBytes [0x01, 0x00, 0x00, 0x00, 0x00, 0x00, 0x00, 0x00]) = true := by decide +kernel

/-- 95_test_vectors F-W16. -/
theorem test_writeDoubleBE_F_W16 :
    answers (step (issuing [0x00, 0x00, 0x00, 0x00, 0x00, 0x00, 0x00, 0x00] 0xDC (some 0) (some 0x7FF0000000000000)))
      (fun t => t.status == 0b10 && t.cause == 5 && t.buf == Memory.ofBytes [0x00, 0x00, 0x00, 0x00, 0x00, 0x00, 0x00, 0x00]) = true := by decide +kernel

/-- 95_test_vectors F-W18. -/
theorem test_writeDoubleBE_F_W18 :
    answers (step (issuing [0x00, 0x00, 0x00, 0x00, 0x00, 0x00, 0x00, 0x00] 0xDC (some 0) (some 0x8000000000000000)))
      (fun t => t.status == 0b01 && t.readResult == none && t.buf == Memory.ofBytes [0x80, 0x00, 0x00, 0x00, 0x00, 0x00, 0x00, 0x00]) = true := by decide +kernel

/-- 95_test_vectors E1. -/
theorem test_illegal_E1 :
    answers (step (issuing [0x42] 0x01 (some 0) none))
      (fun t => t.status == 0b11 && t.cause == 0 && t.readResult == none && t.buf == Memory.ofBytes [0x42]) = true := by decide +kernel

/-- 95_test_vectors E4. -/
theorem test_illegal_E4 :
    answers (step (issuing [0x42, 0x42, 0x42, 0x42, 0x42, 0x42, 0x42, 0x42] 0x42 (some 0) none))
      (fun t => t.status == 0b11 && t.cause == 0 && t.readResult == none && t.buf == Memory.ofBytes [0x42, 0x42, 0x42, 0x42, 0x42, 0x42, 0x42, 0x42]) = true := by decide +kernel

/-- 95_test_vectors V3: both causes may be reported, and no other. -/
theorem test_either_cause_V3 :
    answers (step (issuing [0x00, 0x00] 0x80 none none)) (fun t => t.status == 0b10) = true
      ∧ failingSet (unsignedWriteChecks 1) (holding [0x00, 0x00] none none)
          = [.missingValue, .missingOffset] := by decide +kernel

/-- 95_test_vectors F-W3, F-W10, F-W11: the words packed under the default ROUND32. -/
theorem test_default_rounding :
    pack32With (round32With nearestEven) 0x3FB999999999999A = 0x3DCCCCCD
      ∧ pack32With (round32With nearestEven) 0x4170000010000000 = 0x4B800000
      ∧ pack32With (round32With nearestEven) 0x3690000000000000 = 0x00000000 := by decide +kernel

/-- 43_validation R127: the decimal bounds, read as binary64 literals, are the largest finite values. -/
theorem test_bounds_are_the_literals :
    (Literal.number false 34028234663852886 22).word = some 0x47EFFFFFE0000000
      ∧ f64val 0x47EFFFFFE0000000 = .fin fltMaxBound
      ∧ (Literal.number false 17976931348623157 292).word = some 0x7FEFFFFFFFFFFFFF
      ∧ f64val 0x7FEFFFFFFFFFFFFF = .fin dblMaxBound := by decide +kernel

/-- 30_encoding R62: lines of 95_test_vectors (S6b, F-W4, V3, V10) and the ports they stand for. -/
theorem test_assembled_lines :
    assembleText "writeInt16BE 3.5, 0" = some ⟨0xAC, 0, true, 0x400C000000000000, true⟩
      ∧ assembleText "writeFloatBE 3.4028234663852886e+38, 0" = some ⟨0xD4, 0, true, 0x47EFFFFFE0000000, true⟩
      ∧ assembleText "writeUInt8 _, _" = some ⟨0x80, 0, false, 0, false⟩
      ∧ assembleText "writeUInt8 300.0, 0, noAssert" = some ⟨0x82, 0, true, 0x4072C00000000000, true⟩ := by
  decide +kernel

/-- 30_encoding R62, R64: generic forms, and lines that do not assemble. -/
theorem test_generic_lines :
    assembleText "readInt 2, LE, 0x10" = some ⟨0x28, 16, true, 0, false⟩
      ∧ assembleText "writeFP double, BE, -2, 3, noAssert" = some ⟨0xDE, 3, true, 0xC000000000000000, true⟩
      ∧ assembleText "readUInt 3, BE, 0" = none ∧ assembleText "readUInt8 -1" = none
      ∧ assembleText "readUInt24LE 0" = none ∧ assembleText "readFP half, LE, 0" = none
      ∧ assembleText "writeFP quad, BE, 1.0, 0" = none := by
  decide +kernel

/-- 70_reset R152: a reset during a write abandons it; the output ports take their reset values. -/
theorem test_reset_during_a_transaction :
    answers (step
      { holding [0x80] none none with
        status := 0b10, cause := 4, events := [.resetDuring (ports 0x80 (some 0) (some 0))] })
      (fun t => t.status == 0b00 && t.cause == 0 && t.readResult == none && t.bufLen == 1
        && t.recorded == some .resetDuring) = true := by decide +kernel

/-- 95_test_vectors U-R1 through the host's interface: the word placed after reset runs in the next step. -/
theorem test_fetch_word_runs_next :
    answers (step ((holding [0x80] (some 0) none).withFetchWord 8 0x00))
      (fun t => t.status == 0b01 && t.readResult == some 0x4060000000000000) = true
      ∧ answers (step (State.reset.withFetchWord 8 0x00))
        (fun t => t.status == 0b10 && t.cause == 1) = true := by decide +kernel

/-! ### The hypotheses of the statements are met -/

theorem test_meets_ReadUInt8ReturnsTheByte :
    spanInBuffer 1 (holding [0x11, 0x11] (some 1) none)
      ∧ readFails 1 (holding [0x11, 0x11] none none) 1
      ∧ readFails 1 (holding [0x11, 0x11] (some 2) none) 4 :=
  ⟨⟨rfl, by decide⟩, .inl ⟨rfl, rfl⟩, .inr ⟨rfl, rfl, by decide⟩⟩

theorem test_meets_ReadUInt16LEReturnsUnsignedValue :
    spanInBuffer 2 (holding [0x11, 0x11, 0x11] (some 1) none)
      ∧ readFails 2 (holding [0x11, 0x11, 0x11] none none) 1
      ∧ readFails 2 (holding [0x11, 0x11, 0x11] (some 2) none) 4 :=
  ⟨⟨rfl, by decide⟩, .inl ⟨rfl, rfl⟩, .inr ⟨rfl, rfl, by decide⟩⟩

theorem test_meets_ReadUInt16BEReturnsUnsignedValue :
    spanInBuffer 2 (holding [0x11, 0x11, 0x11] (some 1) none)
      ∧ readFails 2 (holding [0x11, 0x11, 0x11] none none) 1
      ∧ readFails 2 (holding [0x11, 0x11, 0x11] (some 2) none) 4 :=
  ⟨⟨rfl, by decide⟩, .inl ⟨rfl, rfl⟩, .inr ⟨rfl, rfl, by decide⟩⟩

theorem test_meets_ReadUInt32LEReturnsUnsignedValue :
    spanInBuffer 4 (holding [0x11, 0x11, 0x11, 0x11, 0x11] (some 1) none)
      ∧ readFails 4 (holding [0x11, 0x11, 0x11, 0x11, 0x11] none none) 1
      ∧ readFails 4 (holding [0x11, 0x11, 0x11, 0x11, 0x11] (some 2) none) 4 :=
  ⟨⟨rfl, by decide⟩, .inl ⟨rfl, rfl⟩, .inr ⟨rfl, rfl, by decide⟩⟩

theorem test_meets_ReadUInt32BEReturnsUnsignedValue :
    spanInBuffer 4 (holding [0x11, 0x11, 0x11, 0x11, 0x11] (some 1) none)
      ∧ readFails 4 (holding [0x11, 0x11, 0x11, 0x11, 0x11] none none) 1
      ∧ readFails 4 (holding [0x11, 0x11, 0x11, 0x11, 0x11] (some 2) none) 4 :=
  ⟨⟨rfl, by decide⟩, .inl ⟨rfl, rfl⟩, .inr ⟨rfl, rfl, by decide⟩⟩

theorem test_meets_ReadInt8ReturnsSignedValue :
    spanInBuffer 1 (holding [0x11, 0x11] (some 1) none)
      ∧ readFails 1 (holding [0x11, 0x11] none none) 1
      ∧ readFails 1 (holding [0x11, 0x11] (some 2) none) 4 :=
  ⟨⟨rfl, by decide⟩, .inl ⟨rfl, rfl⟩, .inr ⟨rfl, rfl, by decide⟩⟩

theorem test_meets_ReadInt16LEReturnsSignedValue :
    spanInBuffer 2 (holding [0x11, 0x11, 0x11] (some 1) none)
      ∧ readFails 2 (holding [0x11, 0x11, 0x11] none none) 1
      ∧ readFails 2 (holding [0x11, 0x11, 0x11] (some 2) none) 4 :=
  ⟨⟨rfl, by decide⟩, .inl ⟨rfl, rfl⟩, .inr ⟨rfl, rfl, by decide⟩⟩

theorem test_meets_ReadInt16BEReturnsSignedValue :
    spanInBuffer 2 (holding [0x11, 0x11, 0x11] (some 1) none)
      ∧ readFails 2 (holding [0x11, 0x11, 0x11] none none) 1
      ∧ readFails 2 (holding [0x11, 0x11, 0x11] (some 2) none) 4 :=
  ⟨⟨rfl, by decide⟩, .inl ⟨rfl, rfl⟩, .inr ⟨rfl, rfl, by decide⟩⟩

theorem test_meets_ReadInt32LEReturnsSignedValue :
    spanInBuffer 4 (holding [0x11, 0x11, 0x11, 0x11, 0x11] (some 1) none)
      ∧ readFails 4 (holding [0x11, 0x11, 0x11, 0x11, 0x11] none none) 1
      ∧ readFails 4 (holding [0x11, 0x11, 0x11, 0x11, 0x11] (some 2) none) 4 :=
  ⟨⟨rfl, by decide⟩, .inl ⟨rfl, rfl⟩, .inr ⟨rfl, rfl, by decide⟩⟩

theorem test_meets_ReadInt32BEReturnsSignedValue :
    spanInBuffer 4 (holding [0x11, 0x11, 0x11, 0x11, 0x11] (some 1) none)
      ∧ readFails 4 (holding [0x11, 0x11, 0x11, 0x11, 0x11] none none) 1
      ∧ readFails 4 (holding [0x11, 0x11, 0x11, 0x11, 0x11] (some 2) none) 4 :=
  ⟨⟨rfl, by decide⟩, .inl ⟨rfl, rfl⟩, .inr ⟨rfl, rfl, by decide⟩⟩

theorem test_meets_ReadFloatLEReturnsSingleValue :
    spanInBuffer 4 (holding [0x11, 0x11, 0x11, 0x11, 0x11] (some 1) none)
      ∧ readFails 4 (holding [0x11, 0x11, 0x11, 0x11, 0x11] none none) 1
      ∧ readFails 4 (holding [0x11, 0x11, 0x11, 0x11, 0x11] (some 2) none) 4 :=
  ⟨⟨rfl, by decide⟩, .inl ⟨rfl, rfl⟩, .inr ⟨rfl, rfl, by decide⟩⟩

theorem test_meets_ReadFloatBEReturnsSingleValue :
    spanInBuffer 4 (holding [0x11, 0x11, 0x11, 0x11, 0x11] (some 1) none)
      ∧ readFails 4 (holding [0x11, 0x11, 0x11, 0x11, 0x11] none none) 1
      ∧ readFails 4 (holding [0x11, 0x11, 0x11, 0x11, 0x11] (some 2) none) 4 :=
  ⟨⟨rfl, by decide⟩, .inl ⟨rfl, rfl⟩, .inr ⟨rfl, rfl, by decide⟩⟩

theorem test_meets_ReadDoubleLEReturnsDoubleValue :
    spanInBuffer 8 (holding [0x11, 0x11, 0x11, 0x11, 0x11, 0x11, 0x11, 0x11, 0x11] (some 1) none)
      ∧ readFails 8 (holding [0x11, 0x11, 0x11, 0x11, 0x11, 0x11, 0x11, 0x11, 0x11] none none) 1
      ∧ readFails 8 (holding [0x11, 0x11, 0x11, 0x11, 0x11, 0x11, 0x11, 0x11, 0x11] (some 2) none) 4 :=
  ⟨⟨rfl, by decide⟩, .inl ⟨rfl, rfl⟩, .inr ⟨rfl, rfl, by decide⟩⟩

theorem test_meets_ReadDoubleBEReturnsDoubleValue :
    spanInBuffer 8 (holding [0x11, 0x11, 0x11, 0x11, 0x11, 0x11, 0x11, 0x11, 0x11] (some 1) none)
      ∧ readFails 8 (holding [0x11, 0x11, 0x11, 0x11, 0x11, 0x11, 0x11, 0x11, 0x11] none none) 1
      ∧ readFails 8 (holding [0x11, 0x11, 0x11, 0x11, 0x11, 0x11, 0x11, 0x11, 0x11] (some 2) none) 4 :=
  ⟨⟨rfl, by decide⟩, .inl ⟨rfl, rfl⟩, .inr ⟨rfl, rfl, by decide⟩⟩

theorem test_meets_WriteUInt8StoresUnsignedByte :
    (holding [0x11, 0x11] (some 1) none).buf.wf
      ∧ spanInBuffer 1 (holding [0x11, 0x11] (some 1) none)
      ∧ valueIsInteger (holding [0x11, 0x11] (some 1) (some 0x0000000000000000)) 0
      ∧ valueIsInteger (holding [0x11, 0x11] (some 1) (some 0x406FE00000000000)) 255
      ∧ integerWriteFails 1 0 255 (holding [0x11, 0x11] none none) 1 ∧ integerWriteFails 1 0 255 (holding [0x11, 0x11] (some 2) none) 4
      ∧ integerWriteFails 1 0 255 (holding [0x11, 0x11] (some 1) none) 2
      ∧ integerWriteFails 1 0 255 (holding [0x11, 0x11] (some 1) (some 0x4070000000000000)) 5
      ∧ integerWriteFails 1 0 255 (holding [0x11, 0x11] (some 1) (some 0xBFF0000000000000)) 5
      ∧ integerWriteFails 1 0 255 (holding [0x11, 0x11] (some 1) (some 0x3FF8000000000000)) 6 :=
  ⟨by decide, ⟨rfl, by decide⟩, ⟨rfl, by decide +kernel⟩, ⟨rfl, by decide +kernel⟩,
    .inl (.inl ⟨rfl, rfl⟩), .inl (.inr ⟨rfl, rfl, by decide⟩), .inr (.inl ⟨rfl, rfl⟩),
    .inr (.inr (.inl ⟨rfl, rfl, by decide +kernel⟩)), .inr (.inr (.inl ⟨rfl, rfl, by decide +kernel⟩)),
    .inr (.inr (.inr ⟨rfl, rfl, by decide +kernel⟩))⟩

theorem test_meets_WriteUInt16LEStoresUnsignedBytes :
    (holding [0x11, 0x11, 0x11] (some 1) none).buf.wf
      ∧ spanInBuffer 2 (holding [0x11, 0x11, 0x11] (some 1) none)
      ∧ valueIsInteger (holding [0x11, 0x11, 0x11] (some 1) (some 0x0000000000000000)) 0
      ∧ valueIsInteger (holding [0x11, 0x11, 0x11] (some 1) (some 0x40EFFFE000000000)) 65535
      ∧ integerWriteFails 2 0 65535 (holding [0x11, 0x11, 0x11] none none) 1 ∧ integerWriteFails 2 0 65535 (holding [0x11, 0x11, 0x11] (some 2) none) 4
      ∧ integerWriteFails 2 0 65535 (holding [0x11, 0x11, 0x11] (some 1) none) 2
      ∧ integerWriteFails 2 0 65535 (holding [0x11, 0x11, 0x11] (some 1) (some 0x40F0000000000000)) 5
      ∧ integerWriteFails 2 0 65535 (holding [0x11, 0x11, 0x11] (some 1) (some 0xBFF0000000000000)) 5
      ∧ integerWriteFails 2 0 65535 (holding [0x11, 0x11, 0x11] (some 1) (some 0x3FF8000000000000)) 6 :=
  ⟨by decide, ⟨rfl, by decide⟩, ⟨rfl, by decide +kernel⟩, ⟨rfl, by decide +kernel⟩,
    .inl (.inl ⟨rfl, rfl⟩), .inl (.inr ⟨rfl, rfl, by decide⟩), .inr (.inl ⟨rfl, rfl⟩),
    .inr (.inr (.inl ⟨rfl, rfl, by decide +kernel⟩)), .inr (.inr (.inl ⟨rfl, rfl, by decide +kernel⟩)),
    .inr (.inr (.inr ⟨rfl, rfl, by decide +kernel⟩))⟩

theorem test_meets_WriteUInt16BEStoresUnsignedBytes :
    (holding [0x11, 0x11, 0x11] (some 1) none).buf.wf
      ∧ spanInBuffer 2 (holding [0x11, 0x11, 0x11] (some 1) none)
      ∧ valueIsInteger (holding [0x11, 0x11, 0x11] (some 1) (some 0x0000000000000000)) 0
      ∧ valueIsInteger (holding [0x11, 0x11, 0x11] (some 1) (some 0x40EFFFE000000000)) 65535
      ∧ integerWriteFails 2 0 65535 (holding [0x11, 0x11, 0x11] none none) 1 ∧ integerWriteFails 2 0 65535 (holding [0x11, 0x11, 0x11] (some 2) none) 4
      ∧ integerWriteFails 2 0 65535 (holding [0x11, 0x11, 0x11] (some 1) none) 2
      ∧ integerWriteFails 2 0 65535 (holding [0x11, 0x11, 0x11] (some 1) (some 0x40F0000000000000)) 5
      ∧ integerWriteFails 2 0 65535 (holding [0x11, 0x11, 0x11] (some 1) (some 0xBFF0000000000000)) 5
      ∧ integerWriteFails 2 0 65535 (holding [0x11, 0x11, 0x11] (some 1) (some 0x3FF8000000000000)) 6 :=
  ⟨by decide, ⟨rfl, by decide⟩, ⟨rfl, by decide +kernel⟩, ⟨rfl, by decide +kernel⟩,
    .inl (.inl ⟨rfl, rfl⟩), .inl (.inr ⟨rfl, rfl, by decide⟩), .inr (.inl ⟨rfl, rfl⟩),
    .inr (.inr (.inl ⟨rfl, rfl, by decide +kernel⟩)), .inr (.inr (.inl ⟨rfl, rfl, by decide +kernel⟩)),
    .inr (.inr (.inr ⟨rfl, rfl, by decide +kernel⟩))⟩

theorem test_meets_WriteUInt32LEStoresUnsignedBytes :
    (holding [0x11, 0x11, 0x11, 0x11, 0x11] (some 1) none).buf.wf
      ∧ spanInBuffer 4 (holding [0x11, 0x11, 0x11, 0x11, 0x11] (some 1) none)
      ∧ valueIsInteger (holding [0x11, 0x11, 0x11, 0x11, 0x11] (some 1) (some 0x0000000000000000)) 0
      ∧ valueIsInteger (holding [0x11, 0x11, 0x11, 0x11, 0x11] (some 1) (some 0x41EFFFFFFFE00000)) 4294967295
      ∧ integerWriteFails 4 0 4294967295 (holding [0x11, 0x11, 0x11, 0x11, 0x11] none none) 1 ∧ integerWriteFails 4 0 4294967295 (holding [0x11, 0x11, 0x11, 0x11, 0x11] (some 2) none) 4
      ∧ integerWriteFails 4 0 4294967295 (holding [0x11, 0x11, 0x11, 0x11, 0x11] (some 1) none) 2
      ∧ integerWriteFails 4 0 4294967295 (holding [0x11, 0x11, 0x11, 0x11, 0x11] (some 1) (some 0x41F0000000000000)) 5
      ∧ integerWriteFails 4 0 4294967295 (holding [0x11, 0x11, 0x11, 0x11, 0x11] (some 1) (some 0xBFF0000000000000)) 5
      ∧ integerWriteFails 4 0 4294967295 (holding [0x11, 0x11, 0x11, 0x11, 0x11] (some 1) (some 0x3FF8000000000000)) 6 :=
  ⟨by decide, ⟨rfl, by decide⟩, ⟨rfl, by decide +kernel⟩, ⟨rfl, by decide +kernel⟩,
    .inl (.inl ⟨rfl, rfl⟩), .inl (.inr ⟨rfl, rfl, by decide⟩), .inr (.inl ⟨rfl, rfl⟩),
    .inr (.inr (.inl ⟨rfl, rfl, by decide +kernel⟩)), .inr (.inr (.inl ⟨rfl, rfl, by decide +kernel⟩)),
    .inr (.inr (.inr ⟨rfl, rfl, by decide +kernel⟩))⟩

theorem test_meets_WriteUInt32BEStoresUnsignedBytes :
    (holding [0x11, 0x11, 0x11, 0x11, 0x11] (some 1) none).buf.wf
      ∧ spanInBuffer 4 (holding [0x11, 0x11, 0x11, 0x11, 0x11] (some 1) none)
      ∧ valueIsInteger (holding [0x11, 0x11, 0x11, 0x11, 0x11] (some 1) (some 0x0000000000000000)) 0
      ∧ valueIsInteger (holding [0x11, 0x11, 0x11, 0x11, 0x11] (some 1) (some 0x41EFFFFFFFE00000)) 4294967295
      ∧ integerWriteFails 4 0 4294967295 (holding [0x11, 0x11, 0x11, 0x11, 0x11] none none) 1 ∧ integerWriteFails 4 0 4294967295 (holding [0x11, 0x11, 0x11, 0x11, 0x11] (some 2) none) 4
      ∧ integerWriteFails 4 0 4294967295 (holding [0x11, 0x11, 0x11, 0x11, 0x11] (some 1) none) 2
      ∧ integerWriteFails 4 0 4294967295 (holding [0x11, 0x11, 0x11, 0x11, 0x11] (some 1) (some 0x41F0000000000000)) 5
      ∧ integerWriteFails 4 0 4294967295 (holding [0x11, 0x11, 0x11, 0x11, 0x11] (some 1) (some 0xBFF0000000000000)) 5
      ∧ integerWriteFails 4 0 4294967295 (holding [0x11, 0x11, 0x11, 0x11, 0x11] (some 1) (some 0x3FF8000000000000)) 6 :=
  ⟨by decide, ⟨rfl, by decide⟩, ⟨rfl, by decide +kernel⟩, ⟨rfl, by decide +kernel⟩,
    .inl (.inl ⟨rfl, rfl⟩), .inl (.inr ⟨rfl, rfl, by decide⟩), .inr (.inl ⟨rfl, rfl⟩),
    .inr (.inr (.inl ⟨rfl, rfl, by decide +kernel⟩)), .inr (.inr (.inl ⟨rfl, rfl, by decide +kernel⟩)),
    .inr (.inr (.inr ⟨rfl, rfl, by decide +kernel⟩))⟩

theorem test_meets_WriteInt8StoresSignedByte :
    (holding [0x11, 0x11] (some 1) none).buf.wf
      ∧ spanInBuffer 1 (holding [0x11, 0x11] (some 1) none)
      ∧ valueIsInteger (holding [0x11, 0x11] (some 1) (some 0xC060000000000000)) (-128)
      ∧ valueIsInteger (holding [0x11, 0x11] (some 1) (some 0x405FC00000000000)) 127
      ∧ integerWriteFails 1 (-128) 127 (holding [0x11, 0x11] none none) 1 ∧ integerWriteFails 1 (-128) 127 (holding [0x11, 0x11] (some 2) none) 4
      ∧ integerWriteFails 1 (-128) 127 (holding [0x11, 0x11] (some 1) none) 2
      ∧ integerWriteFails 1 (-128) 127 (holding [0x11, 0x11] (some 1) (some 0x4060000000000000)) 5
      ∧ integerWriteFails 1 (-128) 127 (holding [0x11, 0x11] (some 1) (some 0xC060200000000000)) 5
      ∧ integerWriteFails 1 (-128) 127 (holding [0x11, 0x11] (some 1) (some 0x3FF8000000000000)) 6 :=
  ⟨by decide, ⟨rfl, by decide⟩, ⟨rfl, by decide +kernel⟩, ⟨rfl, by decide +kernel⟩,
    .inl (.inl ⟨rfl, rfl⟩), .inl (.inr ⟨rfl, rfl, by decide⟩), .inr (.inl ⟨rfl, rfl⟩),
    .inr (.inr (.inl ⟨rfl, rfl, by decide +kernel⟩)), .inr (.inr (.inl ⟨rfl, rfl, by decide +kernel⟩)),
    .inr (.inr (.inr ⟨rfl, rfl, by decide +kernel⟩))⟩

theorem test_meets_WriteInt16LEStoresSignedBytes :
    (holding [0x11, 0x11, 0x11] (some 1) none).buf.wf
      ∧ spanInBuffer 2 (holding [0x11, 0x11, 0x11] (some 1) none)
      ∧ valueIsInteger (holding [0x11, 0x11, 0x11] (some 1) (some 0xC0E0000000000000)) (-32768)
      ∧ valueIsInteger (holding [0x11, 0x11, 0x11] (some 1) (some 0x40DFFFC000000000)) 32767
      ∧ integerWriteFails 2 (-32768) 32767 (holding [0x11, 0x11, 0x11] none none) 1 ∧ integerWriteFails 2 (-32768) 32767 (holding [0x11, 0x11, 0x11] (some 2) none) 4
      ∧ integerWriteFails 2 (-32768) 32767 (holding [0x11, 0x11, 0x11] (some 1) none) 2
      ∧ integerWriteFails 2 (-32768) 32767 (holding [0x11, 0x11, 0x11] (some 1) (some 0x40E0000000000000)) 5
      ∧ integerWriteFails 2 (-32768) 32767 (holding [0x11, 0x11, 0x11] (some 1) (some 0xC0E0002000000000)) 5
      ∧ integerWriteFails 2 (-32768) 32767 (holding [0x11, 0x11, 0x11] (some 1) (some 0x3FF8000000000000)) 6 :=
  ⟨by decide, ⟨rfl, by decide⟩, ⟨rfl, by decide +kernel⟩, ⟨rfl, by decide +kernel⟩,
    .inl (.inl ⟨rfl, rfl⟩), .inl (.inr ⟨rfl, rfl, by decide⟩), .inr (.inl ⟨rfl, rfl⟩),
    .inr (.inr (.inl ⟨rfl, rfl, by decide +kernel⟩)), .inr (.inr (.inl ⟨rfl, rfl, by decide +kernel⟩)),
    .inr (.inr (.inr ⟨rfl, rfl, by decide +kernel⟩))⟩

theorem test_meets_WriteInt16BEStoresSignedBytes :
    (holding [0x11, 0x11, 0x11] (some 1) none).buf.wf
      ∧ spanInBuffer 2 (holding [0x11, 0x11, 0x11] (some 1) none)
      ∧ valueIsInteger (holding [0x11, 0x11, 0x11] (some 1) (some 0xC0E0000000000000)) (-32768)
      ∧ valueIsInteger (holding [0x11, 0x11, 0x11] (some 1) (some 0x40DFFFC000000000)) 32767
      ∧ integerWriteFails 2 (-32768) 32767 (holding [0x11, 0x11, 0x11] none none) 1 ∧ integerWriteFails 2 (-32768) 32767 (holding [0x11, 0x11, 0x11] (some 2) none) 4
      ∧ integerWriteFails 2 (-32768) 32767 (holding [0x11, 0x11, 0x11] (some 1) none) 2
      ∧ integerWriteFails 2 (-32768) 32767 (holding [0x11, 0x11, 0x11] (some 1) (some 0x40E0000000000000)) 5
      ∧ integerWriteFails 2 (-32768) 32767 (holding [0x11, 0x11, 0x11] (some 1) (some 0xC0E0002000000000)) 5
      ∧ integerWriteFails 2 (-32768) 32767 (holding [0x11, 0x11, 0x11] (some 1) (some 0x3FF8000000000000)) 6 :=
  ⟨by decide, ⟨rfl, by decide⟩, ⟨rfl, by decide +kernel⟩, ⟨rfl, by decide +kernel⟩,
    .inl (.inl ⟨rfl, rfl⟩), .inl (.inr ⟨rfl, rfl, by decide⟩), .inr (.inl ⟨rfl, rfl⟩),
    .inr (.inr (.inl ⟨rfl, rfl, by decide +kernel⟩)), .inr (.inr (.inl ⟨rfl, rfl, by decide +kernel⟩)),
    .inr (.inr (.inr ⟨rfl, rfl, by decide +kernel⟩))⟩

theorem test_meets_WriteInt32LEStoresSignedBytes :
    (holding [0x11, 0x11, 0x11, 0x11, 0x11] (some 1) none).buf.wf
      ∧ spanInBuffer 4 (holding [0x11, 0x11, 0x11, 0x11, 0x11] (some 1) none)
      ∧ valueIsInteger (holding [0x11, 0x11, 0x11, 0x11, 0x11] (some 1) (some 0xC1E0000000000000)) (-2147483648)
      ∧ valueIsInteger (holding [0x11, 0x11, 0x11, 0x11, 0x11] (some 1) (some 0x41DFFFFFFFC00000)) 2147483647
      ∧ integerWriteFails 4 (-2147483648) 2147483647 (holding [0x11, 0x11, 0x11, 0x11, 0x11] none none) 1 ∧ integerWriteFails 4 (-2147483648) 2147483647 (holding [0x11, 0x11, 0x11, 0x11, 0x11] (some 2) none) 4
      ∧ integerWriteFails 4 (-2147483648) 2147483647 (holding [0x11, 0x11, 0x11, 0x11, 0x11] (some 1) none) 2
      ∧ integerWriteFails 4 (-2147483648) 2147483647 (holding [0x11, 0x11, 0x11, 0x11, 0x11] (some 1) (some 0x41E0000000000000)) 5
      ∧ integerWriteFails 4 (-2147483648) 2147483647 (holding [0x11, 0x11, 0x11, 0x11, 0x11] (some 1) (some 0xC1E0000000200000)) 5
      ∧ integerWriteFails 4 (-2147483648) 2147483647 (holding [0x11, 0x11, 0x11, 0x11, 0x11] (some 1) (some 0x3FF8000000000000)) 6 :=
  ⟨by decide, ⟨rfl, by decide⟩, ⟨rfl, by decide +kernel⟩, ⟨rfl, by decide +kernel⟩,
    .inl (.inl ⟨rfl, rfl⟩), .inl (.inr ⟨rfl, rfl, by decide⟩), .inr (.inl ⟨rfl, rfl⟩),
    .inr (.inr (.inl ⟨rfl, rfl, by decide +kernel⟩)), .inr (.inr (.inl ⟨rfl, rfl, by decide +kernel⟩)),
    .inr (.inr (.inr ⟨rfl, rfl, by decide +kernel⟩))⟩

theorem test_meets_WriteInt32BEStoresSignedBytes :
    (holding [0x11, 0x11, 0x11, 0x11, 0x11] (some 1) none).buf.wf
      ∧ spanInBuffer 4 (holding [0x11, 0x11, 0x11, 0x11, 0x11] (some 1) none)
      ∧ valueIsInteger (holding [0x11, 0x11, 0x11, 0x11, 0x11] (some 1) (some 0xC1E0000000000000)) (-2147483648)
      ∧ valueIsInteger (holding [0x11, 0x11, 0x11, 0x11, 0x11] (some 1) (some 0x41DFFFFFFFC00000)) 2147483647
      ∧ integerWriteFails 4 (-2147483648) 2147483647 (holding [0x11, 0x11, 0x11, 0x11, 0x11] none none) 1 ∧ integerWriteFails 4 (-2147483648) 2147483647 (holding [0x11, 0x11, 0x11, 0x11, 0x11] (some 2) none) 4
      ∧ integerWriteFails 4 (-2147483648) 2147483647 (holding [0x11, 0x11, 0x11, 0x11, 0x11] (some 1) none) 2
      ∧ integerWriteFails 4 (-2147483648) 2147483647 (holding [0x11, 0x11, 0x11, 0x11, 0x11] (some 1) (some 0x41E0000000000000)) 5
      ∧ integerWriteFails 4 (-2147483648) 2147483647 (holding [0x11, 0x11, 0x11, 0x11, 0x11] (some 1) (some 0xC1E0000000200000)) 5
      ∧ integerWriteFails 4 (-2147483648) 2147483647 (holding [0x11, 0x11, 0x11, 0x11, 0x11] (some 1) (some 0x3FF8000000000000)) 6 :=
  ⟨by decide, ⟨rfl, by decide⟩, ⟨rfl, by decide +kernel⟩, ⟨rfl, by decide +kernel⟩,
    .inl (.inl ⟨rfl, rfl⟩), .inl (.inr ⟨rfl, rfl, by decide⟩), .inr (.inl ⟨rfl, rfl⟩),
    .inr (.inr (.inl ⟨rfl, rfl, by decide +kernel⟩)), .inr (.inr (.inl ⟨rfl, rfl, by decide +kernel⟩)),
    .inr (.inr (.inr ⟨rfl, rfl, by decide +kernel⟩))⟩

theorem test_meets_WriteFloatLEStoresRoundedSingle :
    (holding [0x11, 0x11, 0x11, 0x11, 0x11] (some 1) none).buf.wf
      ∧ spanInBuffer 4 (holding [0x11, 0x11, 0x11, 0x11, 0x11] (some 1) none)
      ∧ f64val 0x47EFFFFFE0000000 = .fin ((2 ^ 24 - 1) * 2 ^ (104 + 1074))
      ∧ f64val 0xC7EFFFFFE0000000 = .fin (-((2 ^ 24 - 1) * 2 ^ (104 + 1074)))
      ∧ floatWriteFails 4 (fun v => ¬ ((FP.fin (-((2 ^ 24 - 1) * 2 ^ (104 + 1074)))).le v = true ∧ v.le (.fin ((2 ^ 24 - 1) * 2 ^ (104 + 1074))) = true)) (holding [0x11, 0x11, 0x11, 0x11, 0x11] none none) 1
      ∧ floatWriteFails 4 (fun v => ¬ ((FP.fin (-((2 ^ 24 - 1) * 2 ^ (104 + 1074)))).le v = true ∧ v.le (.fin ((2 ^ 24 - 1) * 2 ^ (104 + 1074))) = true)) (holding [0x11, 0x11, 0x11, 0x11, 0x11] (some 2) none) 4
      ∧ floatWriteFails 4 (fun v => ¬ ((FP.fin (-((2 ^ 24 - 1) * 2 ^ (104 + 1074)))).le v = true ∧ v.le (.fin ((2 ^ 24 - 1) * 2 ^ (104 + 1074))) = true)) (holding [0x11, 0x11, 0x11, 0x11, 0x11] (some 1) none) 2
      ∧ floatWriteFails 4 (fun v => ¬ ((FP.fin (-((2 ^ 24 - 1) * 2 ^ (104 + 1074)))).le v = true ∧ v.le (.fin ((2 ^ 24 - 1) * 2 ^ (104 + 1074))) = true)) (holding [0x11, 0x11, 0x11, 0x11, 0x11] (some 1) (some 0x47EFFFFFE0000001)) 5
      ∧ floatWriteFails 4 (fun v => ¬ ((FP.fin (-((2 ^ 24 - 1) * 2 ^ (104 + 1074)))).le v = true ∧ v.le (.fin ((2 ^ 24 - 1) * 2 ^ (104 + 1074))) = true)) (holding [0x11, 0x11, 0x11, 0x11, 0x11] (some 1) (some 0xC7EFFFFFE0000001)) 5
      ∧ floatWriteFails 4 (fun v => ¬ ((FP.fin (-((2 ^ 24 - 1) * 2 ^ (104 + 1074)))).le v = true ∧ v.le (.fin ((2 ^ 24 - 1) * 2 ^ (104 + 1074))) = true)) (holding [0x11, 0x11, 0x11, 0x11, 0x11] (some 1) (some 0x7FF8000000000000)) 5 :=
  ⟨by decide, ⟨rfl, by decide⟩, by decide +kernel, by decide +kernel,
    .inl (.inl ⟨rfl, rfl⟩), .inl (.inr ⟨rfl, rfl, by decide⟩), .inr (.inl ⟨rfl, rfl⟩),
    .inr (.inr ⟨rfl, rfl, by decide +kernel⟩), .inr (.inr ⟨rfl, rfl, by decide +kernel⟩),
    .inr (.inr ⟨rfl, rfl, by decide +kernel⟩)⟩

theorem test_meets_WriteFloatBEStoresRoundedSingle :
    (holding [0x11, 0x11, 0x11, 0x11, 0x11] (some 1) none).buf.wf
      ∧ spanInBuffer 4 (holding [0x11, 0x11, 0x11, 0x11, 0x11] (some 1) none)
      ∧ f64val 0x47EFFFFFE0000000 = .fin ((2 ^ 24 - 1) * 2 ^ (104 + 1074))
      ∧ f64val 0xC7EFFFFFE0000000 = .fin (-((2 ^ 24 - 1) * 2 ^ (104 + 1074)))
      ∧ floatWriteFails 4 (fun v => ¬ ((FP.fin (-((2 ^ 24 - 1) * 2 ^ (104 + 1074)))).le v = true ∧ v.le (.fin ((2 ^ 24 - 1) * 2 ^ (104 + 1074))) = true)) (holding [0x11, 0x11, 0x11, 0x11, 0x11] none none) 1
      ∧ floatWriteFails 4 (fun v => ¬ ((FP.fin (-((2 ^ 24 - 1) * 2 ^ (104 + 1074)))).le v = true ∧ v.le (.fin ((2 ^ 24 - 1) * 2 ^ (104 + 1074))) = true)) (holding [0x11, 0x11, 0x11, 0x11, 0x11] (some 2) none) 4
      ∧ floatWriteFails 4 (fun v => ¬ ((FP.fin (-((2 ^ 24 - 1) * 2 ^ (104 + 1074)))).le v = true ∧ v.le (.fin ((2 ^ 24 - 1) * 2 ^ (104 + 1074))) = true)) (holding [0x11, 0x11, 0x11, 0x11, 0x11] (some 1) none) 2
      ∧ floatWriteFails 4 (fun v => ¬ ((FP.fin (-((2 ^ 24 - 1) * 2 ^ (104 + 1074)))).le v = true ∧ v.le (.fin ((2 ^ 24 - 1) * 2 ^ (104 + 1074))) = true)) (holding [0x11, 0x11, 0x11, 0x11, 0x11] (some 1) (some 0x47EFFFFFE0000001)) 5
      ∧ floatWriteFails 4 (fun v => ¬ ((FP.fin (-((2 ^ 24 - 1) * 2 ^ (104 + 1074)))).le v = true ∧ v.le (.fin ((2 ^ 24 - 1) * 2 ^ (104 + 1074))) = true)) (holding [0x11, 0x11, 0x11, 0x11, 0x11] (some 1) (some 0xC7EFFFFFE0000001)) 5
      ∧ floatWriteFails 4 (fun v => ¬ ((FP.fin (-((2 ^ 24 - 1) * 2 ^ (104 + 1074)))).le v = true ∧ v.le (.fin ((2 ^ 24 - 1) * 2 ^ (104 + 1074))) = true)) (holding [0x11, 0x11, 0x11, 0x11, 0x11] (some 1) (some 0x7FF8000000000000)) 5 :=
  ⟨by decide, ⟨rfl, by decide⟩, by decide +kernel, by decide +kernel,
    .inl (.inl ⟨rfl, rfl⟩), .inl (.inr ⟨rfl, rfl, by decide⟩), .inr (.inl ⟨rfl, rfl⟩),
    .inr (.inr ⟨rfl, rfl, by decide +kernel⟩), .inr (.inr ⟨rfl, rfl, by decide +kernel⟩),
    .inr (.inr ⟨rfl, rfl, by decide +kernel⟩)⟩

theorem test_meets_WriteDoubleLEStoresValueWord :
    (holding [0x11, 0x11, 0x11, 0x11, 0x11, 0x11, 0x11, 0x11, 0x11] (some 1) none).buf.wf
      ∧ spanInBuffer 8 (holding [0x11, 0x11, 0x11, 0x11, 0x11, 0x11, 0x11, 0x11, 0x11] (some 1) none)
      ∧ f64val 0x7FEFFFFFFFFFFFFF = .fin ((2 ^ 53 - 1) * 2 ^ (971 + 1074))
      ∧ f64val 0xFFEFFFFFFFFFFFFF = .fin (-((2 ^ 53 - 1) * 2 ^ (971 + 1074)))
      ∧ floatWriteFails 8 (fun v => v = .nan ∨ v = .inf false ∨ v = .inf true) (holding [0x11, 0x11, 0x11, 0x11, 0x11, 0x11, 0x11, 0x11, 0x11] none none) 1
      ∧ floatWriteFails 8 (fun v => v = .nan ∨ v = .inf false ∨ v = .inf true) (holding [0x11, 0x11, 0x11, 0x11, 0x11, 0x11, 0x11, 0x11, 0x11] (some 2) none) 4
      ∧ floatWriteFails 8 (fun v => v = .nan ∨ v = .inf false ∨ v = .inf true) (holding [0x11, 0x11, 0x11, 0x11, 0x11, 0x11, 0x11, 0x11, 0x11] (some 1) none) 2
      ∧ floatWriteFails 8 (fun v => v = .nan ∨ v = .inf false ∨ v = .inf true) (holding [0x11, 0x11, 0x11, 0x11, 0x11, 0x11, 0x11, 0x11, 0x11] (some 1) (some 0x7FF0000000000000)) 5
      ∧ floatWriteFails 8 (fun v => v = .nan ∨ v = .inf false ∨ v = .inf true) (holding [0x11, 0x11, 0x11, 0x11, 0x11, 0x11, 0x11, 0x11, 0x11] (some 1) (some 0xFFF0000000000000)) 5
      ∧ floatWriteFails 8 (fun v => v = .nan ∨ v = .inf false ∨ v = .inf true) (holding [0x11, 0x11, 0x11, 0x11, 0x11, 0x11, 0x11, 0x11, 0x11] (some 1) (some 0x7FF8000000000000)) 5 :=
  ⟨by decide, ⟨rfl, by decide⟩, by decide +kernel, by decide +kernel,
    .inl (.inl ⟨rfl, rfl⟩), .inl (.inr ⟨rfl, rfl, by decide⟩), .inr (.inl ⟨rfl, rfl⟩),
    .inr (.inr ⟨rfl, rfl, by decide +kernel⟩), .inr (.inr ⟨rfl, rfl, by decide +kernel⟩),
    .inr (.inr ⟨rfl, rfl, by decide +kernel⟩)⟩

theorem test_meets_WriteDoubleBEStoresValueWord :
    (holding [0x11, 0x11, 0x11, 0x11, 0x11, 0x11, 0x11, 0x11, 0x11] (some 1) none).buf.wf
      ∧ spanInBuffer 8 (holding [0x11, 0x11, 0x11, 0x11, 0x11, 0x11, 0x11, 0x11, 0x11] (some 1) none)
      ∧ f64val 0x7FEFFFFFFFFFFFFF = .fin ((2 ^ 53 - 1) * 2 ^ (971 + 1074))
      ∧ f64val 0xFFEFFFFFFFFFFFFF = .fin (-((2 ^ 53 - 1) * 2 ^ (971 + 1074)))
      ∧ floatWriteFails 8 (fun v => v = .nan ∨ v = .inf false ∨ v = .inf true) (holding [0x11, 0x11, 0x11, 0x11, 0x11, 0x11, 0x11, 0x11, 0x11] none none) 1
      ∧ floatWriteFails 8 (fun v => v = .nan ∨ v = .inf false ∨ v = .inf true) (holding [0x11, 0x11, 0x11, 0x11, 0x11, 0x11, 0x11, 0x11, 0x11] (some 2) none) 4
      ∧ floatWriteFails 8 (fun v => v = .nan ∨ v = .inf false ∨ v = .inf true) (holding [0x11, 0x11, 0x11, 0x11, 0x11, 0x11, 0x11, 0x11, 0x11] (some 1) none) 2
      ∧ floatWriteFails 8 (fun v => v = .nan ∨ v = .inf false ∨ v = .inf true) (holding [0x11, 0x11, 0x11, 0x11, 0x11, 0x11, 0x11, 0x11, 0x11] (some 1) (some 0x7FF0000000000000)) 5
      ∧ floatWriteFails 8 (fun v => v = .nan ∨ v = .inf false ∨ v = .inf true) (holding [0x11, 0x11, 0x11, 0x11, 0x11, 0x11, 0x11, 0x11, 0x11] (some 1) (some 0xFFF0000000000000)) 5
      ∧ floatWriteFails 8 (fun v => v = .nan ∨ v = .inf false ∨ v = .inf true) (holding [0x11, 0x11, 0x11, 0x11, 0x11, 0x11, 0x11, 0x11, 0x11] (some 1) (some 0x7FF8000000000000)) 5 :=
  ⟨by decide, ⟨rfl, by decide⟩, by decide +kernel, by decide +kernel,
    .inl (.inl ⟨rfl, rfl⟩), .inl (.inr ⟨rfl, rfl, by decide⟩), .inr (.inl ⟨rfl, rfl⟩),
    .inr (.inr ⟨rfl, rfl, by decide +kernel⟩), .inr (.inr ⟨rfl, rfl, by decide +kernel⟩),
    .inr (.inr ⟨rfl, rfl, by decide +kernel⟩)⟩

theorem test_meets_CommandWordsRoundTrip : decode 0xDE = .instr (.writeDoubleBE true) := by decide

theorem test_meets_ReservedWordsAreIllegalCommands :
    ReservedWord 0x01 ∧ ReservedWord 0x60 ∧ ReservedWord 0xFE ∧ ReservedWord 0x18 ∧ ReservedWord 0x40
      ∧ ReservedWord { State.reset with inputs := ports 0x4A none none }.inputs.cmd := by
  unfold ReservedWord
  decide

theorem test_meets_GenericFormsExpandToOneInstruction :
    (0 ≠ 1 ∧ 0 ≠ 2 ∧ 0 ≠ 4) ∧ (3 ≠ 1 ∧ 3 ≠ 2 ∧ 3 ≠ 4) ∧ (8 ≠ 1 ∧ 8 ≠ 2 ∧ 8 ≠ 4)
      ∧ "half".toList ≠ "single".toList ∧ "half".toList ≠ "double".toList := by decide

theorem test_meets_StepRunsTheDecodedInstruction :
    (issuing [0x80] 0x02 (some 0) none).events = .issue (ports 0x02 (some 0) none) :: []
      ∧ decode (ports 0x02 (some 0) none).cmd = .instr (.readUInt8 false true)
      ∧ (issuing [0x80] 0x03 (some 0) none).events = .issue (ports 0x03 (some 0) none) :: []
      ∧ decode (ports 0x03 (some 0) none).cmd = .illegal .rsvSet
      ∧ decode 0xA4 = .instr (.writeInt8 true false) := by decide

theorem test_meets_WaitingAndDisturbedTransactions :
    State.reset.events = []
      ∧ { State.reset with events := [.resetDuring (ports 0x00 none none)] }.events
          = .resetDuring (ports 0x00 none none) :: []
      ∧ { State.reset with events := [.inputsChangedDuring (ports 0x00 none none)] }.events
          = .inputsChangedDuring (ports 0x00 none none) :: []
      ∧ ∃ t, step (issuing [0x80] 0x00 (some 0) none) = .next t ∧ (t.status == 0b01) = true :=
  ⟨rfl, rfl, rfl, exists_of_answers (p := fun t => t.status == 0b01) (by decide +kernel)⟩

theorem test_meets_ResetClearsTheOutputs :
    { State.reset with status := 0b01, resultValid := true, events := [.reset] }.events
      = .reset :: [] := by decide

theorem test_meets_ReadingResultNeedsAValue :
    { State.reset with events := [.readPort .result] }.events = .readPort .result :: []
      ∧ { State.reset with resultValid := true, events := [.readPort .cause] }.events
          = .readPort .cause :: [] := by decide

theorem test_meets_HostAttachesAndWritesTheBuffer :
    { State.reset with events := [.attach [0x12, 0x00]] }.events = .attach [0x12, 0x00] :: []
      ∧ [(0x12 : Byte), 0x00][1]? = some 0x00 ∧ [(0x12 : Byte), 0x00].length ≤ 2
      ∧ { holding [0x12, 0x34] none none with events := [.hostWrite 1 0x00] }.buf.wf
      ∧ { holding [0x12, 0x34] none none with events := [.hostWrite 1 0x00] }.events
          = .hostWrite 1 0x00 :: []
      ∧ 1 < (holding [0x12, 0x34] none none).bufLen ∧ (holding [0x12, 0x34] none none).bufLen ≤ 2 := by
  decide

/-- Four bytes, and a transaction of these ports about to run. -/
def starting (p : Inputs) : State := { holding [0x01, 0x02, 0x03, 0x04] none none with inputs := p }

/-- Four bytes, and beside the transaction of these ports an access. -/
def besideAccess (p : Inputs) (who : Agent) (access : Access) : State :=
  { holding [0x01, 0x02, 0x03, 0x04] none none with events := [.issueBeside p who access] }

/-- The write of two bytes at address 1. -/
def twoBytesAtOne : Inputs := ports 0x88 (some 1) (some 0x3FF0000000000000)

theorem test_meets_OverlappingAccessIsADataRace :
    (besideAccess twoBytesAtOne .other (.write 2 [0xFF])).events
        = .issueBeside twoBytesAtOne .other (.write 2 [0xFF]) :: []
      ∧ Races (starting twoBytesAtOne) .other (.write 2 [0xFF])
      ∧ Races (starting twoBytesAtOne) .other (.read 0 2)
      ∧ Races (starting (ports 0xFF none none)) .host (.write 0 [0xFF])
      ∧ Races (starting (ports 0x88 none none)) .host (.write 3 [0xFF])
      ∧ ¬ Races (starting twoBytesAtOne) .other (.read 3 1)
      ∧ ¬ Races (starting twoBytesAtOne) .other (.write 3 [0xFF])
      ∧ ¬ Races (starting (ports 0xFF none none)) .other (.write 1 [0xFF])
      ∧ (∃ t, transaction (starting twoBytesAtOne) = .next t ∧ (t.status == 0b01) = true)
      ∧ transaction (starting (ports 0x8A none none)) = .fault (.unspecified .skippedCheckFails)
      ∧ (starting twoBytesAtOne).buf.wf
      ∧ 3 + 1 ≤ (starting twoBytesAtOne).bufLen ∧ (starting twoBytesAtOne).bufLen < 3 + 2 := by
  have hd : decode (starting twoBytesAtOne).inputs.cmd = .instr (.writeUInt16LE false) := by decide
  have far : ∀ n, n ≤ 1 → ¬ MeetsSpan (starting twoBytesAtOne) 3 n := by
    rintro n hn ⟨i, a, hi, -, h1, h2, -, h4⟩
    obtain rfl : i = .writeUInt16LE false := by simpa [hd, eq_comm] using hi
    simp only [starting, twoBytesAtOne, ports, holding, Instr.fields, fieldWidth, Option.getD_some] at h4
    omega
  refine ⟨rfl, .inr ⟨_, 2, hd, rfl, by decide, by decide, by decide, by decide⟩,
    ⟨?_, _, 1, hd, rfl, by decide, by decide, by decide, by decide⟩, .inl ⟨rfl, by decide⟩,
    .inl ⟨rfl, by decide⟩, fun h => far 1 le_rfl h.2, ?_, ?_,
    exists_of_answers (p := fun t => t.status == 0b01) (by decide +kernel), rfl, by decide, by decide,
    by decide⟩
  · obtain ⟨t, ht, hs⟩ := exists_of_answers (out := exec (.writeUInt16LE false) (starting twoBytesAtOne))
      (p := fun t => t.status == 0b01) (by decide +kernel)
    exact ⟨_, t, hd, rfl, ht, by simpa using hs⟩
  · rintro (⟨h, -⟩ | h)
    · cases h
    · exact far 1 le_rfl h
  · rintro (⟨h, -⟩ | ⟨i, a, hi, -⟩)
    · cases h
    · revert hi
      rw [show decode (starting (ports 0xFF none none)).inputs.cmd = .illegal .rsvSet by decide]
      intro hi
      cases hi

theorem test_meets_DisassembleInvertsAssemble :
    0xFFFFFFFF < 2 ^ (8 * 4) ∧ 0 < 2 ^ (8 * 0) ∧ 3 < 4 := by decide

theorem test_meets_TwosComplementUnitConverts :
    (0x7F < 2 ^ (8 * 1) ∧ 0x80 < 2 ^ (8 * 1) ∧ 0xFFFF < 2 ^ (8 * 2) ∧ 0xFFFFFFFF < 2 ^ (8 * 4))
      ∧ (-2 ^ (8 * 1 - 1) ≤ (-128 : Int) ∧ (-128 : Int) ≤ 2 ^ (8 * 1 - 1) - 1)
      ∧ (-2 ^ (8 * 4 - 1) ≤ (2147483647 : Int) ∧ (2147483647 : Int) ≤ 2 ^ (8 * 4 - 1) - 1) := by decide

theorem test_meets_Binary64WordIsUnique :
    f64val 0x8000000000000000 ≠ .nan ∧ f64val 0xFFF0000000000000 ≠ .nan
      ∧ f64val 0x0000000000000001 = f64val 0x0000000000000001
      ∧ f64sign 0x0000000000000001 = f64sign 0x0000000000000001
      ∧ (2 ^ 53 - 1 : Int).natAbs < 2 ^ 53 ∧ (-(2 ^ 53 - 1) : Int).natAbs < 2 ^ 53 := by decide +kernel

theorem test_meets_FloatFieldsGiveTheIeeeValue :
    ([0x3F, 0xC0, 0x00, 0x00] : List Byte).length = 4 ∧ ([0, 0, 0, 0, 0, 0, 0xF8, 0x3F] : List Byte).length = 8
      ∧ (255 ≤ 2 ^ single.eLen - 1 ∧ 0 < 2 ^ single.mLen ∧ 255 = 2 ^ single.eLen - 1)
      ∧ (2 ^ 23 - 1 < 2 ^ single.mLen ∧ 2 ^ 23 - 1 ≠ 0)
      ∧ (254 < 2 ^ single.eLen - 1 ∧ 0 < 1 ∧ 1 < 2 ^ single.eLen - 1)
      ∧ (2047 = 2 ^ double.eLen - 1 ∧ 2046 < 2 ^ double.eLen - 1 ∧ 2 ^ 52 - 1 < 2 ^ double.mLen) := by decide

/-- Half of the smallest binary32 subnormal, where two binary32 values are equally near. -/
theorem test_meets_SingleRoundingIsFaithful :
    (-((2 ^ 24 - 1) * 2 ^ (104 + 1074)) ≤ (2 ^ 924 : Int)
        ∧ (2 ^ 924 : Int) ≤ (2 ^ 24 - 1) * 2 ^ (104 + 1074))
      ∧ IsSingle ((2 ^ 24 - 1) * 2 ^ (104 + 1074)) ∧ IsSingle (-((2 ^ 24 - 1) * 2 ^ (104 + 1074)))
      ∧ (IsSingle 0 ∧ (0 : Int) ≤ 2 ^ 924) ∧ (IsSingle (2 ^ 925) ∧ (2 ^ 924 : Int) ≤ 2 ^ 925)
      ∧ (2 ^ 925 : Int) ≠ round32With nearestEven (2 ^ 924)
      ∧ (round32With nearestEven (2 ^ 924) - 2 ^ 924).natAbs = ((2 ^ 925 : Int) - 2 ^ 924).natAbs
      ∧ f64val 0x8000000000000000 = .fin 0 ∧ round32 0 = 0 :=
  ⟨by decide +kernel, ⟨0x7F7FFFFF, by decide +kernel⟩, ⟨0xFF7FFFFF, by decide +kernel⟩,
    ⟨⟨0x00000000, by decide +kernel⟩, by decide +kernel⟩,
    ⟨⟨0x00000001, by decide +kernel⟩, by decide +kernel⟩, by decide +kernel, by decide +kernel,
    by decide +kernel, by decide +kernel⟩

theorem test_meets_Binary32WordIsUnique :
    IsSingle 0 ∧ IsSingle (2 ^ 925) ∧ single.valueOf (0x80000000 : Word32).toNat = .fin 0
      ∧ (0x80000000 : Word32).getLsbD 31 = true
      ∧ single.valueOf (0x00000001 : Word32).toNat = .fin (2 ^ 925) ∧ (2 ^ 925 : Int) ≠ 0 :=
  ⟨⟨0x00000000, by decide +kernel⟩, ⟨0x00000001, by decide +kernel⟩, by decide +kernel,
    by decide +kernel, by decide +kernel, by decide +kernel⟩

theorem test_meets_UnsignedWriteThenReadReturnsTheValue :
    UnsignedPair 4 .writeUInt32BE .readUInt32BE ∧ UnsignedPair 1 (.writeUInt8 true) (.readUInt8 false)
      ∧ (holding [0, 1, 2, 3, 4] (some 1) (some 0x41EFFFFFFFE00000)).buf.wf
      ∧ spanInBuffer 4 (holding [0, 1, 2, 3, 4] (some 1) (some 0x41EFFFFFFFE00000))
      ∧ valueIsInteger (holding [0, 1, 2, 3, 4] (some 1) (some 0x41EFFFFFFFE00000)) 4294967295
      ∧ (0 : Int) ≤ 4294967295 ∧ (4294967295 : Int) ≤ 2 ^ (8 * 4) - 1 :=
  ⟨.u32be, .u8 true false, by decide, ⟨rfl, by decide⟩, ⟨rfl, by decide +kernel⟩, by decide, by decide⟩

theorem test_meets_SignedCodecIsTheTwosComplementView :
    SignedPair 2 .writeInt16LE .readInt16LE .writeUInt16LE .readUInt16LE
      ∧ (holding [0x11, 0x22, 0x33] (some 1) (some 0xC0E0000000000000)).buf.wf
      ∧ spanInBuffer 2 (holding [0x11, 0x22, 0x33] (some 1) (some 0xC0E0000000000000))
      ∧ valueIsInteger (holding [0x11, 0x22, 0x33] (some 1) (some 0xC0E0000000000000)) (-32768)
      ∧ (-2 ^ (8 * 2 - 1) : Int) ≤ -32768 ∧ (-32768 : Int) ≤ 2 ^ (8 * 2 - 1) - 1
      ∧ f64val 0x40E0000000000000 = .ofInt (patternOf (8 * 2) (-32768)) :=
  ⟨.i16le, by decide, ⟨rfl, by decide⟩, ⟨rfl, by decide +kernel⟩, by decide, by decide, by decide +kernel⟩

theorem test_meets_FloatWriteThenReadReturnsTheValue :
    DoublePair .writeDoubleLE .readDoubleLE ∧ SinglePair .writeFloatBE .readFloatBE
      ∧ (holding [0, 0, 0, 0, 0, 0, 0, 0x11] (some 0) (some 0x0000000000000001)).buf.wf
      ∧ spanInBuffer 8 (holding [0, 0, 0, 0, 0, 0, 0, 0x11] (some 0) (some 0x0000000000000001))
      ∧ f64val 0x0000000000000001 = .fin 1
      ∧ spanInBuffer 4 (holding [0x11, 0x22, 0x33, 0x44] (some 0) (some 0xC7EFFFFFE0000000))
      ∧ (holding [0x11, 0x22, 0x33, 0x44] (some 0) (some 0xC7EFFFFFE0000000)).inputs.valueValid = true
      ∧ f64val 0xC7EFFFFFE0000000 = .fin (-((2 ^ 24 - 1) * 2 ^ (104 + 1074)))
      ∧ (-((2 ^ 24 - 1) * 2 ^ (104 + 1074)) : Int) ≤ (2 ^ 24 - 1) * 2 ^ (104 + 1074) :=
  ⟨.le, .be, by decide, ⟨rfl, by decide⟩, by decide +kernel, ⟨rfl, by decide⟩, rfl, by decide +kernel,
    by decide +kernel⟩

theorem test_meets_CompletedFloatWritesStoreFiniteValues :
    SinglePair .writeFloatLE .readFloatLE ∧ DoublePair .writeDoubleBE .readDoubleBE
      ∧ (holding [0x11, 0x22, 0x33, 0x44] (some 0) (some 0x3FF8000000000000)).buf.wf
      ∧ (∃ t, exec (.writeFloatLE true)
            (holding [0x11, 0x22, 0x33, 0x44] (some 0) (some 0x3FF8000000000000)) = .next t
          ∧ (t.status == 0b01) = true)
      ∧ ∃ t, exec (.writeDoubleBE false)
            (holding [0, 0, 0, 0, 0, 0, 0, 0] (some 0) (some 0x3FF8000000000000)) = .next t
          ∧ (t.status == 0b01) = true :=
  ⟨.le, .be, by decide, exists_of_answers (p := fun t => t.status == 0b01) (by decide +kernel),
    exists_of_answers (p := fun t => t.status == 0b01) (by decide +kernel)⟩

theorem test_meets_FailingSetDecidesTheOutcome :
    (¬ ∃ c, InFailingSet (.readUInt8 false false) (holding [0x80] (some 0) none) c)
      ∧ (∃ c, InFailingSet (.readUInt8 false true) (holding [0x80] (some 1) none) c)
      ∧ (Instr.readUInt8 false false).fields.skip = false ∧ (Instr.readUInt8 false true).fields.skip = true
      ∧ decode 0x04 = .instr (.readUInt8 true false) ∧ decode (0x04 ||| 2) = .instr (.readUInt8 true true) := by
  refine ⟨?_, ⟨4, .inBounds 1, by decide, by decide, by decide⟩, rfl, rfl, by decide, by decide⟩
  rintro ⟨c, k, hk, hf, -⟩
  simp only [checksOf, List.mem_cons, List.not_mem_nil, or_false] at hk
  rcases hk with rfl | rfl <;> revert hf <;> decide

theorem test_meets_NoInstructionWritesOutsideItsSpan :
    (∃ t, exec (.readInt8 false false) (holding [0x80] (some 0) none) = .next t ∧ (t.status == 0b01) = true)
      ∧ (Instr.readInt8 false false).fields.dir = .read
      ∧ (∃ t, exec (.writeInt8 false false) (holding [0x80] (some 1) (some 0)) = .next t
          ∧ (t.status != 0b01) = true)
      ∧ 0 < (holding [0x80] (some 1) none).inputs.offset
      ∧ (holding [0x80] (some 1) none).inputs.offset + fieldWidth .w1 ≤ 2 :=
  ⟨exists_of_answers (p := fun t => t.status == 0b01) (by decide +kernel), rfl,
    exists_of_answers (p := fun t => t.status != 0b01) (by decide +kernel), by decide, by decide⟩

theorem test_meets_EarlierOutputsNeverInfluenceATransaction :
    let s := { holding [0x80] (some 0) none with status := 0b10, cause := 5 }
    let s' := { s with status := 0b01, cause := 0, resultValid := true, events := [.reset] }
    s'.inputs = s.inputs ∧ s'.bufLen = s.bufLen ∧ s'.buf = s.buf ∧ s'.draws = s.draws
      ∧ (∃ t, transaction s = .next t ∧ (t.status == 0b01) = true)
      ∧ transaction { s with inputs := ports 0x02 (some 1) none }
          = .fault (.unspecified .skippedCheckFails) :=
  ⟨rfl, rfl, rfl, rfl, exists_of_answers (p := fun t => t.status == 0b01) (by decide +kernel), rfl⟩

theorem test_meets_RepeatingATransactionChangesNothingMore :
    (holding [0x3F, 0xC0, 0x00, 0x00] (some 0) none).buf.wf
      ∧ (∃ t, exec (.readFloatBE false) (holding [0x3F, 0xC0, 0x00, 0x00] (some 0) none) = .next t
          ∧ (t.resultValid && !isNaN64 t.result) = true)
      ∧ (∃ t, exec (.readFloatBE false) (holding [0x7F, 0xC0, 0x00, 0x00] (some 0) none) = .next t
          ∧ t.resultValid = true ∧ isNaN64 t.result = true)
      ∧ (Instr.readFloatBE false).fields.dir = .read := by
  refine ⟨by decide, exists_of_answers (p := fun t => t.resultValid && !isNaN64 t.result)
    (by decide +kernel),
    ⟨(holding [0x7F, 0xC0, 0x00, 0x00] (some 0) none).completeRead (nanDraw 0), ?_, by simp, ?_⟩, rfl⟩
  rotate_left
  · rw [State.completeRead_result]
    exact isNaN64_toNaN _
  have h : unpack single [0x7F, 0xC0, 0x00, 0x00] true = .nan := by decide +kernel
  have hr : floatResult single [0x7F, 0xC0, 0x00, 0x00] true 0 = nanDraw 0 := by
    rw [floatResult, h]
    rfl
  have hc : failingSet (readChecks 4) (holding [0x7F, 0xC0, 0x00, 0x00] (some 0) none) = [] := by
    decide +kernel
  have he := checked_of_passes false
    (fun s => s.completeRead (floatResult single (s.operandBytes 4) true s.draws)) hc
  have hb : (holding [0x7F, 0xC0, 0x00, 0x00] (some 0) none).operandBytes 4 = [0x7F, 0xC0, 0x00, 0x00] := by
    decide +kernel
  rw [hb, show (holding [0x7F, 0xC0, 0x00, 0x00] (some 0) none).draws = 0 from rfl, hr] at he
  exact he

theorem test_meets_ReadsDependOnlyOnTheSpan :
    let s := holding [0x01, 0x80, 0x02] (some 1) none
    let s' := holding [0xFF, 0x80, 0xFF] (some 1) none
    (Instr.readInt8 false false).fields.dir = .read ∧ s'.inputs = s.inputs ∧ s'.bufLen = s.bufLen
      ∧ s'.draws = s.draws
      ∧ (∀ a, s.inputs.offset ≤ a → a < s.inputs.offset + fieldWidth .w1 → s'.buf.read a = s.buf.read a)
      ∧ ∃ t, exec (.readInt8 false false) s = .next t ∧ (t.status == 0b01) = true := by
  refine ⟨rfl, rfl, rfl, rfl, fun a h1 h2 => ?_,
    exists_of_answers (p := fun t => t.status == 0b01) (by decide +kernel)⟩
  obtain rfl : a = 1 := by
    simp only [holding, ports, fieldWidth, Option.getD_some] at h1 h2
    omega
  decide

/-- A well-formed state that no run from reset reaches: an INVARIANT_VIOLATION with no buffer attached. -/
theorem test_meets_EveryStepKeepsStatesWellFormed :
    let s := { State.reset with status := 0b10, cause := 6, events := [.reset] }
    Sys2Proof.WellFormed s ∧ ∃ t, step s = .next t ∧ (t.status == 0b00) = true := by
  refine ⟨⟨⟨by decide, by decide⟩, ⟨by decide, by decide, by decide⟩,
    by show 0 < _; positivity, Nat.zero_le _, ?_⟩,
    exists_of_answers (p := fun t => t.status == 0b00) (by decide +kernel)⟩
  intro e he
  obtain rfl : e = .reset := by simpa using he
  exact trivial

/-- A run in enforce mode: a buffer attached, its byte 0 written, a rejected read, a read of byte 0 beside
another agent's write of byte 1, a reserved word, a port read, a reset. -/
def enforcedRun : State :=
  { State.reset with
    events := [.attach [0x80, 0x00], .hostWrite 0 0x7F, .issue (ports 0x00 (some 9) none),
      .issueBeside (ports 0x00 (some 0) none) .other (.write 1 [0xFF]), .issue (ports 0xFF none none),
      .readPort .cause, .reset] }

theorem enforcedRun_events : EnforcedEvents enforcedRun.bufLen enforcedRun.events := by
  refine ⟨trivial, Nat.zero_lt_two, .inl (by decide), ⟨.inl (by decide), Nat.le_refl 2, ?_⟩,
    .inr (.inl (by decide)), by simp [EnforcedEvent], trivial, trivial⟩
  rintro s hs - (⟨h, -⟩ | ⟨i, a, hi, -, h1, -, -, h4⟩)
  · cases h
  · rw [hs, show decode (ports 0x00 (some 0) none).cmd = .instr (.readUInt8 false false) by decide] at hi
    cases hi
    rw [hs] at h4
    simp only [ports, Instr.fields, fieldWidth, Option.getD_some] at h4
    omega

theorem test_meets_EnforcedRunsNeverStop :
    enforcedRun.recorded = none ∧ EnforcedEvents enforcedRun.bufLen enforcedRun.events :=
  ⟨rfl, enforcedRun_events⟩

theorem test_meets_EveryStepKeepsEnforcedRunsGoing :
    EnforcedEvents enforcedRun.bufLen enforcedRun.events := enforcedRun_events

end Sys2Proof.Tests
end

section
/-! Comparisons and floor of floating-point values (00_scope R10, R11): `FP.le` is the order of the extended reals
on the values that are not NaN, `FP.eq` is `FP.le` both ways, and `FP.floor` is division of the units rounding down. -/

namespace Sys2Proof.Machine

open Sys2Proof.Claims

@[simp] theorem extendedReal_nan : extendedReal .nan = none := rfl

@[simp] theorem extendedReal_inf (neg : Bool) : extendedReal (.inf neg) = some (if neg then ⊥ else ⊤) := by
  cases neg <;> rfl

@[simp] theorem extendedReal_fin (u : Int) :
    extendedReal (.fin u) = some (((u : ℝ) / 2 ^ unitExp : ℝ) : EReal) := rfl

/-- Finite values compare as their numbers of units do. -/
theorem units_div_le {a b : Int} : (a : ℝ) / 2 ^ unitExp ≤ (b : ℝ) / 2 ^ unitExp ↔ a ≤ b := by
  rw [div_le_div_iff_of_pos_right (by positivity), Int.cast_le]

theorem le_iff_extendedReal_le (a b : FP) :
    a.le b = true ↔ ∃ x y, extendedReal a = some x ∧ extendedReal b = some y ∧ x ≤ y := by
  cases a with
  | nan => simp [FP.le]
  | inf s =>
    cases b with
    | nan => cases s <;> simp [FP.le]
    | inf t => cases s <;> cases t <;> simp [FP.le]
    | fin v => cases s <;> simp [FP.le]
  | fin u =>
    cases b with
    | nan => simp [FP.le]
    | inf t => cases t <;> simp [FP.le]
    | fin v => simp [FP.le, units_div_le]

theorem eq_iff_le_and_ge (a b : FP) : a.eq b = true ↔ a.le b = true ∧ b.le a = true := by
  cases a with
  | nan => simp [FP.eq, FP.le]
  | inf s =>
    cases b with
    | nan => simp [FP.eq, FP.le]
    | inf t => cases s <;> cases t <;> simp [FP.eq, FP.le]
    | fin v => cases s <;> simp [FP.eq, FP.le]
  | fin u =>
    cases b with
    | nan => simp [FP.eq, FP.le]
    | inf t => cases t <;> simp [FP.eq, FP.le]
    | fin v => simpa [FP.eq, FP.le] using le_antisymm_iff

/-- Equality follows from the order, whose two directions are antisymmetric on the extended reals. -/
theorem eq_iff_extendedReal_eq (a b : FP) :
    a.eq b = true ↔ ∃ x y, extendedReal a = some x ∧ extendedReal b = some y ∧ x = y := by
  rw [eq_iff_le_and_ge, le_iff_extendedReal_le, le_iff_extendedReal_le]
  constructor
  · rintro ⟨⟨x, y, hx, hy, hxy⟩, y', x', hy', hx', hyx⟩
    obtain rfl : x = x' := Option.some.inj (hx.symm.trans hx')
    obtain rfl : y = y' := Option.some.inj (hy.symm.trans hy')
    exact ⟨x, y, hx, hy, le_antisymm hxy hyx⟩
  · rintro ⟨x, y, hx, hy, rfl⟩
    exact ⟨⟨x, x, hx, hy, le_rfl⟩, x, x, hy, hx, le_rfl⟩

theorem ofInt_injective : Function.Injective FP.ofInt := Function.LeftInverse.injective toInteger_ofInt

theorem floor_fin_eq_ofInt_iff (u r : Int) :
    (FP.fin u).floor = .ofInt r ↔ r * 2 ^ unitExp ≤ u ∧ u < (r + 1) * 2 ^ unitExp := by
  have hpos : (0 : Int) < 2 ^ unitExp := by positivity
  calc (FP.fin u).floor = .ofInt r
    _ ↔ u / 2 ^ unitExp = r := ofInt_injective.eq_iff
    _ ↔ r ≤ u / 2 ^ unitExp ∧ u / 2 ^ unitExp < r + 1 := by omega
    _ ↔ _ := and_congr (Int.le_ediv_iff_mul_le hpos) (Int.ediv_lt_iff_lt_mul hpos)

/-- Settles O56, by the cases of the two values for the order, by antisymmetry for equality, and by the defining
inequality of integer division for the floor. -/
theorem comparisonsFollowTheExtendedReals : Obligations.ComparisonsFollowTheExtendedReals :=
  ⟨le_iff_extendedReal_le, eq_iff_extendedReal_eq, floor_fin_eq_ofInt_iff, fun _ => rfl, rfl⟩

end Sys2Proof.Machine
end

section
/-! Well-formed states: reset answers one, and what each operation and event of the host leaves is well formed when
the state before it is, so every step keeps well-formedness (10_state R17, R22, R23, R24, 43_validation R128,
60_exceptions R135). -/

namespace Sys2Proof.Machine

/-- A status and a cause that 10_state R22 and 60_exceptions R135 allow together. -/
def CodesAgree (st : Status) (c : Cause) : Prop :=
  (st.code = 0b10 → c.code = 1 ∨ c.code = 2 ∨ c.code = 4 ∨ c.code = 5 ∨ c.code = 6)
    ∧ (st.code ≠ 0b10 → c.code = 0)

theorem codesAgree_cause_none {st : Status} (h : st ≠ .invariantViolation) : CodesAgree st .none := by
  cases st <;> simp_all [CodesAgree]

theorem outputsLegal_endWithoutResult (s : State) {st : Status} {c : Cause} (h : CodesAgree st c) :
    outputsLegal (s.endWithoutResult st c) := ⟨h.1, h.2, by simp⟩

theorem outputsLegal_completeRead (s : State) (w : Word64) : outputsLegal (s.completeRead w) := by
  simp [outputsLegal]

/-- The ways a transaction or a reset ends without a RESULT keep everything but the outputs. -/
theorem wellFormed_endWithoutResult {s : State} {st : Status} {c : Cause} (hs : WellFormed s)
    (h : CodesAgree st c) : WellFormed (s.endWithoutResult st c) :=
  { hs with outputs := outputsLegal_endWithoutResult s h }

theorem wellFormed_completeRead {s : State} (w : Word64) (hs : WellFormed s) :
    WellFormed (s.completeRead w) :=
  { hs with outputs := outputsLegal_completeRead s w }

theorem wellFormed_writeBytes {s : State} {lo : Nat} {bs : List Byte} (hs : WellFormed s)
    (hlo : lo + bs.length ≤ s.bufLen) : WellFormed { s with buf := s.buf.writeBytes lo bs } :=
  { hs with buffer := bufferWf_writeBytes hs.buffer hlo }

theorem wellFormed_completeWrite {s : State} {bs : List Byte} (hs : WellFormed s)
    (hlo : s.inputs.offset + bs.length ≤ s.bufLen) : WellFormed (s.completeWrite bs) :=
  wellFormed_endWithoutResult (wellFormed_writeBytes hs hlo) (codesAgree_cause_none (by decide))

theorem wellFormed_raiseIllegalCommand {s : State} (hs : WellFormed s) : WellFormed s.raiseIllegalCommand :=
  wellFormed_endWithoutResult hs (codesAgree_cause_none (by decide))

theorem wellFormed_resetOutputs {s : State} (hs : WellFormed s) : WellFormed s.resetOutputs :=
  wellFormed_endWithoutResult hs (codesAgree_cause_none (by decide))

theorem wellFormed_abandon {s : State} (hs : WellFormed s) : WellFormed s.abandon :=
  { hs with
    buffer := bufferWf_abandon s
    outputs := outputsLegal_endWithoutResult _ (codesAgree_cause_none (by decide)) }

theorem wellFormed_drive {s : State} {p : Inputs} (hs : WellFormed s) (hp : p.offset < 2 ^ Config.AW) :
    WellFormed (s.drive p) :=
  { hs with offset := hp }

theorem wellFormed_attach {s : State} {bs : List Byte} (hs : WellFormed s) (hb : bs.length ≤ 2 ^ Config.AW) :
    WellFormed (s.attach bs) :=
  { hs with
    buffer := bufferWf_attach s bs
    bufLen := hb }

theorem wellFormed_of_exec {i : Instr} {s t : State} (hs : WellFormed s) (h : exec i s = .next t) :
    WellFormed t := by
  rcases exec_cases i s with ⟨-, w, he⟩ | ⟨-, bs, hlen, hspan, he⟩ | ⟨-, c, hc, he⟩ | ⟨-, he⟩ <;>
    rw [he] at h <;> cases h
  · exact wellFormed_completeRead w hs
  · exact wellFormed_completeWrite hs (hlen ▸ hspan)
  · exact wellFormed_endWithoutResult hs ⟨fun _ => hc, by simp⟩

theorem wellFormed_of_transaction {s t : State} (hs : WellFormed s) (h : transaction s = .next t) :
    WellFormed t := by
  cases hd : decode s.inputs.cmd with
  | instr i => exact wellFormed_of_exec hs (transaction_of_instr hd ▸ h)
  | illegal why =>
    rw [transaction_of_illegal hd] at h
    cases h
    exact wellFormed_raiseIllegalCommand hs

theorem wellFormed_of_outsideWrite {s t : State} {lo : Nat} {bs : List Byte} (hs : WellFormed s)
    (h : s.outsideWrite lo bs = .next t) : WellFormed t := by
  rcases outsideWrite_cases s lo bs with ⟨hlo, hw⟩ | ⟨-, hw⟩ <;> rw [hw] at h <;> cases h
  exact wellFormed_writeBytes hs hlo

theorem wellFormed_of_transactionBeside {s t : State} {who : Agent} {access : Access} (hs : WellFormed s)
    (h : transactionBeside s who access = .next t) : WellFormed t := by
  rcases transactionBeside_cases s who access with ⟨-, hb⟩ | ⟨-, hb⟩ <;> rw [hb] at h
  · cases h
  · cases ht : transaction s with
    | fault r => simp [ht] at h
    | refused r => simp [ht] at h
    | next u =>
      have hu := wellFormed_of_transaction hs ht
      rw [ht] at h
      cases access with
      | read lo len =>
        cases h
        exact hu
      | write lo bs => exact wellFormed_of_outsideWrite hu h

theorem wellFormed_of_handleEvent {e : HostEvent} {s t : State} (hs : WellFormed s) (he : hostEventLegal e)
    (h : handleEvent e s = .next t) : WellFormed t := by
  cases e with
  | issue p => exact wellFormed_of_transaction (wellFormed_drive hs he) h
  | attach bs =>
    cases h
    exact wellFormed_attach hs he
  | hostWrite a v => exact wellFormed_of_outsideWrite hs h
  | readPort port =>
    rcases hostReads_cases s port with ⟨-, -, hr⟩ | ⟨-, hr⟩ <;> cases hr.symm.trans h
    exact hs
  | reset =>
    cases h
    exact wellFormed_resetOutputs hs
  | issueBeside p who access => exact wellFormed_of_transactionBeside (wellFormed_drive hs he) h
  | resetDuring p =>
    cases h
    exact wellFormed_abandon (wellFormed_drive hs he)
  | inputsChangedDuring p => cases h

/-- Settles O57: no buffer is attached and no event is to come. -/
theorem resetStateIsWellFormed : Obligations.ResetStateIsWellFormed where
  buffer := bufferWf_reset
  outputs := ⟨by decide, by decide, by decide⟩
  offset := Nat.two_pow_pos _
  bufLen := Nat.zero_le _
  events := fun _ he => by cases he

/-- Settles O58, by the event that the step takes: each of the host's events keeps well-formedness. -/
theorem everyStepKeepsStatesWellFormed : Obligations.EveryStepKeepsStatesWellFormed := by
  intro s t hs h
  cases he : s.events with
  | nil =>
    cases (step_of_no_event he).symm.trans h
    exact hs
  | cons e rest =>
    have hlegal : ∀ e' ∈ e :: rest, hostEventLegal e' := he ▸ hs.events
    have hrest : WellFormed { s with events := rest } :=
      { hs with events := fun e' h' => hlegal e' (List.mem_cons_of_mem e h') }
    exact wellFormed_of_handleEvent hrest (hlegal e List.mem_cons_self) (step_of_event he ▸ h)

end Sys2Proof.Machine
end

section
/-! What the host does to the buffer between transactions (10_state R24, R27, 20_memory R34, R47). -/

namespace Sys2Proof.Machine

/-- An attached buffer reads as its bytes (10_state R24). -/
theorem Memory.read_ofBytes {bs : List Byte} {k : Nat} {b : Byte} (h : bs[k]? = some b) :
    (Memory.ofBytes bs).read k = b := by
  obtain ⟨hk, rfl⟩ := List.getElem?_eq_some_iff.mp h
  simpa [Memory.ofBytes] using Memory.read_writeBytes_inside (o := 0) bs Memory.wf_nil hk

/-- Beyond the attached bytes every address reads as 0 (log 6). -/
theorem Memory.read_ofBytes_beyond {bs : List Byte} {a : Nat} (h : bs.length ≤ a) :
    (Memory.ofBytes bs).read a = 0 :=
  Memory.read_writeBytes_outside (m := []) (o := 0) bs (by omega)

theorem step_of_attach {s : State} {bs : List Byte} {rest : List HostEvent} (h : s.events = .attach bs :: rest) :
    step s = .next ({ s with events := rest }.attach bs) := step_of_event h

theorem step_of_hostWrite_inside {s : State} {a : Nat} {v : Byte} {rest : List HostEvent}
    (h : s.events = .hostWrite a v :: rest) (ha : a < s.bufLen) :
    step s = .next { s with events := rest, buf := s.buf.write a v } :=
  (step_of_event h).trans (if_pos ha)

theorem step_of_hostWrite_outside {s : State} {a : Nat} {v : Byte} {rest : List HostEvent}
    (h : s.events = .hostWrite a v :: rest) (ha : s.bufLen ≤ a) : step s = .fault .outsideBuffer :=
  (step_of_event h).trans (if_neg (Nat.not_lt.mpr ha))

/-- Settles O37, by what a read gives after the bytes attached and after the byte written. -/
theorem hostAttachesAndWritesTheBuffer : Obligations.HostAttachesAndWritesTheBuffer := by
  refine ⟨fun s bytes rest h => ?_, fun s a v rest hwf h => ⟨fun ha => ?_, step_of_hostWrite_outside h⟩⟩
  · exact ⟨_, step_of_attach h, rfl, fun k b => Memory.read_ofBytes, fun a => Memory.read_ofBytes_beyond,
      rfl, rfl, rfl, rfl, rfl, rfl⟩
  · exact ⟨_, step_of_hostWrite_inside h ha, Memory.read_write_same a v hwf,
      fun b hb => Memory.read_write_other v hb, rfl, rfl, rfl, rfl, rfl, rfl, rfl⟩

end Sys2Proof.Machine
end

section
/-! A transaction reads the input ports, the buffer and the draws alone (10_state R28): between states that agree on
these its outcomes differ only in the host's coming events and the record, which it carries along. -/

namespace Sys2Proof.Machine

/-- The states agree on all that a transaction reads: the input ports, BUF_LEN, BUF and the draws. -/
structure SameRead (s s' : State) : Prop where
  inputs : s'.inputs = s.inputs
  bufLen : s'.bufLen = s.bufLen
  buf    : s'.buf = s.buf
  draws  : s'.draws = s.draws

/-- A state with the coming events and the record of `s'`. -/
def State.carrying (t s' : State) : State := { t with events := s'.events, recorded := s'.recorded }

/-- An outcome whose next state carries the coming events and the record of `s'`. -/
def outcomeCarrying (s' : State) : Host.Outcome State Fault Refusal → Host.Outcome State Fault Refusal
  | .next t => .next (t.carrying s')
  | .fault r => .fault r
  | .refused r => .refused r

section
variable {s s' : State} (h : SameRead s s')
include h

theorem SameRead.endWithoutResult (st : Status) (c : Cause) :
    s'.endWithoutResult st c = (s.endWithoutResult st c).carrying s' := by
  simp [State.endWithoutResult, State.carrying, h.inputs, h.bufLen, h.buf, h.draws]

theorem SameRead.completeRead (w : Word64) : s'.completeRead w = (s.completeRead w).carrying s' := by
  simp [State.completeRead, State.carrying, h.inputs, h.bufLen, h.buf, h.draws]

theorem SameRead.completeWrite (bs : List Byte) : s'.completeWrite bs = (s.completeWrite bs).carrying s' := by
  have hw : SameRead { s with buf := s.buf.writeBytes s.inputs.offset bs }
      { s' with buf := s'.buf.writeBytes s'.inputs.offset bs } :=
    { h with buf := by simp [h.inputs, h.buf] }
  exact hw.endWithoutResult .ok .none

/-- The checks, the mode and the drawn cause depend on nothing else (43_validation R130, R131). -/
theorem SameRead.checked (cs : List Check) (skip : Bool) {f : State → State} (hf : f s' = (f s).carrying s') :
    checked cs skip f s' = outcomeCarrying s' (checked cs skip f s) := by
  unfold Machine.checked
  rw [failingSet_congr h.inputs h.bufLen, h.draws]
  cases failingSet cs s with
  | nil => simp [outcomeCarrying, hf]
  | cons first rest =>
    cases skip with
    | true => rfl
    | false => exact congrArg Host.Outcome.next (h.endWithoutResult _ _)

theorem SameRead.exec (i : Instr) : exec i s' = outcomeCarrying s' (exec i s) := by
  rcases exec_form i with ⟨-, g, -, he⟩ | ⟨-, cs, g, -, -, he⟩ <;> rw [he, he] <;> apply h.checked
  · simpa [State.operandBytes, h.inputs, h.buf, h.draws] using h.completeRead _
  · simpa [h.inputs] using h.completeWrite _

theorem SameRead.transaction : transaction s' = outcomeCarrying s' (transaction s) := by
  cases hd : decode s.inputs.cmd with
  | instr i => rw [transaction_of_instr hd, transaction_of_instr (h.inputs ▸ hd), h.exec]
  | illegal why =>
    rw [transaction_of_illegal hd, transaction_of_illegal (h.inputs ▸ hd)]
    exact congrArg Host.Outcome.next (h.endWithoutResult _ _)

end

/-- Settles O53: the outcome from `s'` is the one from `s`, carrying the events and the record of `s'`. -/
theorem earlierOutputsNeverInfluenceATransaction : Obligations.EarlierOutputsNeverInfluenceATransaction := by
  intro s s' hi hl hb hd
  have h : SameRead s s' := ⟨hi, hl, hb, hd⟩
  refine ⟨fun t ht => ?_, fun r hr => ?_⟩
  · rw [h.transaction, ht]
    rfl
  · rw [h.transaction, hr]
    rfl

end Sys2Proof.Machine
end

section
/-! The byte-order converter (20_memory R39, R40): an assembled integer is the sum of its bytes' weights, and each byte
taken apart is a digit of the integer in base 256. -/

namespace Sys2Proof.Machine

theorem assembleLE_eq_sum (bs : List Byte) :
    assembleLE bs = ∑ k ∈ Finset.range bs.length, (bs.getD k 0).toNat * 256 ^ k := by
  induction bs with
  | nil => rfl
  | cons b bs ih =>
    rw [assembleLE_cons, ih, List.length_cons, Finset.sum_range_succ', Finset.mul_sum, Nat.add_comm]
    simp [pow_succ', Nat.mul_left_comm]

/-- Big-endian is the little-endian sum counted from the other end. -/
theorem assemble_eq_sum (bs : List Byte) (be : Bool) :
    assemble bs be
      = ∑ k ∈ Finset.range bs.length, (bs.getD k 0).toNat * 256 ^ (if be then bs.length - 1 - k else k) := by
  cases be with
  | false => exact assembleLE_eq_sum bs
  | true =>
    calc assembleLE bs.reverse
      _ = ∑ k ∈ Finset.range bs.length, (bs.reverse.getD k 0).toNat * 256 ^ k := by
        rw [assembleLE_eq_sum, List.length_reverse]
      _ = ∑ k ∈ Finset.range bs.length,
            (bs.reverse.getD (bs.length - 1 - k) 0).toNat * 256 ^ (bs.length - 1 - k) :=
        (Finset.sum_range_reflect _ _).symm
      _ = ∑ k ∈ Finset.range bs.length, (bs.getD k 0).toNat * 256 ^ (bs.length - 1 - k) := by
        refine Finset.sum_congr rfl fun k hk => ?_
        have hk : k < bs.length := Finset.mem_range.mp hk
        rw [List.getD_reverse _ (by omega), show bs.length - 1 - (bs.length - 1 - k) = k by omega]

theorem toNat_getD_disassemble {u w k : Nat} (be : Bool) (hk : k < w) :
    ((disassemble u w be).getD k 0).toNat = u / 256 ^ (if be then w - 1 - k else k) % 256 := by
  rw [List.getD_eq_getElem _ _ (by simpa using hk), getElem_disassemble, BitVec.toNat_ofNat]

/-- Settles O39, by induction on the bytes for little-endian and by reversing the sum for big-endian. -/
theorem assembleIsTheWeightedSum : Obligations.AssembleIsTheWeightedSum :=
  fun bytes be => ⟨assemble_eq_sum bytes be, assemble_lt bytes be⟩

/-- Settles O40, by the digits of the integer in base 256. -/
theorem disassembleInvertsAssemble : Obligations.DisassembleInvertsAssemble :=
  fun u w be hu => ⟨length_disassemble u w be, fun _ => toNat_getD_disassemble be, assemble_disassemble be hu⟩

end Sys2Proof.Machine
end

section
/-! What a second run of a transaction, and a run from a state that differs outside the span, have in common with the
first (20_memory R36, R46): the checks pass or fail alike, and what is performed depends on the span alone. -/

namespace Sys2Proof.Machine

open Sys2Proof.Claims

/-- No instruction changes the input ports, BUF_LEN, or the canonical form of BUF (10_state R24, R27). -/
theorem exec_keeps_inputs_bufLen_wf {i : Instr} {s t : State} (h : exec i s = .next t) :
    t.inputs = s.inputs ∧ t.bufLen = s.bufLen ∧ (s.buf.wf → t.buf.wf) := by
  rcases exec_cases i s with ⟨-, w, he⟩ | ⟨-, bs, -, -, he⟩ | ⟨-, c, -, he⟩ | ⟨-, he⟩ <;>
    cases he.symm.trans h
  · exact ⟨rfl, rfl, id⟩
  · exact ⟨rfl, rfl, Memory.writeBytes_wf _ bs⟩
  · exact ⟨rfl, rfl, id⟩

/-- A read, whether it completes or is rejected, leaves BUF as it is (30_encoding R63). -/
theorem exec_read_keeps_buf {i : Instr} {s t : State} (hd : i.fields.dir = .read) (h : exec i s = .next t) :
    t.buf = s.buf := by
  rcases exec_cases i s with ⟨-, w, he⟩ | ⟨hw, -⟩ | ⟨-, c, -, he⟩ | ⟨-, he⟩
  · cases he.symm.trans h
    rfl
  · cases hd.symm.trans hw
  · cases he.symm.trans h
    rfl
  · cases he.symm.trans h

/-- A state with the same input ports and BUF_LEN passes the checks where the first did, and is rejected where the
first was, though the drawn cause may differ (60_exceptions R138). -/
theorem checked_again {cs : List Check} {skip : Bool} {f : State → State} {s t : State}
    (hi : t.inputs = s.inputs) (hl : t.bufLen = s.bufLen) (h : checked cs skip f s = .next t) :
    (t = f s ∧ checked cs skip f t = .next (f t))
      ∨ ∃ c c', t = s.raiseInvariantViolation c
          ∧ checked cs skip f t = .next (t.raiseInvariantViolation c') := by
  have hsame : failingSet cs t = failingSet cs s := failingSet_congr hi hl
  rcases checked_cases cs skip f s with ⟨hp, he⟩ | ⟨-, -, he⟩ | ⟨hf, rfl, c, -, he⟩ <;>
    cases he.symm.trans h
  · exact .inl ⟨rfl, checked_of_passes skip f (hsame.trans hp)⟩
  · obtain ⟨c', -, he'⟩ := (checked_of_fails f (hsame.trans_ne hf)).2
    exact .inr ⟨c, c', rfl, he'⟩

/-- Writing the same bytes at the same place again changes no byte. -/
theorem Memory.read_writeBytes_again {m : Memory} (o a : Nat) (bs : List Byte) (h : m.wf) :
    ((m.writeBytes o bs).writeBytes o bs).read a = (m.writeBytes o bs).read a := by
  by_cases ha : a < o ∨ o + bs.length ≤ a
  · exact Memory.read_writeBytes_outside bs ha
  · obtain ⟨k, rfl⟩ := Nat.exists_eq_add_of_le (show o ≤ a by omega)
    have hk : k < bs.length := by omega
    rw [Memory.read_writeBytes_inside bs (Memory.writeBytes_wf o bs h) hk, Memory.read_writeBytes_inside bs h hk]

/-- What a repeated transaction promises of its outcome `u` beside the first outcome `t` (20_memory R46). -/
structure Repeats (t u : State) : Prop where
  buf         : BufferKept t u
  status      : u.status = t.status
  resultValid : u.resultValid = t.resultValid
  result      : t.resultValid = true → u.result = t.result ∨ (isNaN64 t.result = true ∧ isNaN64 u.result = true)

theorem repeats_raiseInvariantViolation (s : State) (c c' : Cause) :
    Repeats (s.raiseInvariantViolation c) ((s.raiseInvariantViolation c).raiseInvariantViolation c') where
  buf _ := rfl
  status := rfl
  resultValid := rfl
  result h := by cases h

theorem repeats_completeRead (s : State) {w w' : Word64}
    (h : w = w' ∨ (isNaN64 w = true ∧ isNaN64 w' = true)) :
    Repeats (s.completeRead w) ((s.completeRead w).completeRead w') where
  buf _ := rfl
  status := rfl
  resultValid := rfl
  result _ := h.imp_left Eq.symm

theorem repeats_completeWrite {s : State} (bs : List Byte) (hwf : s.buf.wf) :
    Repeats (s.completeWrite bs) ((s.completeWrite bs).completeWrite bs) where
  buf a := Memory.read_writeBytes_again s.inputs.offset a bs hwf
  status := rfl
  resultValid := rfl
  result h := by cases h

theorem exec_again {i : Instr} {s t : State} (hwf : s.buf.wf) (h : exec i s = .next t) :
    ∃ u, exec i t = .next u ∧ Repeats t u := by
  obtain ⟨hi, hl, -⟩ := exec_keeps_inputs_bufLen_wf h
  rcases exec_form i with ⟨-, g, hg, he⟩ | ⟨-, cs, g, -, -, he⟩ <;> rw [he] at h ⊢ <;>
    rcases checked_again hi hl h with ⟨rfl, hu⟩ | ⟨c, c', rfl, hu⟩
  · exact ⟨_, hu, repeats_completeRead s (hg _ _ _)⟩
  · exact ⟨_, hu, repeats_raiseInvariantViolation s c c'⟩
  · exact ⟨_, hu, repeats_completeWrite _ hwf⟩
  · exact ⟨_, hu, repeats_raiseInvariantViolation s c c'⟩

/-- Settles O54: the checks pass or fail alike the second time, and a completed transaction then reads the same bytes
or writes the same bytes again. -/
theorem repeatingATransactionChangesNothingMore : Obligations.RepeatingATransactionChangesNothingMore := by
  intro i s t hwf h
  obtain ⟨u, hu, hr⟩ := exec_again hwf h
  refine ⟨fun hd a => by rw [exec_read_keeps_buf hd h], u, hu, hr.buf, hr.status, hr.resultValid,
    fun hv hn => ?_, fun hv hn => ?_⟩
  · exact (hr.result hv).resolve_right fun h' => by simp [hn] at h'
  · rcases hr.result hv with h' | h'
    · rwa [h']
    · exact h'.2

/-- The two states show the same on the output ports STATUS, CAUSE, RESULT_VALID and RESULT. -/
structure SameOutputs (t t' : State) : Prop where
  status      : t'.status = t.status
  cause       : t'.cause = t.cause
  resultValid : t'.resultValid = t.resultValid
  result      : t'.result = t.result

theorem SameOutputs.completeRead (s s' : State) (w : Word64) : SameOutputs (s.completeRead w) (s'.completeRead w) :=
  ⟨rfl, rfl, rfl, rfl⟩

/-- A rejection shows the drawn cause, and on RESULT's wires a free value of the draw's number (log 4). -/
theorem SameOutputs.raiseInvariantViolation {s s' : State} (hd : s'.draws = s.draws) (c : Cause) :
    SameOutputs (s.raiseInvariantViolation c) (s'.raiseInvariantViolation c) :=
  ⟨rfl, rfl, rfl, by simp [hd]⟩

/-- The checks, the mode and the drawn cause depend on the input ports, BUF_LEN and the draws alone: two states that
agree on these show the same where what they perform does. -/
theorem SameOutputs.of_checked {cs : List Check} {skip : Bool} {f : State → State} {s s' t : State}
    (hi : s'.inputs = s.inputs) (hl : s'.bufLen = s.bufLen) (hd : s'.draws = s.draws)
    (hf : SameOutputs (f s) (f s')) (h : checked cs skip f s = .next t) :
    ∃ t', checked cs skip f s' = .next t' ∧ SameOutputs t t' := by
  unfold checked at h ⊢
  rw [failingSet_congr hi hl, hd]
  generalize failingSet cs s = causes at h ⊢
  cases causes with
  | nil =>
    cases h
    exact ⟨_, rfl, hf⟩
  | cons first rest =>
    cases skip with
    | true => cases h
    | false =>
      cases h
      exact ⟨_, rfl, .raiseInvariantViolation hd _⟩

/-- Settles O55: the checks read no byte, and what a completed read puts on RESULT is made of its span's bytes. -/
theorem readsDependOnlyOnTheSpan : Obligations.ReadsDependOnlyOnTheSpan := by
  intro i s s' t hdir hi hl hd hspan h
  rcases exec_form i with ⟨-, g, -, he⟩ | ⟨hw, -⟩
  · have hbytes : s'.operandBytes (fieldWidth i.fields.wsel) = s.operandBytes (fieldWidth i.fields.wsel) := by
      rw [State.operandBytes, State.offset_eq, hi]
      exact Memory.readBytes_congr hspan
    rw [he] at h
    obtain ⟨t', ht', hsame⟩ := SameOutputs.of_checked hi hl hd (by rw [hbytes, hd]; exact .completeRead s s' _) h
    exact ⟨t', (he s').trans ht', hsame.status, hsame.cause, hsame.resultValid, hsame.result⟩
  · cases hdir.symm.trans hw

end Sys2Proof.Machine
end

section
/-! Accesses to the buffer beside a transaction (20_memory R48, 70_reset R156): the model's test for a race says what
the rule says, and a write that does not race shows in BUF alone. -/

namespace Sys2Proof.Machine

open Sys2Proof.Claims

theorem span_eq_some_iff {s : State} {o w : Nat} :
    span s = some (o, w) ↔ ∃ i, decode s.inputs.cmd = .instr i ∧ s.inputs.offsetValid = true
      ∧ s.inputs.offset = o ∧ fieldWidth i.fields.wsel = w := by
  cases hd : decode s.inputs.cmd with
  | instr i => simp [span, hd]
  | illegal why => simp [span, hd]

theorem meetsSpan_iff {s : State} {lo len : Nat} : meetsSpan s lo len = true ↔ MeetsSpan s lo len := by
  unfold MeetsSpan
  cases hs : span s with
  | none =>
    refine ⟨fun h => by simp [meetsSpan, hs] at h, fun ⟨i, a, hd, ho, _⟩ => ?_⟩
    cases hs.symm.trans (span_of_instr hd ho)
  | some p =>
    obtain ⟨i, hd, ho, ha, hw⟩ := span_eq_some_iff.mp hs
    have hm : meetsSpan s lo len = overlaps lo len p.1 p.2 := by simp [meetsSpan, hs]
    rw [hm, overlaps_iff, ← ha, ← hw]
    constructor
    · rintro ⟨a, h⟩
      exact ⟨i, a, hd, ho, h⟩
    · rintro ⟨j, a, hd', -, h⟩
      cases hd.symm.trans hd'
      exact ⟨a, h⟩

theorem writesSpan_iff {s : State} : writesSpan s = true ↔ WriteCompletes s := by
  unfold WriteCompletes writesSpan
  cases hd : decode s.inputs.cmd with
  | illegal why => simp [transaction_of_illegal hd, isWrite, hd]
  | instr i =>
    rw [transaction_of_instr hd]
    cases he : exec i s <;> simp [isWrite, hd, he]

theorem races_iff {s : State} {who : Agent} {access : Access} : races s who access = true ↔ Races s who access := by
  cases access with
  | read lo len => simp [races, Races, writesSpan_iff, meetsSpan_iff]
  | write lo bytes => simp [races, Races, meetsSpan_iff]

/-- A transaction changes neither BUF_LEN nor the canonical form of BUF. -/
theorem transaction_keeps_bufLen_wf {s t : State} (h : transaction s = .next t) :
    t.bufLen = s.bufLen ∧ (s.buf.wf → t.buf.wf) := by
  cases hd : decode s.inputs.cmd with
  | illegal why =>
    cases (transaction_of_illegal hd).symm.trans h
    exact ⟨rfl, id⟩
  | instr i => exact (exec_keeps_inputs_bufLen_wf (transaction_of_instr hd ▸ h)).2

theorem Memory.read_writeBytes_of_getElem? {m : Memory} {bs : List Byte} {lo k : Nat} {b : Byte} (h : m.wf)
    (hb : bs[k]? = some b) : (m.writeBytes lo bs).read (lo + k) = b := by
  obtain ⟨hk, rfl⟩ := List.getElem?_eq_some_iff.mp hb
  exact Memory.read_writeBytes_inside bs h hk

section
variable {s : State} {who : Agent} (lo len : Nat) (bs : List Byte)

theorem transactionBeside_of_races {access : Access} (h : Races s who access) :
    transactionBeside s who access = .fault (.unspecified .dataRace) := if_pos (races_iff.mpr h)

theorem transactionBeside_read (h : ¬ Races s who (.read lo len)) :
    transactionBeside s who (.read lo len) = transaction s := by
  rw [transactionBeside, if_neg (mt races_iff.mp h)]
  cases transaction s <;> rfl

theorem transactionBeside_fault {access : Access} {r : Fault} (h : ¬ Races s who access)
    (ht : transaction s = .fault r) : transactionBeside s who access = .fault r := by
  rw [transactionBeside, if_neg (mt races_iff.mp h), ht]

theorem transactionBeside_write {t : State} (h : ¬ Races s who (.write lo bs)) (ht : transaction s = .next t) :
    transactionBeside s who (.write lo bs) = t.outsideWrite lo bs := by
  rw [transactionBeside, if_neg (mt races_iff.mp h), ht]

end

/-- Settles O38: the step is the transaction beside the access, where the model's test for a race is the rule's. -/
theorem overlappingAccessIsADataRace : Obligations.OverlappingAccessIsADataRace := by
  intro s p who access rest he
  have hstep : step s = transactionBeside { s with inputs := p, events := rest } who access := step_of_event he
  rw [hstep]
  refine ⟨transactionBeside_of_races, fun hr => ⟨?_, fun r => transactionBeside_fault hr, ?_⟩⟩
  · rintro lo len rfl
    exact transactionBeside_read lo len hr
  · rintro lo bytes t rfl ht
    have ⟨(hlen : t.bufLen = s.bufLen), hwf⟩ := transaction_keeps_bufLen_wf ht
    rw [transactionBeside_write lo bytes hr ht]
    refine ⟨fun hout => if_neg (by omega), fun hin hbuf => ?_⟩
    exact ⟨_, if_pos (hlen ▸ hin), fun k b => Memory.read_writeBytes_of_getElem? (hwf hbuf),
      fun a => Memory.read_writeBytes_outside bytes, rfl, rfl, rfl, rfl, rfl, rfl, rfl, rfl⟩

end Sys2Proof.Machine
end

section
/-! Command words and instructions (30_encoding R52, R60, R61): a word is determined by its six fields, and the fields
decode to an instruction exactly when they are the instruction's row. -/

namespace Sys2Proof

/-- Every instruction's command word has the fields of its row, and they are legal (30_encoding R52, R60). -/
theorem commandFields : ∀ i : Instr, Laws.CommandFields.Statement i
  | .readUInt8 x k => Laws.CommandFields.readUInt8 x k
  | .readUInt16LE k => Laws.CommandFields.readUInt16LE k
  | .readUInt16BE k => Laws.CommandFields.readUInt16BE k
  | .readUInt32LE k => Laws.CommandFields.readUInt32LE k
  | .readUInt32BE k => Laws.CommandFields.readUInt32BE k
  | .readInt8 x k => Laws.CommandFields.readInt8 x k
  | .readInt16LE k => Laws.CommandFields.readInt16LE k
  | .readInt16BE k => Laws.CommandFields.readInt16BE k
  | .readInt32LE k => Laws.CommandFields.readInt32LE k
  | .readInt32BE k => Laws.CommandFields.readInt32BE k
  | .readFloatLE k => Laws.CommandFields.readFloatLE k
  | .readFloatBE k => Laws.CommandFields.readFloatBE k
  | .readDoubleLE k => Laws.CommandFields.readDoubleLE k
  | .readDoubleBE k => Laws.CommandFields.readDoubleBE k
  | .writeUInt8 x k => Laws.CommandFields.writeUInt8 x k
  | .writeUInt16LE k => Laws.CommandFields.writeUInt16LE k
  | .writeUInt16BE k => Laws.CommandFields.writeUInt16BE k
  | .writeUInt32LE k => Laws.CommandFields.writeUInt32LE k
  | .writeUInt32BE k => Laws.CommandFields.writeUInt32BE k
  | .writeInt8 x k => Laws.CommandFields.writeInt8 x k
  | .writeInt16LE k => Laws.CommandFields.writeInt16LE k
  | .writeInt16BE k => Laws.CommandFields.writeInt16BE k
  | .writeInt32LE k => Laws.CommandFields.writeInt32LE k
  | .writeInt32BE k => Laws.CommandFields.writeInt32BE k
  | .writeFloatLE k => Laws.CommandFields.writeFloatLE k
  | .writeFloatBE k => Laws.CommandFields.writeFloatBE k
  | .writeDoubleLE k => Laws.CommandFields.writeDoubleLE k
  | .writeDoubleBE k => Laws.CommandFields.writeDoubleBE k

theorem Kind.ofBits_inj {a b a' b' : Bool} : Kind.ofBits a b = Kind.ofBits a' b' ↔ a = a' ∧ b = b' := by
  revert a b a' b'
  decide

theorem Wsel.ofBits_inj {a b a' b' : Bool} : Wsel.ofBits a b = Wsel.ofBits a' b' ↔ a = a' ∧ b = b' := by
  revert a b a' b'
  decide

/-- The six fields hold all eight bits of a command word (30_encoding R52). -/
theorem Fields.ofWord_injective : Function.Injective Fields.ofWord := by
  intro v w h
  obtain ⟨hdir, hkind, hwsel, hbe, hskip, hrsv⟩ := Fields.mk.inj h
  obtain ⟨h6, h5⟩ := Kind.ofBits_inj.mp hkind
  obtain ⟨h4, h3⟩ := Wsel.ofBits_inj.mp hwsel
  have h7 : v.getLsbD 7 = w.getLsbD 7 := by
    cases hv : v.getLsbD 7 <;> cases hw : w.getLsbD 7 <;> simp_all
  refine BitVec.eq_of_getLsbD_eq fun k hk => ?_
  interval_cases k <;> assumption

theorem Fields.decode_eq_instr_iff {f : Fields} {i : Instr} : f.decode = .instr i ↔ f = i.fields := by
  constructor
  · obtain ⟨dir, kind, wsel, be, skip, rsv⟩ := f
    intro h
    cases rsv with
    | true => cases h
    | false =>
      simp only [Fields.decode, Bool.false_eq_true, if_false] at h
      split at h <;> cases h <;> rfl
  · rintro rfl
    cases i <;> rfl

theorem decode_eq_instr_iff {w : Command} {i : Instr} : decode w = .instr i ↔ w = encode i := by
  rw [decode, Fields.decode_eq_instr_iff, ← (commandFields i).1, Fields.ofWord_injective.eq_iff]

/-- Settles O29: a word decodes to an instruction exactly when it is the instruction's command word. -/
theorem commandWordsRoundTrip : Obligations.CommandWordsRoundTrip :=
  ⟨fun i => ⟨(commandFields i).2, decode_eq_instr_iff.mpr rfl⟩, fun _ _ h => (decode_eq_instr_iff.mp h).symm⟩

end Sys2Proof
end

section
/-! Reserved command words (30_encoding R61, 60_exceptions R136): decoding refuses a word for its fields exactly when
its bits meet one of the rule's four conditions. -/

namespace Sys2Proof

open Sys2Proof.Machine Sys2Proof.Claims

theorem Fields.wellFormed_eq_false_iff {f : Fields} :
    f.wellFormed = false ↔ f.rsv = true ∨ f.kind = .reserved ∨ ((f.kind = .uint ∨ f.kind = .int) ∧ f.wsel = .w8)
      ∨ (f.kind = .float ∧ (f.wsel = .w1 ∨ f.wsel = .w2)) := by
  obtain ⟨dir, kind, wsel, be, skip, rsv⟩ := f
  cases kind <;> cases wsel <;>
    simp [Fields.wellFormed, Fields.rsvClear, Fields.kindLegal, Fields.intWidthLegal, Fields.floatWidthLegal]

theorem Fields.decode_eq_illegal_iff {f : Fields} : (∃ why, f.decode = .illegal why) ↔ f.wellFormed = false := by
  constructor
  · rintro ⟨why, h⟩
    rw [Fields.wellFormed_eq_false_iff]
    unfold Fields.decode at h
    split at h
    · exact .inl ‹_›
    · right
      split at h <;> simp_all
  · intro hf
    cases hd : f.decode with
    | illegal why => exact ⟨why, rfl⟩
    | instr i =>
      obtain rfl := Fields.decode_eq_instr_iff.mp hd
      cases hf.symm.trans (commandFields i).2

theorem Kind.ofBits_eq_reserved {a b : Bool} : Kind.ofBits a b = .reserved ↔ a = true ∧ b = true :=
  Kind.ofBits_inj (a' := true) (b' := true)

theorem Kind.ofBits_eq_float {a b : Bool} : Kind.ofBits a b = .float ↔ a = true ∧ b = false :=
  Kind.ofBits_inj (a' := true) (b' := false)

theorem Kind.ofBits_uint_or_int {a b : Bool} : (Kind.ofBits a b = .uint ∨ Kind.ofBits a b = .int) ↔ a = false := by
  revert a b
  decide

theorem Wsel.ofBits_eq_w8 {a b : Bool} : Wsel.ofBits a b = .w8 ↔ a = true ∧ b = true :=
  Wsel.ofBits_inj (a' := true) (b' := true)

theorem Wsel.ofBits_w1_or_w2 {a b : Bool} : (Wsel.ofBits a b = .w1 ∨ Wsel.ofBits a b = .w2) ↔ a = false := by
  revert a b
  decide

theorem decode_eq_illegal_iff {w : Command} : (∃ why, decode w = .illegal why) ↔ ReservedWord w := by
  simp only [decode, Fields.decode_eq_illegal_iff, Fields.wellFormed_eq_false_iff, Fields.ofWord,
    Kind.ofBits_eq_reserved, Kind.ofBits_uint_or_int, Kind.ofBits_eq_float, Wsel.ofBits_eq_w8,
    Wsel.ofBits_w1_or_w2, and_assoc, ReservedWord]

/-- Settles O31: a reserved word decodes to ILLEGAL, and the transaction then raises IllegalCommand. -/
theorem reservedWordsAreIllegalCommands : Obligations.ReservedWordsAreIllegalCommands := by
  refine ⟨fun w => decode_eq_illegal_iff, fun s h => ?_⟩
  obtain ⟨why, hd⟩ := decode_eq_illegal_iff.mpr h
  exact ⟨_, transaction_of_illegal hd, rfl, rfl, rfl, fun _ => rfl, rfl, rfl, rfl, rfl⟩

end Sys2Proof
end

section
/-! The opcode map as match/mask rows (30_encoding R60, R66): every row compares the bits that make a word reserved,
so no row covers a reserved word, and the other words are those of the instructions. -/

namespace Sys2Proof

open Sys2Proof.Claims

theorem opcodeRows_mask_reserving_bits : ∀ row ∈ opcodeRows,
    row.mask.getLsbD 0 = true ∧ row.mask.getLsbD 3 = true ∧ row.mask.getLsbD 4 = true ∧ row.mask.getLsbD 5 = true
      ∧ row.mask.getLsbD 6 = true := by decide

theorem opcodeRows_pattern_not_reserved : ∀ row ∈ opcodeRows, ¬ ReservedWord row.pattern := by
  unfold ReservedWord
  decide

theorem not_covers_of_reserved {w : Command} (hw : ReservedWord w) {row : OpcodeRow} (hrow : row ∈ opcodeRows) :
    row.covers w = false := by
  refine beq_false_of_ne fun hp => opcodeRows_pattern_not_reserved row hrow ?_
  obtain ⟨h0, h3, h4, h5, h6⟩ := opcodeRows_mask_reserving_bits row hrow
  simpa only [ReservedWord, ← hp, BitVec.getLsbD_and, h0, h3, h4, h5, h6, Bool.and_true] using hw

/-- The one row that covers an instruction's command word is that of its mnemonic. -/
theorem rows_covering_encode (i : Instr) :
    (opcodeRows.filter (fun row => row.covers (encode i))).map OpcodeRow.mnemonic = [i.mnemonic] := by
  cases i with
  | readUInt8 x k | readInt8 x k | writeUInt8 x k | writeInt8 x k => cases x <;> cases k <;> rfl
  | _ k => cases k <;> rfl

/-- Settles O30: a legal word is the command word of its instruction, whose row alone covers it, and no row covers a
reserved word. -/
theorem commandWordsFollowTheOpcodeMap : Obligations.CommandWordsFollowTheOpcodeMap := by
  refine ⟨rfl, rfl, rfl, rfl, rfl, rfl, rfl, rfl, rfl, rfl, rfl, rfl, fun w => ?_, by decide +kernel⟩
  cases hd : decode w with
  | instr i =>
    obtain rfl := decode_eq_instr_iff.mp hd
    exact rows_covering_encode i
  | illegal why =>
    have hw : ReservedWord w := decode_eq_illegal_iff.mp ⟨why, hd⟩
    simpa using fun row => not_covers_of_reserved hw (row := row)

end Sys2Proof
end

section
/-! The generic forms of the assembler (30_encoding R64): the widths that have an instruction, the BE bit of a 1-byte
form, and the precisions that are read. -/

namespace Sys2Proof.Machine

theorem integerWsel_eq_none {w : Nat} (h1 : w ≠ 1) (h2 : w ≠ 2) (h4 : w ≠ 4) : integerWsel w = none := by
  unfold integerWsel
  split
  · exact absurd rfl h1
  · exact absurd rfl h2
  · exact absurd rfl h4
  · rfl

/-- The assembler drives BE = 0 for a 1-byte form, whatever its byte order (30_encoding R57, R62). -/
theorem command_generic_uint_one (dir : Dir) (be k : Bool) :
    (AsmOp.generic dir (.uint 1) be).command k = some (Fields.word ⟨dir, .uint, .w1, false, k, false⟩) := by
  cases be <;> rfl

theorem command_generic_int_one (dir : Dir) (be k : Bool) :
    (AsmOp.generic dir (.int 1) be).command k = some (Fields.word ⟨dir, .int, .w1, false, k, false⟩) := by
  cases be <;> rfl

theorem genericOf_readFP (operand : List Char) :
    genericOf "readFP".toList operand
      = if operand = "single".toList then some (.read, .single)
        else if operand = "double".toList then some (.read, .double) else none := by
  rw [genericOf, if_neg (by decide), if_neg (by decide), if_neg (by decide), if_neg (by decide), if_pos rfl]
  split_ifs <;> rfl

theorem genericOf_writeFP (operand : List Char) :
    genericOf "writeFP".toList operand
      = if operand = "single".toList then some (.write, .single)
        else if operand = "double".toList then some (.write, .double) else none := by
  rw [genericOf, if_neg (by decide), if_neg (by decide), if_neg (by decide), if_neg (by decide),
    if_neg (by decide), if_pos rfl]
  split_ifs <;> rfl

/-- Settles O32: a form with a row in the table assembles to its instruction's fields, by computing both; an integer of
another width has no WSEL. -/
theorem genericFormsExpandToOneInstruction : Obligations.GenericFormsExpandToOneInstruction := by
  refine ⟨command_generic_uint_one .read, fun _ => rfl, fun _ => rfl, fun _ => rfl, fun _ => rfl,
    command_generic_int_one .read, fun _ => rfl, fun _ => rfl, fun _ => rfl, fun _ => rfl,
    fun _ => rfl, fun _ => rfl, fun _ => rfl, fun _ => rfl,
    command_generic_uint_one .write, fun _ => rfl, fun _ => rfl, fun _ => rfl, fun _ => rfl,
    command_generic_int_one .write, fun _ => rfl, fun _ => rfl, fun _ => rfl, fun _ => rfl,
    fun _ => rfl, fun _ => rfl, fun _ => rfl, fun _ => rfl,
    fun dir w be k h1 h2 h4 => ?_, fun operand => ⟨genericOf_readFP operand, genericOf_writeFP operand⟩⟩
  have hw := integerWsel_eq_none h1 h2 h4
  constructor <;> rw [AsmOp.command, hw] <;> rfl

end Sys2Proof.Machine
end

section
/-! A step that issues a command is the transaction of the ports it drives (30_encoding R63, 70_reset R154). -/

namespace Sys2Proof.Machine

theorem step_of_issue {s : State} {p : Inputs} {rest : List HostEvent} (h : s.events = .issue p :: rest) :
    step s = transaction { s with inputs := p, events := rest } := step_of_event h

theorem step_withFetchWord (s : State) (w : Command) :
    step (s.withFetchWord 8 w.toNat) = transaction { s with inputs := { s.inputs with cmd := w } } := by
  rw [State.withFetchWord, BitVec.ofNat_toNat, BitVec.setWidth_eq]
  exact step_of_issue rfl

/-- Settles O33: the step is the transaction, and the transaction of a legal command runs its instruction. -/
theorem stepRunsTheDecodedInstruction : Obligations.StepRunsTheDecodedInstruction :=
  ⟨fun _ _ _ h => ⟨step_of_issue h, fun _ hd => (step_of_issue h).trans (transaction_of_instr hd)⟩,
    fun s w => ⟨step_withFetchWord s w, fun _ hd => (step_withFetchWord s w).trans (transaction_of_instr hd)⟩⟩

end Sys2Proof.Machine
end

section
/-! What a completed read, a completed write and a rejection leave (30_encoding R63, 60_exceptions R134), and the
causes that the failing sets of the reads and of the integer writes report (43_validation R129 to R131). -/

namespace Sys2Proof.Machine

open Sys2Proof.Claims

theorem readDone_completeRead (s : State) {word : Word64} {result : Word64 → Prop} (h : result word) :
    ReadDone s (s.completeRead word) result :=
  ⟨rfl, rfl, rfl, h, fun _ => rfl, rfl, rfl, rfl, rfl⟩

theorem rejected_raiseInvariantViolation (s : State) (c : Cause) :
    Rejected s (s.raiseInvariantViolation c) c.code :=
  ⟨rfl, rfl, rfl, fun _ => rfl, rfl, rfl, rfl, rfl⟩

theorem bufAt_completeWrite {s : State} {bs : List Byte} {k : Nat} (hwf : s.buf.wf) (hk : k < bs.length) :
    bufAt (s.completeWrite bs) k = (bs.getD k 0).toNat := by
  rw [List.getD_eq_getElem _ _ hk]
  exact congrArg BitVec.toNat (Memory.read_writeBytes_inside bs hwf hk)

theorem writeDone_completeWrite {s : State} {bs : List Byte} {byte : Nat → Nat} (hwf : s.buf.wf)
    (h : ∀ k, k < bs.length → (bs.getD k 0).toNat = byte k) :
    WriteDone s (s.completeWrite bs) bs.length byte :=
  ⟨rfl, rfl, rfl, fun k hk => (bufAt_completeWrite hwf hk).trans (h k hk),
    fun _ ha => Memory.read_writeBytes_outside bs ha, rfl, rfl, rfl, rfl⟩

/-- An instruction that is `checked` stops as 43_validation R130 and R131 say, where `fails` are the causes of its
failing set. -/
theorem stops_of_checked {i : Instr} {cs : List Check} {skip : Bool} {f : State → State}
    {fails : State → BitVec 3 → Prop} (he : ∀ s, exec i s = checked cs skip f s)
    (hf : ∀ s c, fails s c ↔ ∃ d ∈ failingSet cs s, d.code = c) : Stops i skip fails := by
  rintro s ⟨c, hc⟩
  obtain ⟨d, hd, -⟩ := (hf s c).mp hc
  obtain ⟨hskip, d', hd', henforce⟩ := checked_of_fails f (List.ne_nil_of_mem hd)
  rw [he]
  cases skip with
  | true => exact hskip
  | false => exact ⟨_, _, henforce, (hf s _).mpr ⟨d', hd', rfl⟩, rejected_raiseInvariantViolation s d'⟩

theorem readFails_iff {w : Nat} {s : State} {c : BitVec 3} :
    readFails w s c ↔ ∃ d ∈ failingSet (readChecks w) s, d.code = c := by
  simp only [mem_failingSet_read, readFails]
  constructor
  · rintro (⟨rfl, h⟩ | ⟨rfl, h⟩)
    · exact ⟨_, .inl ⟨rfl, h⟩, rfl⟩
    · exact ⟨_, .inr ⟨rfl, h⟩, rfl⟩
  · rintro ⟨d, ⟨rfl, h⟩ | ⟨rfl, h⟩, rfl⟩
    · exact .inl ⟨rfl, h⟩
    · exact .inr ⟨rfl, h⟩

/-- A range check of an integer write, URANGE or SRANGE, with its bounds (43_validation R125). -/
structure RangeCheck (range : Check) (lo hi : Int) : Prop where
  cause : range.cause = .valueRange
  fails : ∀ s, range.fails s = (s.inputs.valueValid && !s.value.within (.ofInt lo) (.ofInt hi))

theorem rangeCheck_urange (w : Nat) : RangeCheck (.urange w) 0 (maxUnsigned w) := ⟨rfl, fun _ => rfl⟩

theorem rangeCheck_srange (w : Nat) : RangeCheck (.srange w) (minSigned w) (maxSigned w) := ⟨rfl, fun _ => rfl⟩

theorem integerWriteFails_iff {w : Nat} {lo hi : Int} {range : Check} (hr : RangeCheck range lo hi) {s : State}
    {c : BitVec 3} :
    integerWriteFails w lo hi s c ↔
      ∃ d ∈ failingSet ([.valuePresent, range, .integral, .offsetPresent, .inBounds w] ++ byteOrderChecks w) s,
        d.code = c := by
  have hrange : range.fails s = true ↔ s.inputs.valueValid = true
      ∧ ¬ ((FP.ofInt lo).le (f64val s.inputs.value) = true ∧ (f64val s.inputs.value).le (FP.ofInt hi) = true) := by
    simp [hr.fails, FP.within, imp_iff_not_or]
  simp only [mem_failingSet_write hr.cause (fun k hk => ((byteOrderChecks_mem w k).mp hk).2), hrange,
    integerWriteFails, readFails, State.value_eq]
  constructor
  · rintro ((⟨rfl, h⟩ | ⟨rfl, h⟩) | ⟨rfl, h⟩ | ⟨rfl, h⟩ | ⟨rfl, h⟩)
    · exact ⟨_, .inr (.inr (.inr (.inl ⟨rfl, h⟩))), rfl⟩
    · exact ⟨_, .inr (.inr (.inr (.inr ⟨rfl, h⟩))), rfl⟩
    · exact ⟨_, .inl ⟨rfl, h⟩, rfl⟩
    · exact ⟨_, .inr (.inl ⟨rfl, h⟩), rfl⟩
    · exact ⟨_, .inr (.inr (.inl ⟨rfl, h⟩)), rfl⟩
  · rintro ⟨d, ⟨rfl, h⟩ | ⟨rfl, h⟩ | ⟨rfl, h⟩ | ⟨rfl, h⟩ | ⟨rfl, h⟩, rfl⟩
    · exact .inr (.inl ⟨rfl, h⟩)
    · exact .inr (.inr (.inl ⟨rfl, h⟩))
    · exact .inr (.inr (.inr ⟨rfl, h⟩))
    · exact .inl (.inl ⟨rfl, h⟩)
    · exact .inl (.inr ⟨rfl, h⟩)

/-- A read completes wherever its checks pass. -/
theorem reads_of_checked {i : Instr} {w : Nat} {skip : Bool} {word : State → Word64}
    {result : State → Word64 → Prop}
    (he : ∀ s, exec i s = checked (readChecks w) skip (fun s => s.completeRead (word s)) s)
    (hw : ∀ s, result s (word s)) : Reads i w result :=
  fun s hs => ⟨_, (he s).trans (checked_of_passes _ _ (failingSet_read_eq_nil.mpr hs)),
    readDone_completeRead s (hw s)⟩

end Sys2Proof.Machine
end

section
/-! The bytes of a field as numbers (20_memory R37 to R40): what a read assembles from the buffer, and what a write of
an integer leaves at each address. -/

namespace Sys2Proof.Machine

open Sys2Proof.Claims

/-- The integer a read assembles is the weighted sum of the bytes from the offset on (20_memory R39). -/
theorem assemble_operandBytes (s : State) (w : Nat) (be : Bool) :
    assemble (s.operandBytes w) be
      = ∑ k ∈ Finset.range w, bufAt s k * 256 ^ (if be then w - 1 - k else k) := by
  rw [assemble_eq_sum, State.operandBytes, Memory.length_readBytes]
  refine Finset.sum_congr rfl fun k hk => ?_
  rw [List.getD_eq_getElem _ _ (by simpa using hk), Memory.getElem_readBytes, bufAt]

theorem assemble_operandBytes_one (s : State) : assemble (s.operandBytes 1) false = bufAt s 0 := by
  simp [assemble_operandBytes]

theorem assemble_operandBytes_two_le (s : State) :
    assemble (s.operandBytes 2) false = bufAt s 0 + 2 ^ 8 * bufAt s 1 := by
  simp [assemble_operandBytes, Finset.sum_range_succ, Nat.mul_comm]

theorem assemble_operandBytes_two_be (s : State) :
    assemble (s.operandBytes 2) true = 2 ^ 8 * bufAt s 0 + bufAt s 1 := by
  simp [assemble_operandBytes, Finset.sum_range_succ, Nat.mul_comm]

theorem assemble_operandBytes_four_le (s : State) :
    assemble (s.operandBytes 4) false
      = bufAt s 0 + 2 ^ 8 * bufAt s 1 + 2 ^ 16 * bufAt s 2 + 2 ^ 24 * bufAt s 3 := by
  simp [assemble_operandBytes, Finset.sum_range_succ, Nat.mul_comm]

theorem assemble_operandBytes_four_be (s : State) :
    assemble (s.operandBytes 4) true
      = 2 ^ 24 * bufAt s 0 + 2 ^ 16 * bufAt s 1 + 2 ^ 8 * bufAt s 2 + bufAt s 3 := by
  simp [assemble_operandBytes, Finset.sum_range_succ, Nat.mul_comm]

/-- A read of the span just written gives the bytes written (20_memory R37, R38). -/
theorem operandBytes_completeWrite {s : State} (bs : List Byte) (hwf : s.buf.wf) :
    (s.completeWrite bs).operandBytes bs.length = bs :=
  Memory.readBytes_writeBytes s.inputs.offset bs hwf

theorem byteLE_natCast (u k : Nat) : byteLE u k = u / 256 ^ k % 256 := by
  rw [byteLE]
  exact_mod_cast Int.toNat_natCast _

/-- A write of the bytes of `u` leaves byte k of `u` at o + k, counted from the other end for big-endian. -/
theorem writeDone_disassemble {s : State} (u w : Nat) (be : Bool) (hwf : s.buf.wf) :
    WriteDone s (s.completeWrite (disassemble u w be)) w (fun k => byteLE u (if be then w - 1 - k else k)) := by
  have h := writeDone_completeWrite (bs := disassemble u w be) hwf fun k hk =>
    (toNat_getD_disassemble be (by simpa using hk)).trans (byteLE_natCast u _).symm
  rwa [length_disassemble] at h

end Sys2Proof.Machine
end

section
/-! The unsigned integer codec (40_unsigned): the templates UREAD and UWRITE, proved once for every width and byte
order, and each of the ten instructions as a case of its template. -/

namespace Sys2Proof.Machine

open Sys2Proof.Claims

theorem uread_of_span {s : State} {w : Nat} (be skip : Bool) (h : spanInBuffer w s) :
    uread w be skip s = .next (s.completeRead (intWord (assemble (s.operandBytes w) be))) :=
  checked_of_passes _ _ (failingSet_read_eq_nil.mpr h)

theorem uwrite_of_integer {s : State} {w : Nat} {r : Int} (be skip : Bool) (h : spanInBuffer w s)
    (hv : valueIsInteger s r) (h0 : 0 ≤ r) (hm : r ≤ maxUnsigned w) :
    uwrite w be skip s = .next (s.completeWrite (disassemble r.toNat w be)) := by
  have hr : s.integerValue = r := by rw [State.integerValue, State.value_eq, hv.2, toInteger_ofInt]
  rw [← hr]
  exact checked_of_passes _ _ (failingSet_unsignedWrite_eq_nil.mpr ⟨h, r, hv, h0, hm⟩)

/-- UREAD (40_unsigned R67): RESULT is the word of the integer its bytes stand for. -/
theorem reads_stops_of_uread {i : Instr} {w : Nat} {be skip : Bool} {sum : State → Nat}
    (he : ∀ s, exec i s = uread w be skip s) (hsum : ∀ s, assemble (s.operandBytes w) be = sum s) :
    Reads i w (fun s r => r = intWord (sum s)) ∧ Stops i skip (readFails w) :=
  ⟨reads_of_checked he fun s => by rw [hsum], stops_of_checked he fun _ _ => readFails_iff⟩

/-- UWRITE (40_unsigned R68): byte k of the value goes to o + k, counted from the other end for big-endian. -/
theorem writes_stops_of_uwrite {i : Instr} {w : Nat} {be skip : Bool} (he : ∀ s, exec i s = uwrite w be skip s) :
    WritesInteger i w 0 (maxUnsigned w) (fun r k => byteLE r (if be then w - 1 - k else k))
      ∧ Stops i skip (integerWriteFails w 0 (maxUnsigned w)) := by
  refine ⟨fun s r hwf hs hv h0 hm => ?_, stops_of_checked he fun _ _ => integerWriteFails_iff (rangeCheck_urange w)⟩
  refine ⟨_, (he s).trans (uwrite_of_integer be skip hs hv h0 hm), ?_⟩
  simpa only [Int.toNat_of_nonneg h0] using writeDone_disassemble r.toNat w be hwf

/-- Settles O1, the case UREAD(1, -) of the template. -/
theorem readUInt8ReturnsTheByte : Obligations.ReadUInt8ReturnsTheByte :=
  ⟨⟨rfl, rfl, rfl, rfl⟩, fun _ _ => reads_stops_of_uread (fun _ => rfl) assemble_operandBytes_one⟩

/-- Settles O2, the case UREAD(2, 0) of the template. -/
theorem readUInt16LEReturnsUnsignedValue : Obligations.ReadUInt16LEReturnsUnsignedValue :=
  ⟨⟨rfl, rfl⟩, fun _ => reads_stops_of_uread (fun _ => rfl) assemble_operandBytes_two_le⟩

/-- Settles O3, the case UREAD(2, 1) of the template. -/
theorem readUInt16BEReturnsUnsignedValue : Obligations.ReadUInt16BEReturnsUnsignedValue :=
  ⟨⟨rfl, rfl⟩, fun _ => reads_stops_of_uread (fun _ => rfl) assemble_operandBytes_two_be⟩

/-- Settles O4, the case UREAD(4, 0) of the template. -/
theorem readUInt32LEReturnsUnsignedValue : Obligations.ReadUInt32LEReturnsUnsignedValue :=
  ⟨⟨rfl, rfl⟩, fun _ => reads_stops_of_uread (fun _ => rfl) assemble_operandBytes_four_le⟩

/-- Settles O5, the case UREAD(4, 1) of the template. -/
theorem readUInt32BEReturnsUnsignedValue : Obligations.ReadUInt32BEReturnsUnsignedValue :=
  ⟨⟨rfl, rfl⟩, fun _ => reads_stops_of_uread (fun _ => rfl) assemble_operandBytes_four_be⟩

/-- Settles O6, the case UWRITE(1, -) of the template. -/
theorem writeUInt8StoresUnsignedByte : Obligations.WriteUInt8StoresUnsignedByte :=
  ⟨⟨rfl, rfl, rfl, rfl⟩, fun _ _ => writes_stops_of_uwrite (be := false) fun _ => rfl⟩

/-- Settles O7, the case UWRITE(2, 0) of the template. -/
theorem writeUInt16LEStoresUnsignedBytes : Obligations.WriteUInt16LEStoresUnsignedBytes :=
  ⟨⟨rfl, rfl⟩, fun _ => writes_stops_of_uwrite (be := false) fun _ => rfl⟩

/-- Settles O8, the case UWRITE(2, 1) of the template. -/
theorem writeUInt16BEStoresUnsignedBytes : Obligations.WriteUInt16BEStoresUnsignedBytes :=
  ⟨⟨rfl, rfl⟩, fun _ => writes_stops_of_uwrite (be := true) fun _ => rfl⟩

/-- Settles O9, the case UWRITE(4, 0) of the template. -/
theorem writeUInt32LEStoresUnsignedBytes : Obligations.WriteUInt32LEStoresUnsignedBytes :=
  ⟨⟨rfl, rfl⟩, fun _ => writes_stops_of_uwrite (be := false) fun _ => rfl⟩

/-- Settles O10, the case UWRITE(4, 1) of the template. -/
theorem writeUInt32BEStoresUnsignedBytes : Obligations.WriteUInt32BEStoresUnsignedBytes :=
  ⟨⟨rfl, rfl⟩, fun _ => writes_stops_of_uwrite (be := true) fun _ => rfl⟩

end Sys2Proof.Machine
end

section
/-! An unsigned write followed by the unsigned read of the same width and order (40_unsigned R80). -/

namespace Sys2Proof.Machine

open Sys2Proof.Claims

/-- An integer below 2^53 is the value of its word (42_float R99). -/
theorem f64val_intWord {r : Int} (h : r.natAbs < 2 ^ 53) : f64val (intWord r) = .ofInt r :=
  (f64val_wordOf false (double_holds_int h)).1

/-- A pair is UWRITE and UREAD of one width, at most 4 bytes, and one byte order. -/
theorem exec_of_unsignedPair {w : Nat} {wr rd : Bool → Instr} (h : UnsignedPair w wr rd) :
    w ≤ 4 ∧ ∃ be, (∀ k s, exec (wr k) s = uwrite w be k s) ∧ ∀ k s, exec (rd k) s = uread w be k s := by
  cases h
  case u8 | u16le | u32le => exact ⟨by decide, false, fun _ _ => rfl, fun _ _ => rfl⟩
  case u16be | u32be => exact ⟨by decide, true, fun _ _ => rfl, fun _ _ => rfl⟩

/-- After an unsigned write of `u` the unsigned read of its span puts the word of `u` on RESULT. -/
theorem uread_completeWrite {s : State} {u w : Nat} (be skip : Bool) (hwf : s.buf.wf) (hs : spanInBuffer w s)
    (hu : u < 2 ^ (8 * w)) :
    uread w be skip (s.completeWrite (disassemble u w be))
      = .next ((s.completeWrite (disassemble u w be)).completeRead (intWord u)) := by
  have hbytes : (s.completeWrite (disassemble u w be)).operandBytes w = disassemble u w be := by
    simpa using operandBytes_completeWrite (disassemble u w be) hwf
  rw [uread_of_span be skip (show spanInBuffer w (s.completeWrite _) from hs), hbytes, assemble_disassemble be hu]

/-- Settles O46: the read assembles the bytes the write took apart, and a value below 2^32 is that of its word. -/
theorem unsignedWriteThenReadReturnsTheValue : Obligations.UnsignedWriteThenReadReturnsTheValue := by
  intro w wr rd hp k k' s r hwf hs hv h0 hm
  obtain ⟨hw, be, hwr, hrd⟩ := exec_of_unsignedPair hp
  obtain ⟨u, rfl⟩ := Int.eq_ofNat_of_zero_le h0
  have hu : u < 2 ^ (8 * w) := by
    have : (u : Int) < (2 ^ (8 * w) : Nat) := by push_cast; omega
    exact_mod_cast this
  have hu53 : u < 2 ^ 53 := hu.trans_le (Nat.pow_le_pow_right (by decide) (by omega))
  exact ⟨_, _, (hwr k s).trans (uwrite_of_integer be k hs hv h0 hm),
    (hrd k' _).trans (uread_completeWrite be k' hwf hs hu), rfl, rfl, rfl, f64val_intWord (by simpa using hu53)⟩

end Sys2Proof.Machine
end

section
/-! The two's-complement unit (41_signed R81, R82): the model's formulas are the signed reading of an N-bit pattern and
the pattern of an integer, and the two undo one another. -/

namespace Sys2Proof.Machine

open Sys2Proof.Claims

/-- An integer of the signed range of N bits (41_signed R82). -/
def FitsSigned (n : Nat) (r : Int) : Prop := -2 ^ (n - 1) ≤ r ∧ r ≤ 2 ^ (n - 1) - 1

section
variable {n u : Nat} {r : Int}

theorem signedOf_eq_toInt (hn : 0 < n) (hu : u < 2 ^ n) : signedOf n u = (BitVec.ofNat n u).toInt := by
  have hhalf : u < 2 ^ (n - 1) ↔ 2 * u < 2 ^ n := by
    rw [← mul_pow_sub_one hn.ne' 2]
    omega
  simp only [signedOf, BitVec.toInt_eq_toNat_cond, BitVec.toNat_ofNat, Nat.mod_eq_of_lt hu, hhalf, Nat.cast_pow,
    Nat.cast_ofNat]

theorem fitsSigned_signedOf (hn : 0 < n) (hu : u < 2 ^ n) : FitsSigned n (signedOf n u) := by
  rw [signedOf_eq_toInt hn hu]
  exact ⟨BitVec.le_toInt _, Int.le_sub_one_of_lt BitVec.toInt_lt⟩

theorem patternOf_signedOf (hn : 0 < n) (hu : u < 2 ^ n) : patternOf n (signedOf n u) = u := by
  have hhalf : 2 * 2 ^ (n - 1) = 2 ^ n := mul_pow_sub_one hn.ne' 2
  unfold signedOf patternOf
  split
  · exact if_pos (by omega)
  · zify at hu
    rw [if_neg (by omega)]
    omega

theorem patternOf_mem_range (hn : 0 < n) (h : FitsSigned n r) : 0 ≤ patternOf n r ∧ patternOf n r < 2 ^ n := by
  have hhalf : 2 * 2 ^ (n - 1) = (2 : Int) ^ n := mul_pow_sub_one hn.ne' 2
  obtain ⟨hlo, hhi⟩ := h
  unfold patternOf
  split <;> omega

theorem signedOf_of_natCast_eq_patternOf (hn : 0 < n) (h : FitsSigned n r) (hu : (u : Int) = patternOf n r) :
    signedOf n u = r := by
  have hhalf : 2 * 2 ^ (n - 1) = (2 : Int) ^ n := mul_pow_sub_one hn.ne' 2
  obtain ⟨hlo, hhi⟩ := h
  unfold patternOf at hu
  unfold signedOf
  zify
  split at hu
  · rw [if_pos (by omega), hu]
  · rw [if_neg (by omega)]
    omega

end

theorem u2s_eq_signedOf (u w : Nat) : u2s u w = signedOf (8 * w) u := by
  unfold u2s signedOf maxUnsigned
  split
  · rfl
  · ring

section
variable {w : Nat} {r : Int} (hw : 0 < w) (hr : FitsSigned (8 * w) r)
include hw hr

/-- The narrowed integer is the pattern itself, which is not negative. -/
theorem natCast_s2u : (s2u r w : Int) = patternOf (8 * w) r := by
  have h0 : 0 ≤ patternOf (8 * w) r := (patternOf_mem_range (by omega) hr).1
  unfold patternOf at h0
  unfold s2u patternOf maxUnsigned
  split at h0
  · rw [if_pos ‹_›, if_pos ‹_›, Int.toNat_of_nonneg h0]
  · rw [if_neg ‹_›, if_neg ‹_›, Int.toNat_of_nonneg] <;> omega

theorem s2u_lt : s2u r w < 2 ^ (8 * w) := by
  have h : (s2u r w : Int) < 2 ^ (8 * w) := natCast_s2u hw hr ▸ (patternOf_mem_range (by omega) hr).2
  exact_mod_cast h

theorem u2s_s2u : u2s (s2u r w) w = r := by
  rw [u2s_eq_signedOf, signedOf_of_natCast_eq_patternOf (by omega) hr (natCast_s2u hw hr)]

end

theorem s2u_u2s {u w : Nat} (hw : 0 < w) (hu : u < 2 ^ (8 * w)) : s2u (u2s u w) w = u := by
  rw [u2s_eq_signedOf]
  have h : (s2u (signedOf (8 * w) u) w : Int) = u :=
    (natCast_s2u hw (fitsSigned_signedOf (by omega) hu)).trans (patternOf_signedOf (by omega) hu)
  exact_mod_cast h

/-- Settles O41, for every width above 0: u2s is the signed reading of the pattern and s2u answers the pattern. -/
theorem twosComplementUnitConverts : Obligations.TwosComplementUnitConverts := by
  intro w hw
  have hw : 0 < w := by omega
  refine ⟨fun u hu => ?_, fun r hlo hhi => ?_⟩
  · obtain ⟨hlo, hhi⟩ := fitsSigned_signedOf (by omega) hu
    have hs : u2s u w = signedOf (8 * w) u := u2s_eq_signedOf u w
    exact ⟨hs, hs.trans (signedOf_eq_toInt (by omega) hu), hs ▸ hlo, hs ▸ hhi, s2u_u2s hw hu⟩
  · have hr : FitsSigned (8 * w) r := ⟨hlo, hhi⟩
    exact ⟨natCast_s2u hw hr, s2u_lt hw hr, u2s_s2u hw hr⟩

end Sys2Proof.Machine
end

section
/-! The signed integer codec (41_signed): the templates SREAD and SWRITE, proved once for every width and byte order,
and each of the ten instructions as a case of its template. -/

namespace Sys2Proof.Machine

open Sys2Proof.Claims

theorem sread_of_span {s : State} {w : Nat} (be skip : Bool) (h : spanInBuffer w s) :
    sread w be skip s = .next (s.completeRead (intWord (u2s (assemble (s.operandBytes w) be) w))) :=
  checked_of_passes _ _ (failingSet_read_eq_nil.mpr h)

theorem swrite_of_integer {s : State} {w : Nat} {r : Int} (be skip : Bool) (h : spanInBuffer w s)
    (hv : valueIsInteger s r) (hlo : minSigned w ≤ r) (hhi : r ≤ maxSigned w) :
    swrite w be skip s = .next (s.completeWrite (disassemble (s2u r w) w be)) := by
  have hr : s.integerValue = r := by rw [State.integerValue, State.value_eq, hv.2, toInteger_ofInt]
  rw [← hr]
  exact checked_of_passes _ _ (failingSet_signedWrite_eq_nil.mpr ⟨h, r, hv, hlo, hhi⟩)

/-- SREAD (41_signed R84): RESULT is the word of the signed integer its bytes stand for. -/
theorem reads_stops_of_sread {i : Instr} {w : Nat} {be skip : Bool} {sum : State → Nat}
    (he : ∀ s, exec i s = sread w be skip s) (hsum : ∀ s, assemble (s.operandBytes w) be = sum s) :
    Reads i w (fun s r => r = intWord (signedOf (8 * w) (sum s))) ∧ Stops i skip (readFails w) :=
  ⟨reads_of_checked he fun s => by rw [u2s_eq_signedOf, hsum], stops_of_checked he fun _ _ => readFails_iff⟩

/-- SWRITE (41_signed R85): byte k of the value's pattern goes to o + k, counted from the other end for big-endian. -/
theorem writes_stops_of_swrite {i : Instr} {w : Nat} {be skip : Bool} (hw : 0 < w)
    (he : ∀ s, exec i s = swrite w be skip s) :
    WritesInteger i w (minSigned w) (maxSigned w)
        (fun r k => byteLE (patternOf (8 * w) r) (if be then w - 1 - k else k))
      ∧ Stops i skip (integerWriteFails w (minSigned w) (maxSigned w)) := by
  refine ⟨fun s r hwf hs hv hlo hhi => ?_, stops_of_checked he fun _ _ => integerWriteFails_iff (rangeCheck_srange w)⟩
  refine ⟨_, (he s).trans (swrite_of_integer be skip hs hv hlo hhi), ?_⟩
  simpa only [natCast_s2u hw ⟨hlo, hhi⟩] using writeDone_disassemble (s2u r w) w be hwf

/-- Settles O11, the case SREAD(1, -) of the template. -/
theorem readInt8ReturnsSignedValue : Obligations.ReadInt8ReturnsSignedValue :=
  ⟨⟨rfl, rfl, rfl, rfl⟩, fun _ _ => reads_stops_of_sread (fun _ => rfl) assemble_operandBytes_one⟩

/-- Settles O12, the case SREAD(2, 0) of the template. -/
theorem readInt16LEReturnsSignedValue : Obligations.ReadInt16LEReturnsSignedValue :=
  ⟨⟨rfl, rfl⟩, fun _ => reads_stops_of_sread (fun _ => rfl) assemble_operandBytes_two_le⟩

/-- Settles O13, the case SREAD(2, 1) of the template. -/
theorem readInt16BEReturnsSignedValue : Obligations.ReadInt16BEReturnsSignedValue :=
  ⟨⟨rfl, rfl⟩, fun _ => reads_stops_of_sread (fun _ => rfl) assemble_operandBytes_two_be⟩

/-- Settles O14, the case SREAD(4, 0) of the template. -/
theorem readInt32LEReturnsSignedValue : Obligations.ReadInt32LEReturnsSignedValue :=
  ⟨⟨rfl, rfl⟩, fun _ => reads_stops_of_sread (fun _ => rfl) assemble_operandBytes_four_le⟩

/-- Settles O15, the case SREAD(4, 1) of the template. -/
theorem readInt32BEReturnsSignedValue : Obligations.ReadInt32BEReturnsSignedValue :=
  ⟨⟨rfl, rfl⟩, fun _ => reads_stops_of_sread (fun _ => rfl) assemble_operandBytes_four_be⟩

/-- Settles O16, the case SWRITE(1, -) of the template. -/
theorem writeInt8StoresSignedByte : Obligations.WriteInt8StoresSignedByte :=
  ⟨⟨rfl, rfl, rfl, rfl⟩, fun _ _ => writes_stops_of_swrite (be := false) (by decide) fun _ => rfl⟩

/-- Settles O17, the case SWRITE(2, 0) of the template. -/
theorem writeInt16LEStoresSignedBytes : Obligations.WriteInt16LEStoresSignedBytes :=
  ⟨⟨rfl, rfl⟩, fun _ => writes_stops_of_swrite (be := false) (by decide) fun _ => rfl⟩

/-- Settles O18, the case SWRITE(2, 1) of the template. -/
theorem writeInt16BEStoresSignedBytes : Obligations.WriteInt16BEStoresSignedBytes :=
  ⟨⟨rfl, rfl⟩, fun _ => writes_stops_of_swrite (be := true) (by decide) fun _ => rfl⟩

/-- Settles O19, the case SWRITE(4, 0) of the template. -/
theorem writeInt32LEStoresSignedBytes : Obligations.WriteInt32LEStoresSignedBytes :=
  ⟨⟨rfl, rfl⟩, fun _ => writes_stops_of_swrite (be := false) (by decide) fun _ => rfl⟩

/-- Settles O20, the case SWRITE(4, 1) of the template. -/
theorem writeInt32BEStoresSignedBytes : Obligations.WriteInt32BEStoresSignedBytes :=
  ⟨⟨rfl, rfl⟩, fun _ => writes_stops_of_swrite (be := true) (by decide) fun _ => rfl⟩

end Sys2Proof.Machine
end

section
/-! The signed codec as the two's-complement view of the unsigned one (41_signed R96): a signed write and the signed
read of its span, and the signed and unsigned accesses to the same bytes. -/

namespace Sys2Proof.Machine

open Sys2Proof.Claims

/-- A pair is SWRITE, SREAD, UWRITE and UREAD of one width, 1 to 4 bytes, and one byte order. -/
theorem exec_of_signedPair {w : Nat} {wr rd uwr urd : Bool → Instr} (h : SignedPair w wr rd uwr urd) :
    0 < w ∧ w ≤ 4 ∧ ∃ be, (∀ k s, exec (wr k) s = swrite w be k s) ∧ (∀ k s, exec (rd k) s = sread w be k s)
      ∧ (∀ k s, exec (uwr k) s = uwrite w be k s) ∧ ∀ k s, exec (urd k) s = uread w be k s := by
  cases h
  case i8 | i16le | i32le =>
    exact ⟨by decide, by decide, false, fun _ _ => rfl, fun _ _ => rfl, fun _ _ => rfl, fun _ _ => rfl⟩
  case i16be | i32be =>
    exact ⟨by decide, by decide, true, fun _ _ => rfl, fun _ _ => rfl, fun _ _ => rfl, fun _ _ => rfl⟩

/-- After a write of the pattern `u` the signed read of its span puts the word of u2s(u) on RESULT. -/
theorem sread_completeWrite {s : State} {u w : Nat} (be skip : Bool) (hwf : s.buf.wf) (hs : spanInBuffer w s)
    (hu : u < 2 ^ (8 * w)) :
    sread w be skip (s.completeWrite (disassemble u w be))
      = .next ((s.completeWrite (disassemble u w be)).completeRead (intWord (u2s u w))) := by
  have hbytes : (s.completeWrite (disassemble u w be)).operandBytes w = disassemble u w be := by
    simpa using operandBytes_completeWrite (disassemble u w be) hwf
  rw [sread_of_span be skip (show spanInBuffer w (s.completeWrite _) from hs), hbytes, assemble_disassemble be hu]

theorem FitsSigned.natAbs_lt {n : Nat} {r : Int} (h : FitsSigned n r) (hn : n ≤ 32) : r.natAbs < 2 ^ 53 := by
  obtain ⟨hlo, hhi⟩ := h
  have : (2 : Int) ^ (n - 1) ≤ 2 ^ 31 := pow_le_pow_right₀ (by decide) (by omega)
  omega

/-- The unsigned write of the pattern of `r` writes the bytes that the signed write of `r` does. -/
theorem uwrite_of_patternOf {s : State} {w : Nat} {r : Int} (be skip : Bool) (hw : 0 < w) (hs : spanInBuffer w s)
    (hr : FitsSigned (8 * w) r) (hv : valueIsInteger s (patternOf (8 * w) r)) :
    uwrite w be skip s = .next (s.completeWrite (disassemble (s2u r w) w be)) := by
  obtain ⟨h0, hlt⟩ := patternOf_mem_range (by omega) hr
  rw [uwrite_of_integer be skip hs hv h0 (Int.le_sub_one_of_lt hlt), ← natCast_s2u hw hr, Int.toNat_natCast]

/-- Settles O47: the signed read assembles the pattern the write took apart, both reads assemble one pattern, and both
writes take one pattern apart. -/
theorem signedCodecIsTheTwosComplementView : Obligations.SignedCodecIsTheTwosComplementView := by
  intro w wr rd uwr urd hp k k' s hs
  obtain ⟨hw, hw4, be, hwr, hrd, huwr, hurd⟩ := exec_of_signedPair hp
  refine ⟨fun r hwf hv hlo hhi => ?_, ?_, fun r v hv hlo hhi hval => ?_⟩
  · have hr : FitsSigned (8 * w) r := ⟨hlo, hhi⟩
    have hread := (hrd k' _).trans (sread_completeWrite be k' hwf hs (s2u_lt hw hr))
    rw [u2s_s2u hw hr] at hread
    exact ⟨_, _, (hwr k s).trans (swrite_of_integer be k hs hv hlo hhi), hread, rfl, rfl, rfl,
      f64val_intWord (hr.natAbs_lt (by omega))⟩
  · refine ⟨_, _, assemble (s.operandBytes w) be, (hrd k s).trans (sread_of_span be k hs),
      (hurd k' s).trans (uread_of_span be k' hs), ?_, rfl, ?_⟩
    · simpa [State.operandBytes] using assemble_lt (s.operandBytes w) be
    · rw [State.completeRead_result, u2s_eq_signedOf]
  · exact ⟨_, _, (hwr k s).trans (swrite_of_integer be k hs hv hlo hhi),
      (huwr k' _).trans (uwrite_of_patternOf be k' hw hs ⟨hlo, hhi⟩ ⟨hv.1, hval⟩), rfl⟩

end Sys2Proof.Machine
end

section
/-! The words of finite values and infinities (42_float R98, R99, R107): in each format a word is determined by its
value and its sign bit. -/

namespace Sys2Proof.Machine

open Sys2Proof.Claims

/-- A word of a finite value is the word of that value with its sign bit (42_float R99, R107). -/
theorem Format.wordOf_of_valueOf {fmt : Format} (hf : fmt.fieldsFill) {w : Nat} {u : Int} (hw : w < 2 ^ (8 * fmt.n))
    (h : fmt.valueOf w = .fin u) : fmt.holds u ∧ fmt.wordOf u (fmt.signOf w) = w := by
  obtain ⟨s, b, rfl, hs, hb | ⟨f, hff, rfl⟩⟩ := Format.word_cases hf hw
  · rw [Format.valueOf_finite hf s hb] at h
    injection h with h
    exact ⟨⟨b, hb, by rw [← h, withSign_natAbs]⟩, by rw [hs, ← h, Format.wordOf_withSign]⟩
  · rw [Format.valueOf_special hf s hff] at h
    split at h <;> cases h

/-- A word of an infinity is its sign and the all-ones exponent (42_float R101). -/
theorem Format.word_of_valueOf_inf {fmt : Format} (hf : fmt.fieldsFill) {w : Nat} {neg : Bool}
    (hw : w < 2 ^ (8 * fmt.n)) (h : fmt.valueOf w = .inf neg) :
    w = neg.toNat * 2 ^ (8 * fmt.n - 1) + fmt.emax * 2 ^ fmt.mLen := by
  obtain ⟨s, b, rfl, -, hb | ⟨f, hff, rfl⟩⟩ := Format.word_cases hf hw
  · rw [Format.valueOf_finite hf s hb] at h
    cases h
  · rw [Format.valueOf_special hf s hff] at h
    split at h <;> cases h
    simp [*]

theorem signBitOf_false (u : Int) : signBitOf u false = decide (u < 0) := by
  unfold signBitOf
  split <;> simp [*]

theorem signBitOf_zero (sgn : Bool) : signBitOf 0 sgn = sgn := rfl

/-- The sign given matters for a zero only (42_float R99, R107). -/
theorem signBitOf_congr {u : Int} {s s' : Bool} (h : u = 0 → s = s') : signBitOf u s = signBitOf u s' := by
  unfold signBitOf
  split
  · exact h ‹_›
  · rfl

/-! ### binary64 words -/

/-- f64word gives a word back from its value and its sign bit (42_float R99). -/
theorem f64word_f64val {w : Word64} (h : f64val w ≠ .nan) : f64word (f64val w) (f64sign w) = some w := by
  cases hv : f64val w with
  | nan => exact absurd hv h
  | inf neg =>
    have hw : w.toNat = neg.toNat * 2 ^ 63 + double.emax * 2 ^ 52 :=
      Format.word_of_valueOf_inf double_fieldsFill w.isLt hv
    rw [f64word, ← hw, BitVec.ofNat_toNat, BitVec.setWidth_eq]
  | fin u => simp [f64word, (double_holds_of_f64val hv).2]

theorem f64sign_intWord {r : Int} (h : r.natAbs < 2 ^ 53) : f64sign (intWord r) = decide (r < 0) := by
  have hpos : (0 : Int) < 2 ^ unitExp := by positivity
  rw [intWord, (f64val_wordOf false (double_holds_int h)).2, signBitOf_false]
  simp [mul_neg_iff, hpos, hpos.not_gt]

/-- Settles O42: f64word gives a word back from its value and sign, and integers below 2^53 are held exactly. -/
theorem binary64WordIsUnique : Obligations.Binary64WordIsUnique := by
  refine ⟨fun w => f64word_f64val, fun v w hv hval hsign => ?_,
    fun r hr => ⟨f64val_intWord hr, f64sign_intWord hr⟩, by decide +kernel, by decide +kernel, by decide +kernel⟩
  have hw := f64word_f64val (hval ▸ hv)
  rw [← hval, ← hsign, f64word_f64val hv] at hw
  exact Option.some.inj hw

/-! ### binary32 words -/

theorem toNat_f32word {u : Int} (sgn : Bool) (h : single.holds u) : (f32word u sgn).toNat = single.wordOf u sgn := by
  have hlt : single.wordOf u sgn < 2 ^ 32 := (Format.valueOf_wordOf single_fieldsFill sgn h).2.2
  rw [f32word, BitVec.toNat_ofNat, Nat.mod_eq_of_lt hlt]

theorem isSingle_iff_holds {u : Int} : IsSingle u ↔ single.holds u := by
  constructor
  · rintro ⟨w, h⟩
    exact (Format.wordOf_of_valueOf single_fieldsFill w.isLt h).1
  · intro h
    exact ⟨f32word u false, by rw [toNat_f32word false h, (Format.valueOf_wordOf single_fieldsFill false h).1]⟩

theorem valueOf_f32word {u : Int} (sgn : Bool) (h : IsSingle u) : single.valueOf (f32word u sgn).toNat = .fin u := by
  rw [toNat_f32word sgn (isSingle_iff_holds.mp h)]
  exact (Format.valueOf_wordOf single_fieldsFill sgn (isSingle_iff_holds.mp h)).1

theorem getLsbD_f32word_sign {u : Int} (sgn : Bool) (h : IsSingle u) :
    (f32word u sgn).getLsbD 31 = signBitOf u sgn := by
  rw [BitVec.getLsbD, toNat_f32word sgn (isSingle_iff_holds.mp h)]
  exact (Format.valueOf_wordOf single_fieldsFill sgn (isSingle_iff_holds.mp h)).2.1

theorem eq_f32word {u : Int} {sgn : Bool} {w : Word32} (h : single.valueOf w.toNat = .fin u)
    (hs : u = 0 → w.getLsbD 31 = sgn) : w = f32word u sgn := by
  obtain ⟨-, hw⟩ := Format.wordOf_of_valueOf single_fieldsFill w.isLt h
  have hsign : signBitOf u (single.signOf w.toNat) = signBitOf u sgn := signBitOf_congr hs
  rw [Format.wordOf, hsign] at hw
  rw [f32word, Format.wordOf, hw, BitVec.ofNat_toNat, BitVec.setWidth_eq]

/-- Settles O45: the word of a value binary32 holds has its value and sign, and these determine the word. -/
theorem binary32WordIsUnique : Obligations.Binary32WordIsUnique := by
  refine ⟨fun u sgn hu => ⟨valueOf_f32word sgn hu, fun h0 => ?_, fun w => eq_f32word⟩,
    by decide +kernel, by decide +kernel, by decide +kernel⟩
  rw [getLsbD_f32word_sign sgn hu, h0, signBitOf_zero]

end Sys2Proof.Machine
end

section
/-! The three fields of a word (42_float R100) and the rational number they stand for (42_float R101). -/

namespace Sys2Proof.Machine

theorem valueOf_word32 (W : Word32) :
    single.valueOf W.toNat = fpVal single (W.getLsbD 31) (W.extractLsb' 23 8).toNat (W.extractLsb' 0 23).toNat := by
  rw [BitVec.extractLsb'_toNat, BitVec.extractLsb'_toNat, Nat.shiftRight_eq_div_pow, Nat.shiftRight_zero]
  rfl

theorem valueOf_word64 (W : Word64) :
    double.valueOf W.toNat = fpVal double (W.getLsbD 63) (W.extractLsb' 52 11).toNat (W.extractLsb' 0 52).toNat := by
  rw [BitVec.extractLsb'_toNat, BitVec.extractLsb'_toNat, Nat.shiftRight_eq_div_pow, Nat.shiftRight_zero]
  rfl

/-- The bytes of a field assemble to a word of the field's width (20_memory R39). -/
theorem toNat_ofNat_assemble {bytes : List Byte} {n : Nat} (be : Bool) (h : 8 * bytes.length = n) :
    (BitVec.ofNat n (assemble bytes be)).toNat = assemble bytes be := by
  rw [BitVec.toNat_ofNat, Nat.mod_eq_of_lt (h ▸ assemble_lt bytes be)]

theorem unpack_eq_valueOf_word {fmt : Format} {bytes : List Byte} (be : Bool) (h : bytes.length = fmt.n) :
    unpack fmt bytes be = fmt.valueOf (BitVec.ofNat (8 * fmt.n) (assemble bytes be)).toNat
      ∧ unpackSign fmt bytes be = (BitVec.ofNat (8 * fmt.n) (assemble bytes be)).getLsbD (8 * fmt.n - 1) := by
  rw [BitVec.getLsbD, toNat_ofNat_assemble be (by rw [h])]
  exact ⟨rfl, rfl⟩

/-- The exponent of a unit of the smallest subnormal, 1 - bias - mLen, counted from 2^-1074 (42_float R101, log 19). -/
def Format.UlpExpCounted (fmt : Format) : Prop := (fmt.ulpExp : ℤ) = unitExp + 1 - fmt.bias - fmt.mLen

theorem emax_pos {fmt : Format} (h : fmt = single ∨ fmt = double) : 0 < fmt.emax := by
  rcases h with rfl | rfl <;> decide

theorem ulpExpCounted_of_single_or_double {fmt : Format} (h : fmt = single ∨ fmt = double) : fmt.UlpExpCounted := by
  rcases h with rfl | rfl <;> rfl

/-- A signed number of units times a power of two, as a rational number. -/
theorem units_div_eq (s : Bool) (m k : Nat) :
    ((withSign s (m * 2 ^ k) : Int) : ℚ) / 2 ^ unitExp = (-1) ^ s.toNat * m * (2 : ℚ) ^ ((k : ℤ) - unitExp) := by
  rw [zpow_sub₀ two_ne_zero, zpow_natCast, zpow_natCast]
  cases s <;> simp [withSign, mul_div_assoc, neg_div]

section
variable {fmt : Format} (s : Bool) {e : Nat} (f : Nat)

theorem fpVal_special (h : e = fmt.emax) : fpVal fmt s e f = if f = 0 then .inf s else .nan := if_pos h

theorem fpVal_subnormal (h : 0 < fmt.emax) : fpVal fmt s 0 f = .fin (withSign s (f * 2 ^ fmt.ulpExp)) := by
  rw [fpVal, if_neg h.ne, if_pos rfl]

theorem fpVal_normal (h0 : 0 < e) (h : e < fmt.emax) :
    fpVal fmt s e f = .fin (withSign s ((2 ^ fmt.mLen + f) * 2 ^ (e - 1 + fmt.ulpExp))) := by
  rw [fpVal, if_neg h.ne, if_neg h0.ne']

end

theorem fpVal_subnormal_rational {fmt : Format} (hulp : fmt.UlpExpCounted) (s : Bool) (f : Nat) (h : 0 < fmt.emax) :
    ∃ u : Int, fpVal fmt s 0 f = .fin u
      ∧ (u : ℚ) / 2 ^ unitExp = (-1) ^ s.toNat * f * (2 : ℚ) ^ ((1 : ℤ) - fmt.bias - fmt.mLen) := by
  refine ⟨_, fpVal_subnormal s f h, ?_⟩
  rw [units_div_eq, hulp]
  congr 2
  ring

theorem fpVal_normal_rational {fmt : Format} (hulp : fmt.UlpExpCounted) (s : Bool) {e : Nat} (f : Nat) (h0 : 0 < e)
    (h : e < fmt.emax) :
    ∃ u : Int, fpVal fmt s e f = .fin u
      ∧ (u : ℚ) / 2 ^ unitExp
        = (-1) ^ s.toNat * (2 ^ fmt.mLen + f) * (2 : ℚ) ^ ((e : ℤ) - fmt.bias - fmt.mLen) := by
  refine ⟨_, fpVal_normal s f h0 h, ?_⟩
  rw [units_div_eq, Nat.cast_add (e - 1), hulp, Nat.cast_pred h0]
  push_cast
  congr 2
  ring

/-- Settles O43: the fields are the bits of the word, and their value follows by the cases of the exponent. -/
theorem floatFieldsGiveTheIeeeValue : Obligations.FloatFieldsGiveTheIeeeValue := by
  refine ⟨valueOf_word32, valueOf_word64,
    fun bytes be => ⟨unpack_eq_valueOf_word (fmt := single) be, unpack_eq_valueOf_word (fmt := double) be⟩,
    rfl, rfl, rfl, rfl, fun fmt s e f hfmt he hf => ?_⟩
  have hulp := ulpExpCounted_of_single_or_double hfmt
  refine ⟨fun h h0 => (fpVal_special s f h).trans (if_pos h0), fun h h0 => (fpVal_special s f h).trans (if_neg h0),
    ?_, fpVal_normal_rational hulp s f⟩
  rintro rfl
  exact fpVal_subnormal_rational hulp s f (emax_pos hfmt)

end Sys2Proof.Machine
end

section
/-! ROUND32 (42_float R108): every choice between the two binary32 magnitudes around a value is faithful, and the
default choice takes the nearer one. -/

namespace Sys2Proof.Machine

open Sys2Proof.Claims

/-! ### The magnitudes a format holds -/

/-- The exponent and fraction bits of the greatest finite magnitude of a format (42_float R101). -/
def Format.maxBits (fmt : Format) : Nat := fmt.emax * 2 ^ fmt.mLen - 1

/-- The magnitude of exponent and fraction bits, in units of 2^-1074. -/
def Format.magnitude (fmt : Format) (b : Nat) : Nat := bitsMagnitude fmt.mLen b * 2 ^ fmt.ulpExp

theorem Format.magnitude_strictMono (fmt : Format) : StrictMono fmt.magnitude :=
  (bitsMagnitude_strictMono fmt.mLen).mul_const (by positivity)

theorem maxBound_eq_magnitude {fmt : Format} (h : fmt = single ∨ fmt = double) :
    maxBound fmt = fmt.magnitude fmt.maxBits := by
  rcases h with rfl | rfl <;> decide +kernel

theorem Format.holds_iff {fmt : Format} (h : 0 < fmt.emax) {u : Int} :
    fmt.holds u ↔ ∃ b ≤ fmt.maxBits, u.natAbs = fmt.magnitude b := by
  have hpos : 0 < fmt.emax * 2 ^ fmt.mLen := by positivity
  have hb : ∀ b, b < fmt.emax * 2 ^ fmt.mLen ↔ b ≤ fmt.maxBits := by
    intro b
    unfold Format.maxBits
    omega
  simp only [Format.holds, hb]
  rfl

theorem natAbs_le_iff_within {u B : Int} : (u.natAbs : Int) ≤ B ↔ -B ≤ u ∧ u ≤ B := by omega

/-- Every finite value of a format lies within its bound (43_validation R127). -/
theorem within_maxBound_of_holds {fmt : Format} (h : fmt = single ∨ fmt = double) {u : Int} (hu : fmt.holds u) :
    -maxBound fmt ≤ u ∧ u ≤ maxBound fmt := by
  obtain ⟨b, hb, hub⟩ := (Format.holds_iff (emax_pos h)).mp hu
  rw [← natAbs_le_iff_within, maxBound_eq_magnitude h, hub]
  exact_mod_cast fmt.magnitude_strictMono.monotone hb

theorem isSingle_iff {u : Int} : IsSingle u ↔ ∃ b ≤ single.maxBits, u.natAbs = single.magnitude b :=
  isSingle_iff_holds.trans (Format.holds_iff (by decide))

theorem isSingle_withSign (s : Bool) {b : Nat} (hb : b ≤ single.maxBits) :
    IsSingle (withSign s (single.magnitude b)) :=
  isSingle_iff.mpr ⟨b, hb, withSign_natAbs s _⟩

/-! ### The two binary32 magnitudes around a value -/

/-- The exponent and fraction bits of the greatest binary32 magnitude not above that of a value. -/
def bitsBelow (u : Int) : Nat := magnitudeBits single.mLen (u.natAbs / 2 ^ single.ulpExp)

/-- The greatest binary32 magnitude not above that of a value, in units of 2^-1074. -/
def magnitudeBelow (u : Int) : Nat := single.magnitude (bitsBelow u)

/-- The binary32 magnitude after that. -/
def magnitudeAbove (u : Int) : Nat := single.magnitude (bitsBelow u + 1)

theorem magnitudeBelow_le (u : Int) : magnitudeBelow u ≤ u.natAbs :=
  (Nat.le_div_iff_mul_le (by positivity)).mp (bitsMagnitude_magnitudeBits_le _ _)

theorem lt_magnitudeAbove (u : Int) : u.natAbs < magnitudeAbove u :=
  (Nat.div_lt_iff_lt_mul (by positivity)).mp (lt_bitsMagnitude_succ _ _)

/-- No binary32 magnitude lies between the two. -/
theorem le_magnitudeBelow_or_magnitudeAbove_le (u : Int) {z : Int} (hz : IsSingle z) :
    z.natAbs ≤ magnitudeBelow u ∨ magnitudeAbove u ≤ z.natAbs := by
  obtain ⟨b, -, hb⟩ := isSingle_iff.mp hz
  have hmono := single.magnitude_strictMono.monotone
  rw [hb]
  rcases Nat.lt_or_ge (bitsBelow u) b with h | h
  · exact .inr (hmono h)
  · exact .inl (hmono h)

/-- Everything ROUND32 can do, whatever its choice (42_float R108). -/
theorem round32With_cases (away : Int → Bool) (u : Int) :
    ((magnitudeBelow u = u.natAbs ∨ away u = false)
        ∧ round32With away u = withSign (decide (u < 0)) (magnitudeBelow u))
      ∨ (magnitudeBelow u ≠ u.natAbs ∧ away u = true
        ∧ round32With away u = withSign (decide (u < 0)) (magnitudeAbove u)) := by
  have h : round32With away u = withSign (decide (u < 0))
      (if magnitudeBelow u = u.natAbs then magnitudeBelow u
        else if away u then magnitudeAbove u else magnitudeBelow u) := rfl
  rw [h]
  by_cases hb : magnitudeBelow u = u.natAbs
  · exact .inl ⟨.inl hb, by rw [if_pos hb]⟩
  · cases ha : away u with
    | false => exact .inl ⟨.inr rfl, by simp [hb]⟩
    | true => exact .inr ⟨hb, rfl, by simp [hb]⟩

/-- The sign of a value, put on a magnitude. -/
theorem withSign_side (u : Int) (m : Nat) :
    (0 ≤ u ∧ withSign (decide (u < 0)) m = m) ∨ (u < 0 ∧ withSign (decide (u < 0)) m = -m) := by
  rcases Int.lt_or_le u 0 with h | h
  · exact .inr ⟨h, by simp [withSign, h]⟩
  · exact .inl ⟨h, by simp [withSign, h]⟩

/-- The result of ROUND32 is the greatest binary32 value not above the value, or the least not below it. -/
theorem round32With_faithful (away : Int → Bool) (u : Int) :
    (round32With away u ≤ u ∧ ∀ z, IsSingle z → z ≤ u → z ≤ round32With away u)
      ∨ (u ≤ round32With away u ∧ ∀ z, IsSingle z → u ≤ z → round32With away u ≤ z) := by
  have hbelow := magnitudeBelow_le u
  have habove := lt_magnitudeAbove u
  have hgap := fun z (hz : IsSingle z) => le_magnitudeBelow_or_magnitudeAbove_le u hz
  rcases round32With_cases away u with ⟨-, hr⟩ | ⟨hinexact, -, hr⟩ <;> rw [hr]
  · rcases withSign_side u (magnitudeBelow u) with ⟨hu, hs⟩ | ⟨hu, hs⟩ <;> rw [hs]
    · exact .inl ⟨by omega, fun z hz hzu => by have := hgap z hz; omega⟩
    · exact .inr ⟨by omega, fun z hz hzu => by have := hgap z hz; omega⟩
  · rcases withSign_side u (magnitudeAbove u) with ⟨hu, hs⟩ | ⟨hu, hs⟩ <;> rw [hs]
    · exact .inr ⟨by omega, fun z hz hzu => by have := hgap z hz; omega⟩
    · exact .inl ⟨by omega, fun z hz hzu => by have := hgap z hz; omega⟩

theorem round32With_of_isSingle (away : Int → Bool) {u : Int} (hu : IsSingle u) : round32With away u = u := by
  have hbelow := magnitudeBelow_le u
  have habove := lt_magnitudeAbove u
  have hgap := le_magnitudeBelow_or_magnitudeAbove_le u hu
  rcases round32With_cases away u with ⟨-, hr⟩ | ⟨hne, -, -⟩
  · rw [hr, show magnitudeBelow u = u.natAbs by omega, withSign_natAbs_self]
  · omega

theorem isSingle_zero : IsSingle 0 := ⟨0, by decide +kernel⟩

/-- ROUND32 does not change the side of zero, which is a binary32 value itself (42_float R108). -/
theorem round32With_side (away : Int → Bool) (u : Int) :
    (0 ≤ u → 0 ≤ round32With away u) ∧ (u ≤ 0 → round32With away u ≤ 0) := by
  rcases round32With_faithful away u with ⟨hle, hgreatest⟩ | ⟨hle, hleast⟩
  · exact ⟨hgreatest 0 isSingle_zero, hle.trans⟩
  · exact ⟨fun h => h.trans hle, hleast 0 isSingle_zero⟩

section
variable {u : Int} (h : -maxBound single ≤ u ∧ u ≤ maxBound single)
include h

theorem bitsBelow_le : bitsBelow u ≤ single.maxBits := by
  rw [← natAbs_le_iff_within, maxBound_eq_magnitude (.inl rfl), Nat.cast_le] at h
  exact single.magnitude_strictMono.le_iff_le.mp ((magnitudeBelow_le u).trans h)

/-- Between two binary32 magnitudes, the greater one is still finite. -/
theorem bitsBelow_lt (hne : magnitudeBelow u ≠ u.natAbs) : bitsBelow u < single.maxBits := by
  rw [← natAbs_le_iff_within, maxBound_eq_magnitude (.inl rfl), Nat.cast_le] at h
  exact single.magnitude_strictMono.lt_iff_lt.mp ((lt_of_le_of_ne (magnitudeBelow_le u) hne).trans_le h)

theorem isSingle_round32With (away : Int → Bool) : IsSingle (round32With away u) := by
  rcases round32With_cases away u with ⟨-, hr⟩ | ⟨hne, -, hr⟩ <;> rw [hr]
  · exact isSingle_withSign _ (bitsBelow_le h)
  · exact isSingle_withSign _ (bitsBelow_lt h hne)

end

/-! ### The default choice -/

theorem getLsbD_f32word_zero (s sgn : Bool) {b : Nat} (hb : b ≤ single.maxBits) :
    (f32word (withSign s (single.magnitude b)) sgn).getLsbD 0 = decide (b % 2 = 1) := by
  have hbits : magnitudeBits single.mLen (single.magnitude b / 2 ^ single.ulpExp) = b := by
    rw [Format.magnitude, Nat.mul_div_cancel _ (by positivity), magnitudeBits_bitsMagnitude]
  rw [BitVec.getLsbD, toNat_f32word _ (isSingle_iff_holds.mp (isSingle_withSign s hb)), Format.wordOf,
    withSign_natAbs, hbits, Nat.testBit_zero]
  congr 2
  show (_ * 2 ^ 31 + b) % 2 = b % 2
  omega

theorem nearestEven_iff (u : Int) :
    nearestEven u = true ↔ magnitudeBelow u + magnitudeAbove u < 2 * u.natAbs
      ∨ magnitudeBelow u + magnitudeAbove u = 2 * u.natAbs ∧ bitsBelow u % 2 = 1 := by
  have h : nearestEven u = (decide (magnitudeBelow u + magnitudeAbove u < 2 * u.natAbs)
      || (decide (magnitudeBelow u + magnitudeAbove u = 2 * u.natAbs) && bitsBelow u % 2 == 1)) := rfl
  simp [h]

/-- The default takes a binary32 value at the least distance, with an even word when two are equally near. -/
theorem round32With_nearestEven {u : Int} (h : -maxBound single ≤ u ∧ u ≤ maxBound single) {z : Int}
    (hz : IsSingle z) (hne : z ≠ round32With nearestEven u) :
    (round32With nearestEven u - u).natAbs ≤ (z - u).natAbs
      ∧ ((round32With nearestEven u - u).natAbs = (z - u).natAbs →
          (f32word (round32With nearestEven u) false).getLsbD 0 = false) := by
  have hbelow := magnitudeBelow_le u
  have habove := lt_magnitudeAbove u
  have hgap := le_magnitudeBelow_or_magnitudeAbove_le u hz
  rcases round32With_cases nearestEven u with ⟨hchoice, hr⟩ | ⟨hinexact, hchoice, hr⟩ <;> rw [hr] at hne ⊢
  · have hlsb : (f32word (withSign (decide (u < 0)) (magnitudeBelow u)) false).getLsbD 0 = _ :=
      getLsbD_f32word_zero _ _ (bitsBelow_le h)
    rw [hlsb, decide_eq_false_iff_not]
    have hside := withSign_side u (magnitudeBelow u)
    rcases hchoice with hexact | hdown
    · omega
    · have hnearer := mt (nearestEven_iff u).mpr (by simp [hdown])
      omega
  · have hlsb : (f32word (withSign (decide (u < 0)) (magnitudeAbove u)) false).getLsbD 0 = _ :=
      getLsbD_f32word_zero _ _ (bitsBelow_lt h hinexact)
    rw [hlsb, decide_eq_false_iff_not]
    have hside := withSign_side u (magnitudeAbove u)
    have hnearer := (nearestEven_iff u).mp hchoice
    omega

/-- A zero result is packed with the sign bit of VALUE (42_float R107, R108). -/
theorem getLsbD_pack32With_of_zero {round : Int → Int} {v : Word64} {u : Int} (hv : f64val v = .fin u)
    (h0 : round u = 0) : (pack32With round v).getLsbD 31 = f64sign v := by
  have hp : pack32With round v = f32word 0 (f64sign v) := by rw [pack32With, hv, ← h0]
  rw [hp, getLsbD_f32word_sign _ isSingle_zero, signBitOf_zero]

/-- Settles O44: ROUND32 answers one of the two binary32 magnitudes around the value, with its sign. -/
theorem singleRoundingIsFaithful : Obligations.SingleRoundingIsFaithful := by
  intro u hlo hhi
  have h : -maxBound single ≤ u ∧ u ≤ maxBound single := ⟨hlo, hhi⟩
  have hside := round32With_side Config.roundAway u
  exact ⟨isSingle_round32With h _, round32With_of_isSingle _, round32With_faithful _ u, hside.1, hside.2,
    fun v => getLsbD_pack32With_of_zero, isSingle_round32With h _, fun z => round32With_nearestEven h⟩

end Sys2Proof.Machine
end

section
/-! The float reads (42_float R109, R111 to R114): what FREAD puts on RESULT for each word, proved once for both byte
orders, and each of the four instructions as a case of the template. -/

namespace Sys2Proof.Machine

open Sys2Proof.Claims

/-! ### What a float read puts on RESULT -/

/-- The sign bit of a word of a finite value is the one its value is packed with. -/
theorem Format.signBitOf_of_valueOf {fmt : Format} (hf : fmt.fieldsFill) {w : Nat} {u : Int} (hw : w < 2 ^ (8 * fmt.n))
    (h : fmt.valueOf w = .fin u) : signBitOf u (fmt.signOf w) = fmt.signOf w := by
  obtain ⟨hu, hword⟩ := Format.wordOf_of_valueOf hf hw h
  have hsign := (Format.valueOf_wordOf hf (fmt.signOf w) hu).2.1
  rwa [hword, eq_comm] at hsign

theorem Format.signOf_of_valueOf_inf {fmt : Format} (hf : fmt.fieldsFill) {w : Nat} {neg : Bool}
    (hw : w < 2 ^ (8 * fmt.n)) (h : fmt.valueOf w = .inf neg) : fmt.signOf w = neg := by
  rw [Format.word_of_valueOf_inf hf hw h, Format.signOf_word hf neg fmt.emax_mul_lt]

section
variable {fmt : Format} {bytes : List Byte} {be : Bool} (draw : Nat)

theorem isNaN64_floatResult (h : fmt.valueOf (assemble bytes be) = .nan) :
    isNaN64 (floatResult fmt bytes be draw) = true := by
  have hd : floatResult fmt bytes be draw = nanDraw draw := by
    rw [floatResult, unpack, h]
    rfl
  exact hd ▸ isNaN64_toNaN _

theorem floatResult_of_f64word {word : Word64}
    (h : f64word (fmt.valueOf (assemble bytes be)) (fmt.signOf (assemble bytes be)) = some word) :
    floatResult fmt bytes be draw = word := by
  rw [floatResult, unpack, unpackSign, h]

end

/-- binary64 has a word of every infinity and of every finite value it holds, and the word has its value and sign
(42_float R99). -/
theorem f64word_inf (neg sgn : Bool) :
    ∃ word, f64word (.inf neg) sgn = some word ∧ f64val word = .inf neg ∧ f64sign word = neg := by
  refine ⟨_, rfl, ?_⟩
  cases neg <;> decide +kernel

theorem f64word_fin {u : Int} (sgn : Bool) (h : double.holds u) :
    ∃ word, f64word (.fin u) sgn = some word ∧ f64val word = .fin u ∧ f64sign word = signBitOf u sgn :=
  ⟨_, rfl, f64val_wordOf sgn h⟩

/-- Every binary32 word that is not a NaN has a binary64 word of its value and its sign (42_float R103, R104). -/
theorem exists_f64word_of_single {w : Nat} (hw : w < 2 ^ (8 * single.n)) (hnan : single.valueOf w ≠ .nan) :
    ∃ word, f64word (single.valueOf w) (single.signOf w) = some word
      ∧ f64val word = single.valueOf w ∧ f64sign word = single.signOf w := by
  cases hv : single.valueOf w with
  | nan => exact absurd hv hnan
  | inf neg =>
    rw [Format.signOf_of_valueOf_inf single_fieldsFill hw hv]
    exact f64word_inf neg neg
  | fin u =>
    have hu := (Format.wordOf_of_valueOf single_fieldsFill hw hv).1
    have h := f64word_fin (single.signOf w) (double_holds_of_single hu)
    rwa [Format.signBitOf_of_valueOf single_fieldsFill hw hv] at h

/-- A single read is exact and keeps the sign of a zero (42_float R103, R104). -/
theorem singleResult_floatResult {bytes : List Byte} (be : Bool) (draw : Nat) (hlen : bytes.length = 4) :
    SingleResult (assemble bytes be) (floatResult single bytes be draw) := by
  unfold SingleResult
  split
  · next h => exact isNaN64_floatResult draw h
  · next hnan =>
    have hw : assemble bytes be < 2 ^ (8 * single.n) := by simpa [hlen] using assemble_lt bytes be
    obtain ⟨word, h, hval, hsign⟩ := exists_f64word_of_single hw hnan
    rw [floatResult_of_f64word draw h]
    exact ⟨hval, hsign⟩

/-- A double read gives the word itself (42_float R113). -/
theorem doubleResult_floatResult {bytes : List Byte} (be : Bool) (draw : Nat) (hlen : bytes.length = 8) :
    DoubleResult (assemble bytes be) (floatResult double bytes be draw) := by
  obtain ⟨word, hword⟩ : ∃ word : Word64, word.toNat = assemble bytes be :=
    ⟨BitVec.ofNat 64 _, toNat_ofNat_assemble be (by rw [hlen])⟩
  unfold DoubleResult
  split
  · next h => exact isNaN64_floatResult draw h
  · next hnan =>
    rw [← hword] at hnan
    have h := f64word_f64val hnan
    rw [f64val, f64sign_eq, hword] at h
    rw [floatResult_of_f64word draw h, hword]

/-! ### The template and its instructions -/

theorem fread_of_span {fmt : Format} {s : State} (be skip : Bool) (h : spanInBuffer fmt.n s) :
    fread fmt be skip s = .next (s.completeRead (floatResult fmt (s.operandBytes fmt.n) be s.draws)) :=
  checked_of_passes _ _ (failingSet_read_eq_nil.mpr h)

/-- FREAD (42_float R109): RESULT is as `result` says of the word its bytes stand for. -/
theorem reads_stops_of_fread {i : Instr} {fmt : Format} {be skip : Bool} {word : State → Nat}
    {result : Nat → Word64 → Prop} (he : ∀ s, exec i s = fread fmt be skip s)
    (hword : ∀ s, assemble (s.operandBytes fmt.n) be = word s)
    (hresult : ∀ bytes draw, bytes.length = fmt.n → result (assemble bytes be) (floatResult fmt bytes be draw)) :
    Reads i fmt.n (fun s => result (word s)) ∧ Stops i skip (readFails fmt.n) :=
  ⟨reads_of_checked he fun s => hword s ▸ hresult _ _ (Memory.length_readBytes _ _ _),
    stops_of_checked he fun _ _ => readFails_iff⟩

theorem assemble_operandBytes_eight_le (s : State) :
    assemble (s.operandBytes 8) false
      = bufAt s 0 + 2 ^ 8 * bufAt s 1 + 2 ^ 16 * bufAt s 2 + 2 ^ 24 * bufAt s 3 + 2 ^ 32 * bufAt s 4
        + 2 ^ 40 * bufAt s 5 + 2 ^ 48 * bufAt s 6 + 2 ^ 56 * bufAt s 7 := by
  simp [assemble_operandBytes, Finset.sum_range_succ, Nat.mul_comm]

theorem assemble_operandBytes_eight_be (s : State) :
    assemble (s.operandBytes 8) true
      = 2 ^ 56 * bufAt s 0 + 2 ^ 48 * bufAt s 1 + 2 ^ 40 * bufAt s 2 + 2 ^ 32 * bufAt s 3 + 2 ^ 24 * bufAt s 4
        + 2 ^ 16 * bufAt s 5 + 2 ^ 8 * bufAt s 6 + bufAt s 7 := by
  simp [assemble_operandBytes, Finset.sum_range_succ, Nat.mul_comm]

/-- Settles O21, the case FREAD(4, 0) of the template. -/
theorem readFloatLEReturnsSingleValue : Obligations.ReadFloatLEReturnsSingleValue :=
  ⟨⟨rfl, rfl⟩, fun _ => reads_stops_of_fread (fmt := single) (fun _ => rfl) assemble_operandBytes_four_le
    fun _ => singleResult_floatResult false⟩

/-- Settles O22, the case FREAD(4, 1) of the template. -/
theorem readFloatBEReturnsSingleValue : Obligations.ReadFloatBEReturnsSingleValue :=
  ⟨⟨rfl, rfl⟩, fun _ => reads_stops_of_fread (fmt := single) (fun _ => rfl) assemble_operandBytes_four_be
    fun _ => singleResult_floatResult true⟩

/-- Settles O23, the case FREAD(8, 0) of the template. -/
theorem readDoubleLEReturnsDoubleValue : Obligations.ReadDoubleLEReturnsDoubleValue :=
  ⟨⟨rfl, rfl⟩, fun _ => reads_stops_of_fread (fmt := double) (fun _ => rfl) assemble_operandBytes_eight_le
    fun _ => doubleResult_floatResult false⟩

/-- Settles O24, the case FREAD(8, 1) of the template. -/
theorem readDoubleBEReturnsDoubleValue : Obligations.ReadDoubleBEReturnsDoubleValue :=
  ⟨⟨rfl, rfl⟩, fun _ => reads_stops_of_fread (fmt := double) (fun _ => rfl) assemble_operandBytes_eight_be
    fun _ => doubleResult_floatResult true⟩

end Sys2Proof.Machine
end

section
/-! The float writes (42_float R110, R115 to R118): which bytes FWRITE stores and when it stops, proved once for both
formats and byte orders, and each of the four instructions as a case of the template. -/

namespace Sys2Proof.Machine

open Sys2Proof.Claims

/-! ### When a float write stops -/

/-- The value lies within the bound of the format; false of NaN (43_validation R127, 00_scope R11). -/
def FP.withinBound (v : FP) (fmt : Format) : Prop :=
  (FP.fin (-maxBound fmt)).le v = true ∧ v.le (.fin (maxBound fmt)) = true

theorem frange_fails_iff {fmt : Format} {s : State} :
    (Check.frange fmt).fails s = true
      ↔ s.inputs.valueValid = true ∧ ¬ (f64val s.inputs.value).withinBound fmt := by
  simp [Check.fails, FP.within, FP.withinBound, imp_iff_not_or]

/-- A binary64 value is outside DBL_MAX_BOUND exactly when it is not finite (42_float R117). -/
theorem not_withinBound_double_iff (v : Word64) :
    ¬ (f64val v).withinBound double ↔ f64val v = .nan ∨ f64val v = .inf false ∨ f64val v = .inf true := by
  cases hv : f64val v with
  | nan => simp [FP.withinBound, FP.le]
  | inf neg => cases neg <;> simp [FP.withinBound, FP.le]
  | fin u =>
    obtain ⟨hlo, hhi⟩ := within_maxBound_of_holds (.inr rfl) (double_holds_of_f64val hv).1
    simp [FP.withinBound, FP.le, hlo, hhi]

section
variable {fmt : Format} {outOfRange : FP → Prop}
  (hout : ∀ v : Word64, ¬ (f64val v).withinBound fmt ↔ outOfRange (f64val v))
include hout

theorem floatWriteFails_iff {s : State} {c : BitVec 3} :
    floatWriteFails fmt.n outOfRange s c ↔ ∃ d ∈ failingSet (floatWriteChecks fmt) s, d.code = c := by
  simp only [mem_failingSet_floatWrite, frange_fails_iff, hout, floatWriteFails, readFails]
  constructor
  · rintro ((⟨rfl, h⟩ | ⟨rfl, h⟩) | ⟨rfl, h⟩ | ⟨rfl, h⟩)
    · exact ⟨_, .inr (.inr (.inl ⟨rfl, h⟩)), rfl⟩
    · exact ⟨_, .inr (.inr (.inr ⟨rfl, h⟩)), rfl⟩
    · exact ⟨_, .inl ⟨rfl, h⟩, rfl⟩
    · exact ⟨_, .inr (.inl ⟨rfl, h⟩), rfl⟩
  · rintro ⟨d, ⟨rfl, h⟩ | ⟨rfl, h⟩ | ⟨rfl, h⟩ | ⟨rfl, h⟩, rfl⟩
    · exact .inr (.inl ⟨rfl, h⟩)
    · exact .inr (.inr ⟨rfl, h⟩)
    · exact .inl (.inl ⟨rfl, h⟩)
    · exact .inl (.inr ⟨rfl, h⟩)

end

/-! ### The bytes a float write stores -/

theorem fwrite_of_within {fmt : Format} {s : State} {u : Int} (be skip : Bool) (hs : spanInBuffer fmt.n s)
    (hv : s.inputs.valueValid = true) (hu : f64val s.inputs.value = .fin u)
    (hb : -maxBound fmt ≤ u ∧ u ≤ maxBound fmt) :
    fwrite fmt be skip s = .next (s.completeWrite (pack fmt s.inputs.value be)) :=
  checked_of_passes _ _ (failingSet_floatWrite_eq_nil.mpr ⟨hs, hv, u, hu, hb⟩)

theorem pack32With_of_fin {v : Word64} {u : Int} (round : Int → Int) (h : f64val v = .fin u) :
    pack32With round v = f32word (round u) (f64sign v) := by
  rw [pack32With, h]

theorem pack_single {v : Word64} {u : Int} (be : Bool) (h : f64val v = .fin u) :
    pack single v be = disassemble (f32word (round32 u) (f64sign v)).toNat single.n be := by
  rw [← pack32With_of_fin round32 h]
  rfl

theorem pack_double (v : Word64) (be : Bool) : pack double v be = disassemble v.toNat double.n be := rfl

/-- Byte j of a word, least significant first, is its bits from 8j on. -/
theorem toNat_extractLsb'_byte {n : Nat} (w : BitVec n) (j : Nat) :
    (w.extractLsb' (8 * j) 8).toNat = byteLE w.toNat j := by
  rw [byteLE_natCast, BitVec.extractLsb'_toNat, Nat.shiftRight_eq_div_pow, pow_mul]
  rfl

/-- FWRITE (42_float R110): the packed word's bits from `low k` on go to o + k. -/
theorem writes_stops_of_fwrite {i : Instr} {fmt : Format} {be skip : Bool} {n : Nat}
    {word : Word64 → Int → BitVec n} {low : Nat → Nat} {outOfRange : FP → Prop} (he : ∀ s, exec i s = fwrite fmt be skip s)
    (hpack : ∀ v u, f64val v = .fin u → pack fmt v be = disassemble (word v u).toNat fmt.n be)
    (hlow : ∀ k, low k = 8 * (if be then fmt.n - 1 - k else k))
    (hout : ∀ v : Word64, ¬ (f64val v).withinBound fmt ↔ outOfRange (f64val v)) :
    WritesFloat i fmt.n (maxBound fmt) (fun v u k => ((word v u).extractLsb' (low k) 8).toNat)
      ∧ Stops i skip (floatWriteFails fmt.n outOfRange) := by
  refine ⟨fun s u hwf hs hv hu hlo hhi => ?_, stops_of_checked he fun _ _ => floatWriteFails_iff hout⟩
  refine ⟨_, (he s).trans (fwrite_of_within be skip hs hv hu ⟨hlo, hhi⟩), ?_⟩
  simp only [hlow, toNat_extractLsb'_byte, hpack _ _ hu]
  exact writeDone_disassemble _ fmt.n be hwf

/-- 2^-150 is halfway between +0 and 2^-149, which a permitted ROUND32 may take as it likes (42_float R115). -/
theorem pack32With_of_half_least_single (away : Int → Bool) :
    pack32With (round32With away) 0x3690000000000000 = 0 ∨ pack32With (round32With away) 0x3690000000000000 = 1 := by
  rw [pack32With_of_fin (u := 2 ^ 924) _ (by decide +kernel)]
  rcases round32With_cases away (2 ^ 924) with ⟨-, hr⟩ | ⟨-, -, hr⟩ <;> rw [hr]
  · exact .inl (by decide +kernel)
  · exact .inr (by decide +kernel)

/-- Settles O25, the case FWRITE(4, 0) of the template; the rule's examples are computed. -/
theorem writeFloatLEStoresRoundedSingle : Obligations.WriteFloatLEStoresRoundedSingle :=
  ⟨by decide +kernel, by decide +kernel, by decide +kernel, by decide +kernel, pack32With_of_half_least_single,
    ⟨rfl, rfl⟩, fun _ => writes_stops_of_fwrite (fmt := single) (fun _ => rfl) (fun _ _ => pack_single false)
      (fun _ => rfl) fun _ => Iff.rfl⟩

/-- Settles O26, the case FWRITE(4, 1) of the template. -/
theorem writeFloatBEStoresRoundedSingle : Obligations.WriteFloatBEStoresRoundedSingle :=
  ⟨by decide +kernel, ⟨rfl, rfl⟩, fun _ => writes_stops_of_fwrite (fmt := single) (fun _ => rfl)
    (fun _ _ => pack_single true) (fun k => (Nat.mul_sub 8 3 k).symm) fun _ => Iff.rfl⟩

/-- Settles O27, the case FWRITE(8, 0) of the template. -/
theorem writeDoubleLEStoresValueWord : Obligations.WriteDoubleLEStoresValueWord :=
  ⟨⟨rfl, rfl⟩, fun _ => writes_stops_of_fwrite (fmt := double) (fun _ => rfl) (fun v _ _ => pack_double v false)
    (fun _ => rfl) not_withinBound_double_iff⟩

/-- Settles O28, the case FWRITE(8, 1) of the template. -/
theorem writeDoubleBEStoresValueWord : Obligations.WriteDoubleBEStoresValueWord :=
  ⟨by decide +kernel, ⟨rfl, rfl⟩, fun _ => writes_stops_of_fwrite (fmt := double) (fun _ => rfl)
    (fun v _ _ => pack_double v true) (fun k => (Nat.mul_sub 8 7 k).symm) not_withinBound_double_iff⟩

end Sys2Proof.Machine
end

section
/-! A float write followed by the float read of its span in the same order (42_float R119, R120). -/

namespace Sys2Proof.Machine

open Sys2Proof.Claims

theorem exec_of_singlePair {wr rd : Bool → Instr} (h : SinglePair wr rd) :
    ∃ be, (∀ k s, exec (wr k) s = fwrite single be k s) ∧ ∀ k s, exec (rd k) s = fread single be k s := by
  cases h with
  | le => exact ⟨false, fun _ _ => rfl, fun _ _ => rfl⟩
  | be => exact ⟨true, fun _ _ => rfl, fun _ _ => rfl⟩

theorem exec_of_doublePair {wr rd : Bool → Instr} (h : DoublePair wr rd) :
    ∃ be, (∀ k s, exec (wr k) s = fwrite double be k s) ∧ ∀ k s, exec (rd k) s = fread double be k s := by
  cases h with
  | le => exact ⟨false, fun _ _ => rfl, fun _ _ => rfl⟩
  | be => exact ⟨true, fun _ _ => rfl, fun _ _ => rfl⟩

/-- The read of a span that holds the bytes of the word `w` completes, with RESULT as that of a read of `w`. -/
theorem fread_completeWrite {fmt : Format} {s : State} {w : Nat} {result : Nat → Word64 → Prop} (be skip : Bool)
    (hwf : s.buf.wf) (hs : spanInBuffer fmt.n s) (hw : w < 2 ^ (8 * fmt.n))
    (hresult : ∀ bytes draw, bytes.length = fmt.n → result (assemble bytes be) (floatResult fmt bytes be draw)) :
    ∃ r, fread fmt be skip (s.completeWrite (disassemble w fmt.n be))
        = .next ((s.completeWrite (disassemble w fmt.n be)).completeRead r) ∧ result w r := by
  have hbytes : (s.completeWrite (disassemble w fmt.n be)).operandBytes fmt.n = disassemble w fmt.n be := by
    simpa using operandBytes_completeWrite (disassemble w fmt.n be) hwf
  have hr := hresult (disassemble w fmt.n be) (s.completeWrite (disassemble w fmt.n be)).draws
    (length_disassemble _ _ _)
  rw [assemble_disassemble be hw] at hr
  refine ⟨_, ?_, hr⟩
  rw [fread_of_span be skip (show spanInBuffer fmt.n (s.completeWrite _) from hs), hbytes]

/-- A value on the same side of zero is packed with the same sign bit. -/
theorem signBitOf_of_side {u r : Int} {sgn : Bool} (h : signBitOf u sgn = sgn)
    (hside : (0 ≤ u → 0 ≤ r) ∧ (u ≤ 0 → r ≤ 0)) : signBitOf r sgn = sgn := by
  unfold signBitOf at h ⊢
  split_ifs at h ⊢
  · rfl
  · rfl
  · omega
  · rw [← h, decide_eq_decide]
    omega

section
variable {s : State} {x : Int} (be k k' : Bool) (hwf : s.buf.wf) (hv : s.inputs.valueValid = true)
  (hx : f64val s.inputs.value = .fin x)
include hwf hv hx

theorem double_write_then_read (hs : spanInBuffer 8 s) :
    ∃ t, fwrite double be k s = .next t ∧ fread double be k' t = .next (t.completeRead s.inputs.value) := by
  have hwithin := within_maxBound_of_holds (.inr rfl) (double_holds_of_f64val hx).1
  obtain ⟨r, hread, hr⟩ := fread_completeWrite (fmt := double) be k' hwf hs s.inputs.value.isLt
    fun _ => doubleResult_floatResult be
  have hfinite : double.valueOf s.inputs.value.toNat ≠ .nan := by
    rw [← f64val, hx]
    simp
  rw [DoubleResult, if_neg hfinite] at hr
  obtain rfl : r = s.inputs.value := BitVec.eq_of_toNat_eq hr
  exact ⟨_, fwrite_of_within be k hs hv hx hwithin, hread⟩

theorem single_write_then_read (hs : spanInBuffer 4 s) (hb : -maxBound single ≤ x ∧ x ≤ maxBound single) :
    ∃ t r, fwrite single be k s = .next t ∧ fread single be k' t = .next (t.completeRead r)
      ∧ f64val r = .fin (round32 x) ∧ f64sign r = f64sign s.inputs.value := by
  have hround : IsSingle (round32 x) := isSingle_round32With hb _
  obtain ⟨r, hread, hr⟩ := fread_completeWrite (fmt := single) be k' hwf hs
    (f32word (round32 x) (f64sign s.inputs.value)).isLt fun _ => singleResult_floatResult be
  rw [SingleResult, valueOf_f32word _ hround, if_neg (by simp)] at hr
  refine ⟨_, r, fwrite_of_within be k hs hv hx hb, pack_single be hx ▸ hread, hr.1, ?_⟩
  have hsign := Format.signBitOf_of_valueOf double_fieldsFill s.inputs.value.isLt hx
  calc f64sign r
    _ = (f32word (round32 x) (f64sign s.inputs.value)).getLsbD 31 := hr.2
    _ = signBitOf (round32 x) (f64sign s.inputs.value) := getLsbD_f32word_sign _ hround
    _ = f64sign s.inputs.value := signBitOf_of_side hsign (round32With_side _ x)

end

/-- Settles O48: the read assembles the word that was packed, and unpacks it exactly with its sign. -/
theorem floatWriteThenReadReturnsTheValue : Obligations.FloatWriteThenReadReturnsTheValue := by
  refine ⟨fun wr rd hp k k' s x hwf hs hv hx => ?_, fun wr rd hp k k' s x hwf hs hv hx hlo hhi => ?_⟩
  · obtain ⟨be, hwr, hrd⟩ := exec_of_doublePair hp
    obtain ⟨t, hwrite, hread⟩ := double_write_then_read be k k' hwf hv hx hs
    exact ⟨t, _, (hwr k s).trans hwrite, (hrd k' t).trans hread, rfl, rfl, rfl⟩
  · obtain ⟨be, hwr, hrd⟩ := exec_of_singlePair hp
    obtain ⟨t, r, hwrite, hread, hval, hsign⟩ := single_write_then_read be k k' hwf hv hx hs ⟨hlo, hhi⟩
    refine ⟨t, _, (hwr k s).trans hwrite, (hrd k' t).trans hread, rfl, rfl, hval, hsign,
      ⟨fun h => ?_, fun h => ?_⟩, round32With_faithful _ x⟩
    · have hsame : r = s.inputs.value := h
      rw [hsame, hx] at hval
      exact FP.fin.inj hval ▸ isSingle_round32With ⟨hlo, hhi⟩ _
    · have hexact : round32 x = x := round32With_of_isSingle _ h
      have hword := f64word_f64val (w := r) (by simp [hval])
      rw [hval, hexact, ← hx, hsign, f64word_f64val (by simp [hx])] at hword
      exact (Option.some.inj hword).symm

/-- A float write that answers STATUS = OK passed its checks, so its value is finite (42_float R120). -/
theorem fwrite_completes_of_ok {fmt : Format} {be skip : Bool} {s t : State} (h : fwrite fmt be skip s = .next t)
    (hok : t.status = 0b01) :
    spanInBuffer fmt.n s ∧ s.inputs.valueValid = true
      ∧ ∃ u, f64val s.inputs.value = .fin u ∧ -maxBound fmt ≤ u ∧ u ≤ maxBound fmt := by
  rw [← failingSet_floatWrite_eq_nil]
  rcases checked_cases (floatWriteChecks fmt) skip _ s with ⟨hp, -⟩ | ⟨-, -, he⟩ | ⟨-, -, c, -, he⟩
  · exact hp
  · cases he.symm.trans h
  · cases he.symm.trans h
    cases hok

/-- Settles O49: a write that completes passed its checks, so the read gives back its value or ROUND32 of it. -/
theorem completedFloatWritesStoreFiniteValues : Obligations.CompletedFloatWritesStoreFiniteValues := by
  rintro wr rd (hp | hp) k s t hwf ht hok
  · obtain ⟨be, hwr, hrd⟩ := exec_of_singlePair hp
    rw [hwr] at ht
    obtain ⟨hs, hv, x, hx, hb⟩ := fwrite_completes_of_ok ht hok
    obtain ⟨t', r, hwrite, hread, hval, -⟩ := single_write_then_read be k false hwf hv hx hs hb
    cases hwrite.symm.trans ht
    exact ⟨_, _, (hrd false t).trans hread, rfl, hval⟩
  · obtain ⟨be, hwr, hrd⟩ := exec_of_doublePair hp
    rw [hwr] at ht
    obtain ⟨hs, hv, x, hx, -⟩ := fwrite_completes_of_ok ht hok
    obtain ⟨t', hwrite, hread⟩ := double_write_then_read be k false hwf hv hx hs
    cases hwrite.symm.trans ht
    exact ⟨_, _, (hrd false t).trans hread, rfl, hx⟩

end Sys2Proof.Machine
end

section
/-! What every instruction and every transaction leaves as it was (10_state R24, R27, 43_validation R132, 20_memory
R36, R45). -/

namespace Sys2Proof.Machine

open Sys2Proof.Claims

theorem kept_of_exec {i : Instr} {s t : State} (h : exec i s = .next t) : Kept s t := by
  rcases exec_cases i s with ⟨-, w, he⟩ | ⟨-, bs, -, -, he⟩ | ⟨-, c, -, he⟩ | ⟨-, he⟩ <;>
    cases he.symm.trans h
  · exact ⟨rfl, rfl, rfl, rfl⟩
  · exact ⟨rfl, rfl, rfl, rfl⟩
  · exact ⟨rfl, rfl, rfl, rfl⟩

theorem kept_of_transaction {s t : State} (h : transaction s = .next t) : Kept s t := by
  cases hd : decode s.inputs.cmd with
  | instr i => exact kept_of_exec (transaction_of_instr hd ▸ h)
  | illegal why =>
    cases (transaction_of_illegal hd).symm.trans h
    exact ⟨rfl, rfl, rfl, rfl⟩

theorem kept_trans {s t u : State} (h : Kept s t) (h' : Kept t u) : Kept s u := by
  obtain ⟨hinputs, hlen, hevents, hrecorded⟩ := h
  obtain ⟨hinputs', hlen', hevents', hrecorded'⟩ := h'
  exact ⟨hinputs'.trans hinputs, hlen'.trans hlen, hevents'.trans hevents, hrecorded'.trans hrecorded⟩

/-- BUF changes only by a write that completes, and then by bytes that fill the span (43_validation R132). -/
theorem exec_buf_cases {i : Instr} {s t : State} (h : exec i s = .next t) :
    t.buf = s.buf
      ∨ (i.fields.dir = .write ∧ t.status = 0b01 ∧ ∃ bs : List Byte, bs.length = fieldWidth i.fields.wsel
          ∧ t.buf = s.buf.writeBytes s.inputs.offset bs) := by
  rcases exec_cases i s with ⟨-, w, he⟩ | ⟨hd, bs, hlen, -, he⟩ | ⟨-, c, -, he⟩ | ⟨-, he⟩ <;>
    cases he.symm.trans h
  · exact .inl rfl
  · exact .inr ⟨hd, rfl, bs, hlen, rfl⟩
  · exact .inl rfl

/-- Settles O51: what BUF holds after the instruction is what it held, or that with the span overwritten by a
completed write. -/
theorem noInstructionWritesOutsideItsSpan : Obligations.NoInstructionWritesOutsideItsSpan := by
  intro i s t h
  refine ⟨kept_of_exec h, ?_⟩
  rcases exec_buf_cases h with hbuf | ⟨hd, hok, bs, hlen, hbuf⟩
  · exact ⟨fun _ a => by rw [hbuf], fun a _ => by rw [hbuf]⟩
  · refine ⟨fun hor => ?_, fun a ha => ?_⟩
    · rcases hor with hread | hne
      · cases hread.symm.trans hd
      · exact absurd hok hne
    · rw [hbuf]
      exact Memory.read_writeBytes_outside bs (hlen ▸ ha)

end Sys2Proof.Machine
end

section
/-! The failing set decides (43_validation R129 to R131): every instruction makes the checks of the table of R129, and
what it performs when they pass is the same in skip mode as in enforce mode. -/

namespace Sys2Proof.Machine

open Sys2Proof.Claims

/-- The outputs of a completed instruction, and its frame outside BUF (43_validation R130, 30_encoding R63). -/
structure Completed (i : Instr) (s t : State) : Prop where
  status      : t.status = 0b01
  cause       : t.cause = 0
  resultValid : t.resultValid = decide (i.fields.dir = .read)
  kept        : Kept s t

theorem completed_completeRead {i : Instr} (hd : i.fields.dir = .read) (s : State) (w : Word64) :
    Completed i s (s.completeRead w) :=
  ⟨rfl, rfl, by simp [hd], rfl, rfl, rfl, rfl⟩

theorem completed_completeWrite {i : Instr} (hd : i.fields.dir = .write) (s : State) (bs : List Byte) :
    Completed i s (s.completeWrite bs) :=
  ⟨rfl, rfl, by simp [hd], rfl, rfl, rfl, rfl⟩

/-- An instruction in its own mode and in the mode `k` makes the checks of the table of 43_validation R129 and
performs the same. -/
theorem exec_eq_checked_checksOf {i j : Instr} {k : Bool} (h : j.fields = { i.fields with skip := k }) :
    ∃ perform : State → State, (∀ s, Completed i s (perform s))
      ∧ (∀ s, exec i s = checked (checksOf i) i.fields.skip perform s)
      ∧ ∀ s, exec j s = checked (checksOf i) k perform s := by
  have hj : Fields.decode { i.fields with skip := k } = .instr j := Fields.decode_eq_instr_iff.mpr h.symm
  cases i
  case readUInt8 | readUInt16LE | readUInt16BE | readUInt32LE | readUInt32BE | readInt8 | readInt16LE | readInt16BE
      | readInt32LE | readInt32BE | readFloatLE | readFloatBE | readDoubleLE | readDoubleBE =>
    cases hj
    exact ⟨_, fun s => completed_completeRead rfl s _, fun _ => rfl, fun _ => rfl⟩
  case writeUInt8 | writeUInt16LE | writeUInt16BE | writeUInt32LE | writeUInt32BE | writeInt8 | writeInt16LE
      | writeInt16BE | writeInt32LE | writeInt32BE | writeFloatLE | writeFloatBE | writeDoubleLE | writeDoubleBE =>
    cases hj
    exact ⟨_, fun s => completed_completeWrite rfl s _, fun _ => rfl, fun _ => rfl⟩

theorem inFailingSet_iff {i : Instr} {s : State} {code : BitVec 3} :
    InFailingSet i s code ↔ ∃ c ∈ failingSet (checksOf i) s, c.code = code := by
  simp only [mem_failingSet, InFailingSet]
  constructor
  · rintro ⟨k, hk, hf, hcode⟩
    exact ⟨k.cause, ⟨k, hk, hf, rfl⟩, hcode⟩
  · rintro ⟨c, ⟨k, hk, hf, rfl⟩, hcode⟩
    exact ⟨k, hk, hf, hcode⟩

theorem failingSet_checksOf_eq_nil {i : Instr} {s : State} (h : ¬ ∃ code, InFailingSet i s code) :
    failingSet (checksOf i) s = [] :=
  eq_nil_of_no_mem fun c hc => h ⟨c.code, inFailingSet_iff.mpr ⟨c, hc, rfl⟩⟩

/-- Setting CMD[1] changes the field SKIP alone (30_encoding R53). -/
theorem fields_ofWord_or_two (w : Command) : Fields.ofWord (w ||| 2) = { Fields.ofWord w with skip := true } := by
  simp [Fields.ofWord]

theorem fields_of_decode {w : Command} {i : Instr} (h : decode w = .instr i) : i.fields = Fields.ofWord w :=
  (Fields.decode_eq_instr_iff.mp h).symm

/-- Settles O50: an instruction is `checked` against its row of the table of R129, so an empty failing set performs
it, and any other stops it by its mode. -/
theorem failingSetDecidesTheOutcome : Obligations.FailingSetDecidesTheOutcome := by
  refine ⟨fun i s => ?_, fun w i j s hi hj hpass => ?_⟩
  · obtain ⟨perform, hdone, he, -⟩ := exec_eq_checked_checksOf (i := i) (k := i.fields.skip) rfl
    have hstop : Stops i i.fields.skip (InFailingSet i) := stops_of_checked he fun _ _ => inFailingSet_iff
    refine ⟨fun hpass => ?_, fun hfail hskip => by simpa [hskip] using hstop s hfail,
      fun hfail hskip => by simpa [hskip] using hstop s hfail⟩
    have hnext := checked_of_passes i.fields.skip perform (failingSet_checksOf_eq_nil hpass)
    obtain ⟨hstatus, hcause, hvalid, hkept⟩ := hdone s
    exact ⟨_, (he s).trans hnext, hstatus, hcause, hvalid, hkept⟩
  · have hfields : j.fields = { i.fields with skip := true } := by
      rw [fields_of_decode hj, fields_of_decode hi, fields_ofWord_or_two]
    obtain ⟨perform, -, hi, hj⟩ := exec_eq_checked_checksOf hfields
    have hnil := failingSet_checksOf_eq_nil hpass
    rw [hi, hj, checked_of_passes _ _ hnil, checked_of_passes _ _ hnil]

end Sys2Proof.Machine
end

section
/-! Runs in enforce mode (43_validation R130, 60_exceptions R133, R137, 70_reset R162): each event of such a run is
answered by a next state, and the coming events stay those of such a run. -/

namespace Sys2Proof.Machine

open Sys2Proof.Claims

/-- In enforce mode every outcome of an instruction is a next state (43_validation R130). -/
theorem exec_of_enforce {i : Instr} (s : State) (h : i.fields.skip = false) : ∃ t, exec i s = .next t := by
  rcases exec_cases i s with ⟨-, w, he⟩ | ⟨-, bs, -, -, he⟩ | ⟨-, c, -, he⟩ | ⟨hskip, -⟩
  · exact ⟨_, he⟩
  · exact ⟨_, he⟩
  · exact ⟨_, he⟩
  · cases h.symm.trans hskip

/-- A legal word of a run in enforce mode is an instruction with SKIP = 0 (30_encoding R53). -/
theorem skip_of_enforcedWord {w : Command} {i : Instr} (hd : decode w = .instr i) (h : EnforcedWord w) :
    i.fields.skip = false := by
  rcases h with h | h
  · rw [fields_of_decode hd]
    exact h
  · obtain ⟨why, hw⟩ := decode_eq_illegal_iff.mpr h
    cases hd.symm.trans hw

theorem transaction_of_enforcedWord {s : State} (h : EnforcedWord s.inputs.cmd) :
    ∃ t, transaction s = .next t ∧ Kept s t := by
  have hnext : ∃ t, transaction s = .next t := by
    cases hd : decode s.inputs.cmd with
    | instr i =>
      rw [transaction_of_instr hd]
      exact exec_of_enforce s (skip_of_enforcedWord hd h)
    | illegal why => exact ⟨_, transaction_of_illegal hd⟩
  obtain ⟨t, ht⟩ := hnext
  exact ⟨t, ht, kept_of_transaction ht⟩

theorem outsideWrite_of_within {s : State} {lo : Nat} {bs : List Byte} (h : lo + bs.length ≤ s.bufLen) :
    ∃ t, s.outsideWrite lo bs = .next t ∧ Kept s t :=
  ⟨_, if_pos h, rfl, rfl, rfl, rfl⟩

/-- The access is performed after the transaction, which leaves BUF_LEN as it was (20_memory R48). -/
theorem transactionBeside_of_enforcedWord {s : State} {who : Agent} {access : Access}
    (hw : EnforcedWord s.inputs.cmd) (hin : WritesWithin s.bufLen access) (hr : ¬ Races s who access) :
    ∃ t, transactionBeside s who access = .next t ∧ Kept s t := by
  obtain ⟨t, ht, hkept⟩ := transaction_of_enforcedWord hw
  cases access with
  | read lo len => exact ⟨t, (transactionBeside_read lo len hr).trans ht, hkept⟩
  | write lo bs =>
    have hlen : t.bufLen = s.bufLen := (transaction_keeps_bufLen_wf ht).1
    obtain ⟨u, hu, hkept'⟩ := outsideWrite_of_within (hlen ▸ hin : lo + bs.length ≤ t.bufLen)
    exact ⟨u, (transactionBeside_write lo bs hr ht).trans hu, kept_trans hkept hkept'⟩

/-- Each event of a run in enforce mode is answered by a next state (70_reset R162). -/
theorem handleEvent_of_enforcedEvent {e : HostEvent} {s : State} (h : EnforcedEvent s.bufLen e) :
    ∃ t, handleEvent e s = .next t ∧ t.bufLen = lengthAfter s.bufLen e ∧ t.events = s.events
      ∧ t.recorded = s.recorded := by
  cases e with
  | issue p =>
    obtain ⟨t, ht, -, hkept⟩ := transaction_of_enforcedWord (s := s.drive p) h
    exact ⟨t, ht, hkept⟩
  | attach bs => exact ⟨_, rfl, rfl, rfl, rfl⟩
  | hostWrite a v =>
    obtain ⟨t, ht, -, hkept⟩ := outsideWrite_of_within (s := s) (lo := a) (bs := [v]) h
    exact ⟨t, ht, hkept⟩
  | readPort port =>
    rcases hostReads_cases s port with ⟨hport, -⟩ | ⟨-, hnext⟩
    · exact absurd hport h
    · exact ⟨s, hnext, rfl, rfl, rfl⟩
  | reset => exact ⟨_, rfl, rfl, rfl, rfl⟩
  | issueBeside p who access =>
    obtain ⟨hw, hin, hr⟩ := h
    obtain ⟨t, ht, -, hkept⟩ := transactionBeside_of_enforcedWord (s := s.drive p) hw hin (hr _ rfl rfl)
    exact ⟨t, ht, hkept⟩
  | resetDuring p => exact h.elim
  | inputsChangedDuring p => exact h.elim

/-- Settles O60, by the event that the step takes: the coming events were those of a run in enforce mode on the buffer
that this event leaves. -/
theorem everyStepKeepsEnforcedRunsGoing : Obligations.EveryStepKeepsEnforcedRunsGoing := by
  intro s h
  cases he : s.events with
  | nil => exact ⟨s, step_of_no_event he, h, rfl⟩
  | cons e rest =>
    rw [he] at h
    obtain ⟨hevent, hrest⟩ := h
    obtain ⟨t, ht, hlen, hevents, hrecorded⟩ := handleEvent_of_enforcedEvent (s := { s with events := rest }) hevent
    refine ⟨t, (step_of_event he).trans ht, ?_, hrecorded⟩
    rw [hlen, hevents]
    exact hrest

theorem run_succ_of_step {s t : State} (h : step s = .next t) (k : Nat) :
    Sys2Proof.core.run (k + 1) s = Sys2Proof.core.run k t := by
  have hcore : Sys2Proof.core.step s = .next t := h
  simp only [Host.Core.run, hcore]

/-- What holds of a state, and lets every step go on and holds again after it, holds at the end of every run
(70_reset R163). -/
theorem run_of_step_invariant {Inv : State → Prop} (hstep : ∀ s, Inv s → ∃ t, step s = .next t ∧ Inv t) (k : Nat)
    (s : State) (h : Inv s) : ∃ t, Sys2Proof.core.run k s = .next t ∧ Inv t := by
  induction k generalizing s with
  | zero => exact ⟨s, rfl, h⟩
  | succ k ih =>
    obtain ⟨t, ht, hinv⟩ := hstep s h
    obtain ⟨u, hu, hinv'⟩ := ih t hinv
    exact ⟨u, (run_succ_of_step ht k).trans hu, hinv'⟩

/-- Nothing is recorded, and the coming events are those of a run in enforce mode on the buffer. -/
def EnforcedRun (s : State) : Prop := s.recorded = none ∧ EnforcedEvents s.bufLen s.events

theorem step_of_enforcedRun (s : State) (h : EnforcedRun s) : ∃ t, step s = .next t ∧ EnforcedRun t := by
  obtain ⟨hnone, hevents⟩ := h
  obtain ⟨t, ht, hevents', hrecorded⟩ := everyStepKeepsEnforcedRunsGoing s hevents
  exact ⟨t, ht, hrecorded.trans hnone, hevents'⟩

/-- Settles O59, by induction on the number of steps with the invariant of O60. -/
theorem enforcedRunsNeverStop : Obligations.EnforcedRunsNeverStop := by
  intro s hnone hevents k
  obtain ⟨t, ht, hnone', -⟩ := run_of_step_invariant step_of_enforcedRun k s ⟨hnone, hevents⟩
  exact ⟨t, ht, hnone'⟩

end Sys2Proof.Machine
end

section
/-! How a transaction ends (60_exceptions R133). -/

namespace Sys2Proof.Machine

open Sys2Proof.Claims

/-- A legal command completes or raises InvariantViolation, except that in skip mode it can be UNSPECIFIED
(43_validation R130, R131). -/
theorem exec_ends (i : Instr) (s : State) :
    (∃ t, exec i s = .next t ∧ (t.status = 0b01 ∨ t.status = 0b10))
      ∨ (exec i s = .fault (.unspecified .skippedCheckFails) ∧ i.fields.skip = true) := by
  rcases exec_cases i s with ⟨-, w, he⟩ | ⟨-, bs, -, -, he⟩ | ⟨-, c, -, he⟩ | ⟨hskip, he⟩
  · exact .inl ⟨_, he, .inl (State.completeRead_status s w)⟩
  · exact .inl ⟨_, he, .inl (State.completeWrite_status s bs)⟩
  · exact .inl ⟨_, he, .inr (State.raiseInvariantViolation_status s c)⟩
  · exact .inr ⟨he, hskip⟩

theorem not_reservedWord_of_decode {w : Command} {i : Instr} (h : decode w = .instr i) : ¬ ReservedWord w := by
  intro hreserved
  obtain ⟨why, hillegal⟩ := decode_eq_illegal_iff.mpr hreserved
  cases h.symm.trans hillegal

/-- Settles O52, by what CMD decodes to: a legal command ends as its instruction does, a reserved word raises
IllegalCommand. -/
theorem everyTransactionHasOneOfFourOutcomes : Obligations.EveryTransactionHasOneOfFourOutcomes := by
  intro s
  cases hd : decode s.inputs.cmd with
  | instr i =>
    rw [transaction_of_instr hd]
    rcases exec_ends i s with ⟨t, ht, hok | hviolation⟩ | ⟨hfault, hskip⟩
    · exact .inl ⟨t, ht, .inl hok⟩
    · exact .inl ⟨t, ht, .inr (.inl hviolation)⟩
    · rw [fields_of_decode hd] at hskip
      exact .inr ⟨hfault, hskip, not_reservedWord_of_decode hd⟩
  | illegal why =>
    exact .inl ⟨_, transaction_of_illegal hd, .inr (.inr (State.raiseIllegalCommand_status s))⟩

end Sys2Proof.Machine
end

section
/-! Resets, waiting, disturbed transactions and reads of the output ports (10_state R30, R32, 70_reset R151 to R153,
R157, R158), and what the record of an UNSPECIFIED outcome can become in a step (60_exceptions R137). -/

namespace Sys2Proof.Machine

open Sys2Proof.Claims

theorem readResult_of_not_resultValid {s : State} (h : s.resultValid = false) : s.readResult = none := by
  simp [State.readResult, h]

theorem step_of_reset {s : State} {rest : List HostEvent} (h : s.events = .reset :: rest) :
    step s = .next { s with events := rest }.resetOutputs := step_of_event h

theorem step_of_resetDuring {s : State} {p : Inputs} {rest : List HostEvent} (h : s.events = .resetDuring p :: rest) :
    step s = .next ({ s with events := rest }.drive p).abandon := step_of_event h

theorem step_of_inputsChangedDuring {s : State} {p : Inputs} {rest : List HostEvent}
    (h : s.events = .inputsChangedDuring p :: rest) : step s = .fault (.unspecified .inputsChanged) :=
  step_of_event h

theorem step_of_readPort {s : State} {port : OutPort} {rest : List HostEvent}
    (h : s.events = .readPort port :: rest) : step s = { s with events := rest }.hostReads port := step_of_event h

theorem kept_of_outsideWrite {s t : State} {lo : Nat} {bs : List Byte} (h : s.outsideWrite lo bs = .next t) :
    Kept s t := by
  rcases outsideWrite_cases s lo bs with ⟨-, hw⟩ | ⟨-, hw⟩ <;> cases hw.symm.trans h
  exact ⟨rfl, rfl, rfl, rfl⟩

/-- A transaction beside an access goes on only where the transaction does, with the access after it (20_memory R48). -/
theorem transactionBeside_eq_next {s t : State} {who : Agent} {access : Access}
    (h : transactionBeside s who access = .next t) :
    ∃ u, transaction s = .next u ∧ (t = u ∨ ∃ lo bs, u.outsideWrite lo bs = .next t) := by
  rcases transactionBeside_cases s who access with ⟨-, hb⟩ | ⟨-, hb⟩ <;> rw [hb] at h
  · cases h
  · cases ht : transaction s with
    | fault r => simp [ht] at h
    | refused r => simp [ht] at h
    | next u =>
      rw [ht] at h
      cases access with
      | read lo len =>
        cases h
        exact ⟨_, rfl, .inl rfl⟩
      | write lo bs => exact ⟨u, rfl, .inr ⟨lo, bs, h⟩⟩

theorem kept_of_transactionBeside {s t : State} {who : Agent} {access : Access}
    (h : transactionBeside s who access = .next t) : Kept s t := by
  obtain ⟨u, hu, rfl | ⟨lo, bs, hw⟩⟩ := transactionBeside_eq_next h
  · exact kept_of_transaction hu
  · exact kept_trans (kept_of_transaction hu) (kept_of_outsideWrite hw)

/-- Only a reset during a transaction changes what is recorded (60_exceptions R137, log 22). -/
theorem recorded_of_handleEvent {e : HostEvent} {s t : State} (h : handleEvent e s = .next t) :
    t.recorded = s.recorded ∨ (t.recorded = some .resetDuring ∧ ∃ p, e = .resetDuring p) := by
  cases e with
  | issue p =>
    obtain ⟨-, -, -, hrecorded⟩ := kept_of_transaction (s := s.drive p) h
    exact .inl hrecorded
  | attach bs =>
    cases h
    exact .inl rfl
  | hostWrite a v =>
    obtain ⟨-, -, -, hrecorded⟩ := kept_of_outsideWrite h
    exact .inl hrecorded
  | readPort port =>
    rcases hostReads_cases s port with ⟨-, -, hr⟩ | ⟨-, hr⟩ <;> cases hr.symm.trans h
    exact .inl rfl
  | reset =>
    cases h
    exact .inl rfl
  | issueBeside p who access =>
    obtain ⟨-, -, -, hrecorded⟩ := kept_of_transactionBeside (s := s.drive p) h
    exact .inl hrecorded
  | resetDuring p =>
    cases h
    exact .inr ⟨rfl, p, rfl⟩
  | inputsChangedDuring p => cases h

theorem recorded_of_step {s t : State} (h : step s = .next t) :
    t.recorded = s.recorded ∨ (t.recorded = some .resetDuring ∧ ∃ p rest, s.events = .resetDuring p :: rest) := by
  cases he : s.events with
  | nil =>
    cases (step_of_no_event he).symm.trans h
    exact .inl rfl
  | cons e rest =>
    rcases recorded_of_handleEvent ((step_of_event he).symm.trans h) with hkept | ⟨hrecorded, p, rfl⟩
    · exact .inl hkept
    · exact .inr ⟨hrecorded, p, rest, rfl⟩

/-- Settles O34, by the state that an abandoned transaction leaves and by what each event does to the record. -/
theorem waitingAndDisturbedTransactions : Obligations.WaitingAndDisturbedTransactions := by
  refine ⟨fun s => step_of_no_event, fun s p rest h => ?_, fun s p rest => step_of_inputsChangedDuring,
    fun s t => recorded_of_step⟩
  exact ⟨_, step_of_resetDuring h, rfl, rfl, rfl, readResult_of_not_resultValid rfl, rfl, rfl, rfl, rfl⟩

/-- Settles O35, by the outputs that State.reset has and that the reset event leaves. -/
theorem resetClearsTheOutputs : Obligations.ResetClearsTheOutputs := by
  refine ⟨⟨rfl, rfl, rfl, readResult_of_not_resultValid rfl⟩, fun s rest h => ?_⟩
  exact ⟨_, step_of_reset h, rfl, rfl, rfl, readResult_of_not_resultValid rfl, rfl, rfl, rfl, rfl⟩

/-- Settles O36, by the two answers that a read of an output port can have. -/
theorem readingResultNeedsAValue : Obligations.ReadingResultNeedsAValue := by
  intro s port rest h
  rw [step_of_readPort h]
  rcases hostReads_cases { s with events := rest } port with ⟨hport, hvalid, hr⟩ | ⟨hor, hr⟩ <;> rw [hr]
  · exact (if_pos ⟨hport, hvalid⟩).symm
  · refine (if_neg ?_).symm
    rintro ⟨hport, hvalid⟩
    rcases hor with hne | hvalid'
    · exact hne hport
    · cases hvalid.symm.trans hvalid'

end Sys2Proof.Machine
end
